-- ==== Sys2Proof/Word.lean ====
section
/-! DEFINITION. The two word types of the block: bytes and 16-bit addresses (R10, R19). -/

namespace Sys2Proof

/-- `UInt8` of the spec: an 8-bit unsigned value (R19). -/
abbrev Byte := BitVec 8

/-- `UInt16` of the spec: a bus address, the program counter, the stack pointer (R10, R19);
its arithmetic wraps modulo 2^16. -/
abbrev Word := BitVec 16

end Sys2Proof
end

