-- ==== Sys2Proof/Config.lean ====
section
/-! DEFINITION. What an implementation fixes: the named constants, the plain-data records of the block's
collaborators, the registry's types, the parameters a model takes as arguments (R7 to R18), and the free
values, which are constants without a body. -/

namespace Sys2Proof

/-! ## Named constants -/

namespace Config

/-- `TICKS_NORMAL` (R7). -/
def ticksNormal : Nat := 4

/-- `OPERAND_SLOTS` (R8). -/
def operandSlots : Nat := 2

/-- `REQ_MASK` (R11): only bits 0 to 4 take part in a request. -/
def reqMask : Byte := 0x1F

/-- The two-byte-opcode byte `0xCB` (R102). -/
def extByte : Byte := 0xCB

/-- The STOP opcode `0x10` (R103). -/
def stopByte : Byte := 0x10

/-- The HALT opcode `0x76` (R104). -/
def haltByte : Byte := 0x76

end Config

/-! ## Records of the collaborators -/

/-- The five interrupt sources, in the order of their index 0 to 4 (R9). -/
inductive IrqSource where
  | vblank | lcdStat | timer | serial | joypad
  deriving DecidableEq, Repr

/-- Corruption-kind tags: an opaque finite type (R18). `incDec` is the one tag the fixture of the spec's
test vectors names; log entry 7. -/
inductive CorruptionKind where
  | incDec
  | other (tag : Byte)
  deriving DecidableEq, Repr, Inhabited

/-- `CORRUPT_ABORT_MODE` (R14). -/
inductive CorruptAbortMode where
  | retry | skip | runThenEnd
  deriving DecidableEq, Repr

/-- The per-instruction execution context `Ctx` (R13): opaque in the spec, a list of bytes here (log entry 6). -/
abbrev Ctx := List Byte

/-- The register file, external to the block (R55 to R57). `pc` and `sp` are what the block itself uses;
`a` and `hl` are the fixture's; `rest` holds every other register, of which the spec gives neither count nor
width (log entry 8). -/
structure RegFile where
  pc   : Word
  sp   : Word
  a    : Byte
  hl   : Word
  rest : List Byte
  deriving DecidableEq, Repr, Inhabited

/-- The two-slot operand buffer (R33). -/
structure OperandBuf where
  slot0 : Byte
  slot1 : Byte
  deriving DecidableEq, Repr, Inhabited

/-- Speed Mode (R40). -/
structure SpeedMode where
  double : Bool
  armed  : Bool
  deriving DecidableEq, Repr

/-- The Interrupt Controller (R44). -/
structure IntCtrl where
  ime         : Bool
  ie          : Byte
  ifl         : Byte
  enableDelay : Option (Fin 2)
  deriving DecidableEq, Repr

/-- A call a micro-operation's `toggleInterrupts` may make (R53). -/
inductive IcCall where
  | setMasterEnabled (on : Bool)
  | requestEnableDeferred
  deriving DecidableEq, Repr

/-- What the block sees of the video subsystem (R61), with the corruption injections it has been given,
oldest first (log entry 23). -/
structure Video where
  displayEnabled : Bool
  lineTick       : Nat
  searchPhase    : Bool
  injected       : List (CorruptionKind × Nat)
  deriving DecidableEq, Repr

/-- The bytes of the flat bus: (address, byte) pairs in the canonical form of `Machine.Memory.wf`. -/
abbrev Memory := List Host.Cell

/-- `BusState` (R81): the flat array, and the state of whatever devices the bus maps (log entry 15). -/
structure Bus where
  mem : Memory
  dev : List Byte
  deriving DecidableEq, Repr, Inhabited

/-- One bus access of the block (R28): the calls `bus.readByte` and `bus.writeByte`. -/
inductive BusAccess where
  | read  (addr : Word) (value : Byte)
  | write (addr : Word) (value : Byte)
  deriving DecidableEq, Repr

/-! ## The registry's types -/

/-- What a micro-operation's `execute` does next: end, leaving the register file and the context, or call
the bus (R190, R195). -/
inductive OpCall where
  | finish (regs : RegFile) (ctx : Ctx)
  | read   (addr : Word)
  | write  (addr : Word) (value : Byte)
  deriving DecidableEq, Repr, Inhabited

/-- A micro-operation outside the fixture: its number, and the capabilities R190 calls fixed for it.
What it does is free (`Config.opStart` and the constants beside it; log entry 5). -/
structure ExternalOp where
  id             : Nat
  readsMemory    : Bool
  writesMemory   : Bool
  forcesCycleEnd : Bool
  deriving DecidableEq, Repr

/-- A bus call named by its operands: one call of `bus.readByte` or `bus.writeByte` (R60). -/
inductive BusCall where
  | read  (addr : Word)
  | write (addr : Word) (value : Byte)
  deriving DecidableEq, Repr

/-- A micro-operation that only calls the bus, with the capabilities it declares and the calls it makes, which may differ from
the accesses declared: the "variant micro-op" of vector V-EX-13 (95_test_vectors.md section 3.4; log entry 5). `corrupts` is
what its `causesVideoCorruption` gives. -/
structure VariantOp where
  readsMemory    : Bool
  writesMemory   : Bool
  forcesCycleEnd : Bool
  corrupts       : Option CorruptionKind
  first          : Option BusCall
  second         : Option BusCall
  deriving DecidableEq, Repr

/-- `MicroOp` (R190): "a closed set of variant kinds". The eleven of the fixture registry of
95_test_vectors.md section 2, the variants of its section 3.4, and every other one by its number. -/
inductive MicroOp where
  | ldAImm | stAAbs | ldAAbs | incHL | stAHL | decA | proceedIfANZ | addPC | eiOp | diOp | swapA
  | variant (op : VariantOp)
  | external (op : ExternalOp)
  deriving DecidableEq, Repr

/-- `Descriptor` (R12). `value` and `mnemonic` are read by no rule (R70). The spec gives "a numeric value" and no width for it:
that it is a natural number of any size is the model's choice (DESIGN CHOICE, log entry 26), so that no registry is left out. -/
structure Descriptor where
  value    : Nat
  mnemonic : String
  length   : Nat
  ops      : List MicroOp
  deriving DecidableEq, Repr

/-- `REGISTRY` (R12): the two partial maps, as lists of rows of which the first for a byte counts. -/
structure Registry where
  plain    : List (Byte × Descriptor)
  extended : List (Byte × Descriptor)
  deriving DecidableEq, Repr

/-! ## Parameters -/

/-- `IRQ_VECTOR` (R16). -/
structure IrqVectors where
  vblank  : Word
  lcdStat : Word
  timer   : Word
  serial  : Word
  joypad  : Word
  deriving DecidableEq, Repr

/-- A range of addresses of the bus map: one the bus gives to a device whose behaviour the spec does not state (R80, R91), or one
where it shows memory the video subsystem owns (C10). -/
structure Window where
  base : Word
  size : Nat
  deriving DecidableEq, Repr

/-- The parameters a model takes as arguments (R12 to R17, R343), and the places of the bus map that the spec
leaves to the bus (R42, R52, R80). They stand in the state as data that no step changes, so that a statement
about every state is a statement about every value of them (log entry 3). -/
structure Params where
  registry    : Registry
  ctx0        : Ctx
  abortMode   : CorruptAbortMode
  tickLimit   : Option Nat
  vectors     : IrqVectors
  pcReset     : Word
  spReset     : Word
  ifReset     : Byte
  /-- where the bus maps the interrupt flag register, if it does (R52) -/
  flagAddr    : Option Word
  /-- where the bus maps the interrupt enable register, if it does (R52) -/
  enableAddr  : Option Word
  /-- where the bus maps the speed register, if it does (R42) -/
  speedAddr   : Option Word
  windows     : List Window
  /-- where the bus shows memory that the video subsystem owns, the only memory `video.corrupt` may change (C10, R92); none on
  the reference bus (log entry 23) -/
  videoMemory : List Window
  deriving DecidableEq, Repr

/-- The host's inputs (R322), each a step of its own between ticks. `deviceChange` is the change of bus state
by a device or by DMA that is not a write of a byte. -/
inductive HostInput where
  | tick
  | pause
  | busWrite (addr : Word) (value : Byte)
  | deviceChange (dev : List Byte)
  | raiseIrq (src : IrqSource)
  | writeIF (value : Byte)
  | writeIE (value : Byte)
  | armSwitch
  | videoChange (displayEnabled : Bool) (lineTick : Nat) (searchPhase : Bool)
  | reset
  deriving DecidableEq, Repr

/-! ## Free values

Constants with no body: nothing can evaluate them or prove a value of them, so that a statement which mentions
one holds whatever it is. -/

namespace Config

/-- `execute` of external micro-operation `id`, up to its end or its first bus call (R190; log entry 5). -/
opaque opStart (id : Nat) (regs : RegFile) (operand : OperandBuf) (ctx : Ctx) : OpCall

/-- `execute` of external micro-operation `id` after its first bus call, which gave the byte `got` (the byte
read, or the byte written); log entry 5. -/
opaque opResume (id : Nat) (regs : RegFile) (operand : OperandBuf) (ctx : Ctx) (got : Byte) : OpCall

/-- `causesVideoCorruption` of external micro-operation `id` (R190; log entry 5). -/
opaque opCorruption (id : Nat) (regs : RegFile) (ctx : Ctx) : Option CorruptionKind

/-- The calls `toggleInterrupts` of external micro-operation `id` makes, in order (R190; log entry 5). -/
opaque opToggles (id : Nat) (ic : IntCtrl) : List IcCall

/-- `shouldProceed` of external micro-operation `id` (R190; log entry 5). -/
opaque opProceeds (id : Nat) (regs : RegFile) : Bool

/-- A read in a device window: the byte, and the devices' state after it (R81; log entry 15). -/
opaque deviceRead (dev : List Byte) (addr : Word) : Byte × List Byte

/-- A write in a device window: the devices' state after it (R81; log entry 15). -/
opaque deviceWrite (dev : List Byte) (addr : Word) (value : Byte) : List Byte

/-- What a read of a mapped control register's address gives: the spec does not say (R52; log entry 16). -/
opaque mappedRead (ic : IntCtrl) (speed : SpeedMode) (stored : Byte) (addr : Word) : Byte

/-- Whether a store of this byte to the mapped speed register arms the switch: the spec does not say which
values do (R42; log entry 16). -/
opaque speedStoreArms (value : Byte) : Bool

/-- The bytes `video.corrupt` asks to change; those outside the memory the video subsystem owns are left (C10, R18, R92; log
entry 23). -/
opaque corruptWrites (kind : CorruptionKind) (lineTick : Nat) (bus : Bus) : List (Word × Byte)

/-- The devices' state after `video.corrupt` (R18, R92; log entry 23). -/
opaque corruptDevice (kind : CorruptionKind) (lineTick : Nat) (bus : Bus) : List Byte

end Config

end Sys2Proof
end

