-- ==== Sys2Proof/Machine/Operands.lean ====
section
/-! DEFINITION. The bit and byte helpers (R25) and the operand buffer (R33, R84, R106, R107). -/

namespace Sys2Proof.Machine

/-- `high(w) = w[15:8]` (R25). -/
def high (w : Word) : Byte := w.extractLsb' 8 8

/-- `low(w) = w[7:0]` (R25). -/
def low (w : Word) : Byte := w.extractLsb' 0 8

/-- `pack(h, l) = h ++ l` (R25). -/
def pack (h l : Byte) : Word := h ++ l

/-- `bitTest(v, pos)` (R25). -/
def bitTest (v : Byte) (pos : Nat) : Bool := v.getLsbD pos

/-- `bitSet(v, pos)` (R25). -/
def bitSet (v : Byte) (pos : Nat) : Byte := v ||| ((1 : Byte) <<< pos)

/-- `bitClear(v, pos)` (R25). -/
def bitClear (v : Byte) (pos : Nat) : Byte := v &&& ~~~((1 : Byte) <<< pos)

/-- `bitSet(v, pos, on)` (R25). -/
def bitPut (v : Byte) (pos : Nat) (on : Bool) : Byte := if on then bitSet v pos else bitClear v pos

/-- `signExtend(b)`: the byte, less 256 when bit 7 is set (R21, R25). -/
def signExtend (b : Byte) : Int := if bitTest b 7 then (b.toNat : Int) - 256 else b.toNat

/-- An address plus a signed displacement, modulo 2^16 (R10). -/
def displace (a : Word) (e : Int) : Word := BitVec.ofInt 16 (a.toNat + e)

namespace OperandBuf

/-- Both slots clear (R33). -/
def clear : OperandBuf := { slot0 := 0x00, slot1 := 0x00 }

/-- `operand[i] <- v` (R165): slot 0 for the first byte, slot 1 for the second; there is no third slot. -/
def put (b : OperandBuf) : Nat → Byte → OperandBuf
  | 0, v => { b with slot0 := v }
  | 1, v => { b with slot1 := v }
  | _, _ => b

/-- The first `n` bytes of the buffer, in fetch order. -/
def firstBytes (b : OperandBuf) : Nat → List Byte
  | 0 => []
  | 1 => [b.slot0]
  | _ => [b.slot0, b.slot1]

/-- The buffer with an instruction's operand bytes in its slots, the first in slot 0 (R33, R107). -/
def load (b : OperandBuf) : List Byte → OperandBuf
  | [] => b
  | [x] => { b with slot0 := x }
  | x :: y :: _ => { slot0 := x, slot1 := y }

/-- `pack(operand) = operand[1] ++ operand[0]` (R84). -/
def value (b : OperandBuf) : Word := pack b.slot1 b.slot0

end OperandBuf

end Sys2Proof.Machine
end

