-- ==== Sys2Proof/Machine/Flags.lean ====
section
/-! DEFINITION. The flag computations of the block: the interrupt controller's masks, predicates and deferral
(R44 to R51, R262, R307), and Speed Mode (R40 to R43). The block has no arithmetic flags (R204). -/

namespace Sys2Proof.Machine

namespace IrqSource

/-- The index of a source, which is its bit in `ifl` and `ie` (R9, R306). -/
def index : IrqSource → Nat
  | .vblank  => 0
  | .lcdStat => 1
  | .timer   => 2
  | .serial  => 3
  | .joypad  => 4

end IrqSource

/-- `ctz5(m)` as a source: the lowest of bits 0 to 4 that is set, none when there is none (R26, R262). -/
def lowestSource (m : Byte) : Option IrqSource :=
  if bitTest m 0 then some .vblank
  else if bitTest m 1 then some .lcdStat
  else if bitTest m 2 then some .timer
  else if bitTest m 3 then some .serial
  else if bitTest m 4 then some .joypad
  else none

/-- The sources present in two masks, bits 0 to 4 only (R262). -/
def bothMasks (a b : Byte) : Byte := a &&& b &&& Config.reqMask

namespace IntCtrl

/-- `irqRequested()` (R130, R307). -/
def requested (ic : IntCtrl) : Bool := decide (bothMasks ic.ifl ic.ie ≠ 0)

/-- `ic.isHaltBugCondition()` (R48). -/
def haltBugCondition (ic : IntCtrl) : Bool := !ic.ime && requested ic

/-- `ic.clear(i)` (R47). -/
def clearPending (ic : IntCtrl) (src : IrqSource) : IntCtrl :=
  { ic with ifl := bitClear ic.ifl (IrqSource.index src) }

/-- `raise(i)` (R52). -/
def raisePending (ic : IntCtrl) (src : IrqSource) : IntCtrl :=
  { ic with ifl := bitSet ic.ifl (IrqSource.index src) }

/-- `writeIF(v)` (R52). -/
def writeIF (ic : IntCtrl) (v : Byte) : IntCtrl := { ic with ifl := v }

/-- `writeIE(v)` (R52). -/
def writeIE (ic : IntCtrl) (v : Byte) : IntCtrl := { ic with ie := v }

/-- `ic.setMasterEnabled(b)`: at once, and it drops a deferred enable (R49). -/
def setMasterEnabled (ic : IntCtrl) (on : Bool) : IntCtrl := { ic with ime := on, enableDelay := none }

/-- `ic.requestEnableDeferred()` (R50). -/
def requestEnableDeferred (ic : IntCtrl) : IntCtrl :=
  match ic.enableDelay with
  | none   => { ic with enableDelay := some 1 }
  | some _ => ic

/-- `ic.onInstructionRetired()` (R51). -/
def onInstructionRetired (ic : IntCtrl) : IntCtrl :=
  match ic.enableDelay with
  | none   => ic
  | some k => if k = 0 then { ic with ime := true, enableDelay := none } else { ic with enableDelay := some 0 }

/-- One call of `toggleInterrupts` (R53). -/
def call (ic : IntCtrl) : IcCall → IntCtrl
  | .setMasterEnabled on    => setMasterEnabled ic on
  | .requestEnableDeferred  => requestEnableDeferred ic

/-- The calls of `toggleInterrupts`, in order (R196). -/
def calls (ic : IntCtrl) (cs : List IcCall) : IntCtrl := cs.foldl call ic

end IntCtrl

namespace SpeedMode

/-- The threshold `T = 4 / divisor`: 4 ticks at normal speed, 2 at double speed (R7, R41). -/
def ticksPerCycle (m : SpeedMode) : Nat := Config.ticksNormal / (if m.double then 2 else 1)

/-- `speed.armSwitch()` (R42). -/
def armSwitch (m : SpeedMode) : SpeedMode := { m with armed := true }

/-- What `speed.onStopInstruction()` does to the flags; its result is `armed` (R43). -/
def onStop (m : SpeedMode) : SpeedMode := if m.armed then { double := !m.double, armed := false } else m

end SpeedMode

end Sys2Proof.Machine
end

