-- ==== Sys2Proof/Machine/Memory.lean ====
section
/-! DEFINITION. The bytes of the flat bus (R80, R81): a list of (address, byte) pairs in one canonical form. -/

namespace Sys2Proof.Machine.Memory

/-- What an address the list does not name reads as (log entry 11). -/
def unlisted : Byte := 0x00

/-- The byte at address `a`. -/
def read (a : Nat) : Memory → Byte
  | [] => unlisted
  | (k, v) :: rest => if k = a then v else read a rest

/-- Memory with byte `v` at address `a`: the entry is inserted in its place, replaced, or removed when `v` is what
an unlisted address reads as. -/
def write (a : Nat) (v : Byte) : Memory → Memory
  | [] => if v = unlisted then [] else [(a, v)]
  | (k, w) :: rest =>
    if a < k then (if v = unlisted then (k, w) :: rest else (a, v) :: (k, w) :: rest)
    else if a = k then (if v = unlisted then rest else (a, v) :: rest)
    else (k, w) :: write a v rest

/-- Bytes written at successive places of a list, the first first. -/
def writeAll (ws : List (Word × Byte)) (m : Memory) : Memory :=
  ws.foldl (fun m p => write p.1.toNat p.2 m) m

/-- Every address of the list is above `lo`, and they rise strictly. -/
def risesFrom : Option Nat → Memory → Bool
  | _, [] => true
  | none, (k, _) :: rest => risesFrom (some k) rest
  | some lo, (k, _) :: rest => decide (lo < k) && risesFrom (some k) rest

/-- The canonical form: addresses strictly rising and below 2^16 (R80), and no entry equal to what an unlisted
address reads as. -/
def wf (m : Memory) : Bool :=
  risesFrom none m && m.all (fun c => decide (c.1 < 2 ^ 16) && decide (c.2 ≠ unlisted))

end Sys2Proof.Machine.Memory
end

