-- ==== Sys2Proof/Machine/Registry.lean ====
section
/-! DEFINITION. The registry's ports, the fixture registry of 95_test_vectors.md section 2, and the values the
parameters have in `State.reset`. -/

namespace Sys2Proof

namespace Registry

/-- The descriptor of the first row for byte `b`. -/
def find (b : Byte) : List (Byte × Descriptor) → Option Descriptor
  | [] => none
  | (k, d) :: rows => if k = b then some d else find b rows

/-- `REGISTRY.lookup` (R62). -/
def lookup (r : Registry) (b : Byte) : Option Descriptor := find b r.plain

/-- `REGISTRY.lookupExtended` (R62). -/
def lookupExtended (r : Registry) (b : Byte) : Option Descriptor := find b r.extended

/-- One row of the fixture: the descriptor's numeric value is its byte. -/
def row (b : Byte) (mnemonic : String) (length : Nat) (ops : List MicroOp) : Byte × Descriptor :=
  (b, { value := b.toNat, mnemonic := mnemonic, length := length, ops := ops })

/-- The fixture registry (95_test_vectors.md section 2; log entry 4). -/
def fixture : Registry where
  plain :=
    [row 0x00 "NOP" 0 [], row 0x3E "LD A,n" 1 [.ldAImm], row 0xEA "LD (nn),A" 2 [.stAAbs],
     row 0xFA "LD A,(nn)" 2 [.ldAAbs], row 0x23 "INC HL" 0 [.incHL], row 0x77 "LD (HL),A" 0 [.stAHL]] ++
    [row 0x3D "DEC A" 0 [.decA], row 0x20 "JR NZ,e" 1 [.proceedIfANZ, .addPC], row 0xFB "EI" 0 [.eiOp],
     row 0xF3 "DI" 0 [.diOp], row 0x76 "HALT" 0 []]
  extended := [row 0x37 "SWAP A" 0 [.swapA], row 0x00 "RLC B" 0 []]

end Registry

/-- The default vectors `0x0040 + 8*i` (R16; log entry 13). -/
def IrqVectors.standard : IrqVectors where
  vblank  := 0x0040
  lcdStat := 0x0048
  timer   := 0x0050
  serial  := 0x0058
  joypad  := 0x0060

/-- `IRQ_VECTOR(i)` (R16). -/
def IrqVectors.get (v : IrqVectors) : IrqSource → Word
  | .vblank  => v.vblank
  | .lcdStat => v.lcdStat
  | .timer   => v.timer
  | .serial  => v.serial
  | .joypad  => v.joypad

/-- The parameters of `State.reset`: the spec's defaults where it gives them (R14, R15, R16), the fixture
registry (log entry 4), and for the open ones the values log entries 6, 9 and 10 name. The bus maps no register
and no device, and shows no memory of the video subsystem (R81, R321; log entries 15, 16 and 23). -/
def Params.standard : Params where
  registry    := Registry.fixture
  ctx0        := []
  abortMode   := .retry
  tickLimit   := none
  vectors     := IrqVectors.standard
  pcReset     := 0x0100
  spReset     := 0xFFFE
  ifReset     := 0x00
  flagAddr    := none
  enableAddr  := none
  speedAddr   := none
  windows     := []
  videoMemory := []

end Sys2Proof
end

