-- ==== Sys2Proof/Machine/State.lean ====
section
/-! DEFINITION. The state of the block and of the collaborators it reaches (10_state.md), its fault reasons, and the
state after reset (R340). -/

namespace Sys2Proof.Machine

/-- `FaultReason` (R300). A fault is recorded in the state (R39, R301): the step that meets one answers a NEXT state whose
`fault` holds the reason, and every later tick changes nothing (R131). No step answers `Outcome.fault` (log entry 19). -/
inductive Fault where
  /-- Raised by ILLEGAL: the first opcode byte has no descriptor (R160). Safe: the spec's own fault. -/
  | decodeFailure (op1 : Byte)
  /-- Raised by ILLEGAL_EXT and ILLEGAL_STOP: the second opcode byte has no descriptor (R163). Safe: the spec's own fault. -/
  | extDecodeFailure (op1 op2 : Byte)
  /-- Raised by the OPERAND state when no descriptor is resolved (R165). Safe: the spec's own fault. -/
  | noDescriptorAtOperand
  /-- Raised by the OPERAND state when the descriptor declares more than two operand bytes (R166). Safe: the spec's own
  fault. -/
  | operandLengthExceeded
  /-- Raised by PLAIN and EXT when the execution index is past the sequence (R205). Safe: the spec's own fault. -/
  | execIndexExceeded
  /-- Raised by PLAIN and EXT when a micro-operation's bus calls break its declaration (R195). Safe: the spec's own fault;
  log entry 18 says which calls break it. -/
  | opBusContract
  /-- Raised by the arbitration loop for a state it has no arm for (R137), and by IRQ_JUMP when no source is in both
  snapshots (R26; log entry 21). Safe: the machine stops. -/
  | protocolViolation
  deriving DecidableEq, Repr

/-- Why an instruction has no meaning in the model. -/
inductive Refusal where
  /-- Answered by exec's arm of an instruction that has no meaning yet. Safe: the machine stops. No arm answers it. -/
  | notModelled (mnemonic : String)
  deriving DecidableEq, Repr

/-- The eleven control states (R29, R31). -/
inductive SeqState where
  | opcode | extOpcode | operand | running
  | irqReadIF | irqReadIE | irqPush1 | irqPush2 | irqJump
  | stopped | halted
  deriving DecidableEq, Repr

/-- The machine's state. The sequencer's registers (R30 to R39), Speed Mode (R40), the Interrupt Controller (R44), the
collaborators' state the block reaches (R55 to R57, R61, R81), the parameters (R12 to R17), the inputs the host has yet to
make (R322), and two fields of the model's own: `busUsed`, which the spec keeps local to one tick (R69), and `busTrace`,
the bus accesses of the latest machine cycle (log entry 22). -/
structure State where
  subCycle   : Nat
  state      : SeqState
  op1        : Byte
  op2        : Byte
  operand    : OperandBuf
  operandIdx : Nat
  desc       : Option Descriptor
  ops        : List MicroOp
  execIdx    : Nat
  ctx        : Ctx
  haltBug    : Bool
  ifSnap     : Byte
  ieSnap     : Byte
  fault      : Option Fault
  speed      : SpeedMode
  ic         : IntCtrl
  regs       : RegFile
  bus        : Bus
  video      : Video
  busUsed    : Bool
  busTrace   : List BusAccess
  params     : Params
  inputs     : List HostInput
  deriving DecidableEq, Repr

/-- The state right after reset, at the start of a session (R340, R341), with the parameters of `Params.standard`. The
general registers, the bus and the video state are arguments of the initial state in the spec (R341); the values here
are those of log entries 8, 11 and 12. -/
def State.reset : State where
  subCycle   := 0
  state      := .opcode
  op1        := 0x00
  op2        := 0x00
  operand    := { slot0 := 0x00, slot1 := 0x00 }
  operandIdx := 0
  desc       := none
  ops        := []
  execIdx    := 0
  ctx        := Params.standard.ctx0
  haltBug    := false
  ifSnap     := 0x00
  ieSnap     := 0x00
  fault      := none
  speed      := { double := false, armed := false }
  ic         := { ime := false, ie := 0x00, ifl := Params.standard.ifReset, enableDelay := none }
  regs       := { pc := Params.standard.pcReset, sp := Params.standard.spReset, a := 0x00, hl := 0x0000, rest := [] }
  bus        := { mem := [], dev := [] }
  video      := { displayEnabled := true, lineTick := 0, searchPhase := false, injected := [] }
  busUsed    := false
  busTrace   := []
  params     := Params.standard
  inputs     := []

end Sys2Proof.Machine
end

