-- ==== Sys2Proof/Machine/Ops.lean ====
section
/-! DEFINITION. The named operations over the bus, the registers and the interrupt controller: bus accesses (R80 to R85),
faults (R301), retirement (R198), taking an interrupt (44_interrupt_dispatch.md), waking (R133, R135). -/

namespace Sys2Proof.Machine

/-! ## The bus -/

/-- The address is one the bus gives to a control register (R42, R52; log entry 16). -/
def mapsControl (p : Params) (a : Word) : Bool :=
  decide (p.flagAddr = some a) || decide (p.enableAddr = some a) || decide (p.speedAddr = some a)

/-- The address lies in the window. -/
def Window.covers (w : Window) (a : Word) : Bool :=
  decide (w.base.toNat ≤ a.toNat) && decide (a.toNat < w.base.toNat + w.size)

/-- The address lies in a device window (log entry 15). -/
def mapsDevice (p : Params) (a : Word) : Bool := p.windows.any (fun w => Window.covers w a)

/-- The bus shows memory of the video subsystem at the address (C10; log entry 23). -/
def showsVideo (p : Params) (a : Word) : Bool := p.videoMemory.any (fun w => Window.covers w a)

/-- `busRead` (R81): the byte at `a` and the bus after the read. The reference bus is the flat array; a device window and
a mapped control register answer with a free value. Where a window covers a control register's address, the control
register answers and the device is left alone: the spec leaves the map to the bus (R90, R321), and this order is the
model's choice (DESIGN CHOICE, log entry 16). -/
def busRead (s : State) (a : Word) : Byte × Bus :=
  if mapsControl s.params a then
    (Config.mappedRead s.ic s.speed (Memory.read a.toNat s.bus.mem) a, s.bus)
  else if mapsDevice s.params a then
    ((Config.deviceRead s.bus.dev a).1, { s.bus with dev := (Config.deviceRead s.bus.dev a).2 })
  else (Memory.read a.toNat s.bus.mem, s.bus)

/-- `busWrite` (R81): the bus after byte `v` is written at `a`. As in `busRead` a mapped control register goes before a device
window: the byte goes to the flat array and the device is left alone (R90, R321; DESIGN CHOICE, log entry 16). -/
def busWrite (s : State) (a : Word) (v : Byte) : Bus :=
  if mapsDevice s.params a && !mapsControl s.params a then { s.bus with dev := Config.deviceWrite s.bus.dev a v }
  else { s.bus with mem := Memory.write a.toNat v s.bus.mem }

/-- `MemRead(a, 1)` (R22): the byte read. -/
def readByte (s : State) (a : Word) : Byte := (busRead s a).1

/-- `MemRead(a, 1)` (R22): the state after the read. -/
def afterRead (s : State) (a : Word) : State :=
  { s with bus := (busRead s a).2, busTrace := s.busTrace ++ [.read a (readByte s a)] }

/-- `MemWrite(a, 1, v)` (R22). -/
def writeByte (s : State) (a : Word) (v : Byte) : State :=
  { s with bus := busWrite s a v, busTrace := s.busTrace ++ [.write a v] }

/-- What a store by a micro-operation does to the interrupt controller when it reaches the flag or the enable register
(R52). -/
def icAfterStore (s : State) (a : Word) (v : Byte) : IntCtrl :=
  if s.params.flagAddr = some a then IntCtrl.writeIF s.ic v
  else if s.params.enableAddr = some a then IntCtrl.writeIE s.ic v
  else s.ic

/-- What a store by a micro-operation does to Speed Mode when it reaches the speed register (R42). -/
def speedAfterStore (s : State) (a : Word) (v : Byte) : SpeedMode :=
  if s.params.speedAddr = some a ∧ Config.speedStoreArms v = true then SpeedMode.armSwitch s.speed else s.speed

/-- A micro-operation's `bus.writeByte(a, v)` (R195), with what it reaches beyond the bus (R42, R52). Where the speed register is
mapped at the address of the flag or of the enable register, the store reaches both: the spec leaves the map to the bus (R90, R321,
R322) and gives no order (DESIGN CHOICE, log entry 16). -/
def storeByte (s : State) (a : Word) (v : Byte) : State :=
  { writeByte s a v with ic := icAfterStore s a v, speed := speedAfterStore s a v }

/-- `regs.incPC()`, modulo 2^16 (R63). -/
def incPC (s : State) : State := { s with regs := { s.regs with pc := s.regs.pc + 1 } }

/-! ## Faults and the ends of a cycle -/

/-- `raise Fault(r)` (R22, R301): the reason is recorded, and every other field keeps its value. -/
def raiseFault (r : Fault) (s : State) : State := { s with fault := some r }

/-- The start of a machine cycle: the counter goes back to 0 (R132), and no bus access has been made. -/
def beginCycle (s : State) : State := { s with subCycle := 0, busTrace := [] }

/-- The end of a tick: `busUsed` is local to it (R69). -/
def endTick (s : State) : State := { s with busUsed := false }

/-- Retirement (R198). -/
def retire (s : State) : State :=
  { s with operandIdx := 0, state := .opcode, ic := IntCtrl.onInstructionRetired s.ic }

/-- `clearTransient()` (R162): every per-instruction field but `haltBug`. -/
def clearTransient (s : State) : State :=
  { s with
    op1 := 0x00, op2 := 0x00, operand := OperandBuf.clear, operandIdx := 0,
    desc := none, ops := [], execIdx := 0, ctx := s.params.ctx0, ifSnap := 0x00, ieSnap := 0x00 }

/-- The number of ticks in a machine cycle at the current speed (R132). -/
def ticksPerCycle (s : State) : Nat := SpeedMode.ticksPerCycle s.speed

/-! ## Taking an interrupt -/

/-- The five dispatch states (R134). -/
def SeqState.isDispatch : SeqState → Bool
  | .irqReadIF | .irqReadIE | .irqPush1 | .irqPush2 | .irqJump => true
  | .opcode | .extOpcode | .operand | .running | .stopped | .halted => false

/-- The states in which preemption is tested (R133). -/
def SeqState.isPreemptible : SeqState → Bool
  | .opcode | .halted | .stopped => true
  | .extOpcode | .operand | .running | .irqReadIF | .irqReadIE | .irqPush1 | .irqPush2 | .irqJump => false

/-- The preemption test holds at the start of a machine cycle (R133). -/
def preempts (s : State) : Bool :=
  SeqState.isPreemptible s.state && s.ic.ime && IntCtrl.requested s.ic

/-- Preemption: to `IRQ_READ_IF`, with the display enabled again when it wakes `STOPPED` (R133). -/
def preempt (s : State) : State :=
  if preempts s then
    { s with
      state := .irqReadIF,
      video := if s.state = .stopped then { s.video with displayEnabled := true } else s.video }
  else s

/-- `IRQ_READ_IF` (R261). -/
def readIF (s : State) : State := { s with ifSnap := s.ic.ifl, state := .irqReadIE }

/-- `IRQ_READ_IE`, with the selection of the source, or the spurious wake (R262, R263). -/
def readIE (s : State) : State :=
  match lowestSource (bothMasks s.ifSnap s.ic.ie) with
  | none => { s with ieSnap := s.ic.ie, state := .opcode }
  | some src =>
    { s with
      ieSnap := s.ic.ie, state := .irqPush1,
      ic := IntCtrl.setMasterEnabled (IntCtrl.clearPending s.ic src) false }

/-- A byte pushed at `SP - 1`, modulo 2^16 (R264, R265). -/
def pushByte (s : State) (v : Byte) : State :=
  writeByte { s with regs := { s.regs with sp := s.regs.sp - 1 } } (s.regs.sp - 1) v

/-- `IRQ_PUSH_1`: the high byte of the saved program counter (R264). -/
def push1 (s : State) : State := { pushByte s (high s.regs.pc) with state := .irqPush2 }

/-- `IRQ_PUSH_2`: the low byte of the saved program counter (R265). -/
def push2 (s : State) : State := { pushByte s (low s.regs.pc) with state := .irqJump }

/-- `IRQ_JUMP`: to the vector of the source both snapshots hold (R266). With none there the rules do not say what happens
(R26), and the block faults (log entry 21). -/
def jump (s : State) : State :=
  match lowestSource (bothMasks s.ifSnap s.ieSnap) with
  | none => raiseFault .protocolViolation s
  | some src => { s with regs := { s.regs with pc := s.params.vectors.get src }, state := .opcode }

/-- One dispatch cycle (R260): the one operation by which an interrupt is taken, one state a cycle. -/
def dispatchCycle (s : State) : State :=
  match s.state with
  | .irqReadIF => readIF s
  | .irqReadIE => readIE s
  | .irqPush1  => push1 s
  | .irqPush2  => push2 s
  | .irqJump   => jump s
  | .opcode | .extOpcode | .operand | .running | .stopped | .halted => s

/-- The HALTED wake (R135). -/
def haltWake (s : State) : State :=
  if s.state = .halted ∧ IntCtrl.requested s.ic = true then { s with state := .opcode } else s

/-! ## Reset as an input -/

/-- Reset (R340): the fields of its table, and nothing else (R341). -/
def resetFields (s : State) : State :=
  { s with
    subCycle := 0, state := .opcode, op1 := 0x00, op2 := 0x00, operand := OperandBuf.clear, operandIdx := 0,
    desc := none, ops := [], execIdx := 0, ctx := s.params.ctx0, haltBug := false, ifSnap := 0x00, ieSnap := 0x00,
    fault := none, speed := { double := false, armed := false },
    ic := { ime := false, ie := 0x00, ifl := s.params.ifReset, enableDelay := none },
    regs := { s.regs with pc := s.params.pcReset, sp := s.params.spReset } }

end Sys2Proof.Machine
end

