-- ==== Sys2Proof/Machine/MicroOps.lean ====
section
/-! DEFINITION. The capabilities of each micro-operation (R190; the fixture's are those of 95_test_vectors.md section 2), and
one iteration of the RUNNING walk (R191 to R200). -/

namespace Sys2Proof.Machine

namespace MicroOp

/-- `readsMemory()` (R190). -/
def readsMemory : MicroOp → Bool
  | .ldAAbs => true
  | .variant op => op.readsMemory
  | .external op => op.readsMemory
  | .ldAImm | .stAAbs | .incHL | .stAHL | .decA | .proceedIfANZ | .addPC | .eiOp | .diOp | .swapA => false

/-- `writesMemory()` (R190). -/
def writesMemory : MicroOp → Bool
  | .stAAbs | .stAHL => true
  | .variant op => op.writesMemory
  | .external op => op.writesMemory
  | .ldAImm | .ldAAbs | .incHL | .decA | .proceedIfANZ | .addPC | .eiOp | .diOp | .swapA => false

/-- `acc`: it reads or writes memory (R191). -/
def accesses (m : MicroOp) : Bool := readsMemory m || writesMemory m

/-- `forcesCycleEnd()` (R190). -/
def forcesCycleEnd : MicroOp → Bool
  | .incHL | .addPC => true
  | .variant op => op.forcesCycleEnd
  | .external op => op.forcesCycleEnd
  | .ldAImm | .stAAbs | .ldAAbs | .stAHL | .decA | .proceedIfANZ | .eiOp | .diOp | .swapA => false

/-- `causesVideoCorruption(registers, ctx)` (R190). -/
def corruption (m : MicroOp) (regs : RegFile) (ctx : Ctx) : Option CorruptionKind :=
  match m with
  | .incHL => if 0xFE00 ≤ regs.hl ∧ regs.hl ≤ 0xFEFF then some .incDec else none
  | .variant op => op.corrupts
  | .external op => Config.opCorruption op.id regs ctx
  | .ldAImm | .stAAbs | .ldAAbs | .stAHL | .decA | .proceedIfANZ | .addPC | .eiOp | .diOp | .swapA => none

/-- A bus call to make, or the end of `execute` with nothing changed. -/
def callOrFinish (c : Option BusCall) (regs : RegFile) (ctx : Ctx) : OpCall :=
  match c with
  | none => .finish regs ctx
  | some (.read a) => .read a
  | some (.write a v) => .write a v

/-- `execute`, up to its end or its first bus call (R190, R195). -/
def start (m : MicroOp) (regs : RegFile) (operand : OperandBuf) (ctx : Ctx) : OpCall :=
  match m with
  | .ldAImm => .finish { regs with a := operand.slot0 } ctx
  | .stAAbs => .write (OperandBuf.value operand) regs.a
  | .ldAAbs => .read (OperandBuf.value operand)
  | .incHL => .finish { regs with hl := regs.hl + 1 } ctx
  | .stAHL => .write regs.hl regs.a
  | .decA => .finish { regs with a := regs.a - 1 } ctx
  | .addPC => .finish { regs with pc := displace regs.pc (signExtend operand.slot0) } ctx
  | .swapA => .finish { regs with a := (regs.a <<< 4) ||| (regs.a >>> 4) } ctx
  | .proceedIfANZ | .eiOp | .diOp => .finish regs ctx
  | .variant op => callOrFinish op.first regs ctx
  | .external op => Config.opStart op.id regs operand ctx

/-- `execute` after its first bus call, which gave the byte `got` (R190, R195). -/
def resume (m : MicroOp) (regs : RegFile) (operand : OperandBuf) (ctx : Ctx) (got : Byte) : OpCall :=
  match m with
  | .ldAAbs => .finish { regs with a := got } ctx
  | .variant op => callOrFinish op.second regs ctx
  | .external op => Config.opResume op.id regs operand ctx got
  | .ldAImm | .stAAbs | .incHL | .stAHL | .decA | .proceedIfANZ | .addPC | .eiOp | .diOp | .swapA => .finish regs ctx

/-- The calls of `toggleInterrupts(ic)` (R190). -/
def toggles (m : MicroOp) (ic : IntCtrl) : List IcCall :=
  match m with
  | .eiOp => [.requestEnableDeferred]
  | .diOp => [.setMasterEnabled false]
  | .external op => Config.opToggles op.id ic
  | .ldAImm | .stAAbs | .ldAAbs | .incHL | .stAHL | .decA | .proceedIfANZ | .addPC | .swapA | .variant _ => []

/-- `shouldProceed(registers)` (R190). -/
def shouldProceed (m : MicroOp) (regs : RegFile) : Bool :=
  match m with
  | .proceedIfANZ => decide (regs.a ≠ 0)
  | .external op => Config.opProceeds op.id regs
  | .ldAImm | .stAAbs | .ldAAbs | .incHL | .stAHL | .decA | .addPC | .eiOp | .diOp | .swapA
  | .variant _ => true

end MicroOp

/-! ## Running one micro-operation -/

/-- What running a micro-operation leaves: it ran, or a fault was raised. -/
inductive Executed where
  | ran (s : State)
  | raised (s : State)
  deriving DecidableEq, Repr

/-- What one iteration of `running()` does about the cycle: leave the tick (`return`) or go on to the next iteration
(`continue`); R23, R139. -/
inductive OpOutcome where
  | suspend (s : State)
  | again (s : State)
  deriving DecidableEq, Repr

/-- The end of `execute` after its one bus call; a second call breaks the bus contract (R195). -/
def finishExecute (buf : OperandBuf) (m : MicroOp) (s : State) (got : Byte) (after : State) : Executed :=
  match MicroOp.resume m s.regs buf s.ctx got with
  | .finish regs ctx => .ran { after with regs := regs, ctx := ctx }
  | .read _ | .write _ _ => .raised (raiseFault .opBusContract after)

/-- `ctx <- m.execute(regs, bus, operand, ctx)`, with the bus contract (R195, R300; log entry 18): a call the operation did
not declare, or a second call, raises `OpBusContract`. -/
def executeOp (buf : OperandBuf) (m : MicroOp) (s : State) : Executed :=
  match MicroOp.start m s.regs buf s.ctx with
  | .finish regs ctx => .ran { s with regs := regs, ctx := ctx }
  | .read a =>
    if MicroOp.readsMemory m then finishExecute buf m s (readByte s a) (afterRead s a)
    else .raised (raiseFault .opBusContract s)
  | .write a v =>
    if MicroOp.writesMemory m then finishExecute buf m s v (storeByte s a v)
    else .raised (raiseFault .opBusContract s)

/-- `toggleInterrupts`, and the index's advance (R191, R196). -/
def toggleAndAdvance (m : MicroOp) (s : State) : State :=
  { s with ic := IntCtrl.calls s.ic (MicroOp.toggles m s.ic), execIdx := s.execIdx + 1 }

/-- The fast-forward to the end of the sequence when `shouldProceed` is false (R197). -/
def fastForward (m : MicroOp) (s : State) : State :=
  if MicroOp.shouldProceed m s.regs then s else { s with execIdx := s.ops.length }

/-- `execute`, `toggleInterrupts`, `execIdx + 1` and `shouldProceed`, in that order (R191, R194). -/
def performOp (buf : OperandBuf) (m : MicroOp) (s : State) : Executed :=
  match executeOp buf m s with
  | .raised t => .raised t
  | .ran t => .ran (fastForward m (toggleAndAdvance m t))

/-- `inCorruptionWindow()` (R194). -/
def inCorruptionWindow (s : State) : Bool :=
  s.video.searchPhase &&
    match s.params.tickLimit with
    | none => true
    | some limit => decide (s.video.lineTick < limit)

/-- The bus after `video.corrupt(k, tick)`: free bytes at free addresses of the memory the video subsystem owns, and a free device
state where the bus maps a device (C10, R92; log entry 23). The reference bus has neither, and is left as it was (R81, R93). -/
def corruptBus (k : CorruptionKind) (s : State) : Bus :=
  { mem := Memory.writeAll
      ((Config.corruptWrites k s.video.lineTick s.bus).filter (fun w => showsVideo s.params w.1)) s.bus.mem,
    dev := if s.params.windows = [] then s.bus.dev else Config.corruptDevice k s.video.lineTick s.bus }

/-- `video.corrupt(k, video.lineTick())` (R61, R92, R193): the video subsystem is given the injection. -/
def injectCorruption (k : CorruptionKind) (s : State) : State :=
  { s with
    video := { s.video with injected := s.video.injected ++ [(k, s.video.lineTick)] },
    bus := corruptBus k s }

/-- `corruptionAbort(m)` (R194). -/
def corruptionAbort (buf : OperandBuf) (m : MicroOp) (s : State) : State :=
  match s.params.abortMode with
  | .retry => s
  | .skip => { s with execIdx := s.execIdx + 1 }
  | .runThenEnd =>
    match performOp buf m s with
    | .raised t => t
    | .ran t => t

/-- The micro-operation runs, and then the forced end (R200) or the bus flag (R199). -/
def completeOp (buf : OperandBuf) (m : MicroOp) (s : State) : OpOutcome :=
  match performOp buf m s with
  | .raised t => .suspend t
  | .ran t =>
    if MicroOp.forcesCycleEnd m then .suspend t
    else .again { t with busUsed := t.busUsed || MicroOp.accesses m }

/-- One micro-operation of `running()`, from the bus conflict to the bus flag (R191 to R200). -/
def runOp (buf : OperandBuf) (m : MicroOp) (s : State) : OpOutcome :=
  if s.busUsed && MicroOp.accesses m then .suspend s
  else
    match MicroOp.corruption m s.regs s.ctx with
    | none => completeOp buf m s
    | some k =>
      if s.video.displayEnabled then
        completeOp buf m (if inCorruptionWindow s then injectCorruption k s else s)
      else .suspend (corruptionAbort buf m s)

/-- The iterations of `running()` over the micro-operations not yet run, to the `return` that ends the tick; retirement when
the index reaches the end (R191, R198). -/
def walk (buf : OperandBuf) : List MicroOp → State → State
  | [], s => retire s
  | m :: rest, s =>
    match runOp buf m s with
    | .suspend t => t
    | .again t => if t.execIdx ≥ t.ops.length then retire t else walk buf rest t

/-- The generic part of `running()`, from the protocol check on (R191, R205). -/
def runGeneric (buf : OperandBuf) (s : State) : State :=
  if s.execIdx > s.ops.length then raiseFault .execIndexExceeded s
  else walk buf (s.ops.drop s.execIdx) s

end Sys2Proof.Machine
end

