-- ==== Sys2Proof/Syntax.lean ====
section
/-! DEFINITION. The instructions: one constructor per row of spec/opcode_table.json (R115). -/

namespace Sys2Proof

/-- An instruction as the sequencer decodes it (R100, R101): its class, the opcode bytes the class leaves open,
and the operand bytes in the order they are fetched. -/
inductive Instr where
  /-- HALT: `0x76` and the operand bytes of `lookup(0x76)` (R104, R234). -/
  | halt (operands : List Byte)
  /-- STOP: `0x10`, a second opcode byte, and the operand bytes of its descriptor (R103, R230). -/
  | stop (op2 : Byte) (operands : List Byte)
  /-- EXT: `0xCB`, a second opcode byte, and the operand bytes of its descriptor (R102, R203). -/
  | ext (op2 : Byte) (operands : List Byte)
  /-- PLAIN: any other registered first byte, and its operand bytes (R202). -/
  | plain (op1 : Byte) (operands : List Byte)
  /-- ILLEGAL: a first byte the registry does not know (R112, R160). -/
  | illegal (op1 : Byte)
  /-- ILLEGAL_EXT: `0xCB` and a second byte the registry does not know (R112, R163). -/
  | illegalExt (op2 : Byte)
  /-- ILLEGAL_STOP: `0x10` and a second byte the registry does not know (R112, R163). -/
  | illegalStop (op2 : Byte)
  deriving DecidableEq, Repr

end Sys2Proof
end

