-- ==== Sys2Proof/Machine/Generic.lean ====
section
/-! DEFINITION. The meanings of PLAIN (R202) and EXT (R203): the RUNNING state's work of one machine cycle (log entry 1). -/

namespace Sys2Proof.Machine

/-- PLAIN (R202): the walk over the loaded micro-operations, which see the instruction's operand bytes in the buffer. The
first byte has done its work when `ops` was loaded (R167). -/
def execPlain (_op1 : Byte) (operands : List Byte) (s : State) : Host.Outcome State Fault Refusal :=
  .next (runGeneric (OperandBuf.load s.operand operands) s)

/-- EXT (R203): as PLAIN, after a two-byte decode; a second byte `0x10` or `0x76` is nothing special (R109). -/
def execExt (_op2 : Byte) (operands : List Byte) (s : State) : Host.Outcome State Fault Refusal :=
  .next (runGeneric (OperandBuf.load s.operand operands) s)

end Sys2Proof.Machine
end

