-- ==== Sys2Proof/Machine/Illegal.lean ====
section
/-! DEFINITION. The meanings of ILLEGAL (R160), ILLEGAL_EXT and ILLEGAL_STOP (R163): the absorbing fault, raised in the cycle
that fetched the byte (R170, R301). -/

namespace Sys2Proof.Machine

/-- ILLEGAL: `raise Fault(DecodeFailure(b))` (R160). -/
def execIllegal (op1 : Byte) (s : State) : Host.Outcome State Fault Refusal :=
  .next (raiseFault (.decodeFailure op1) s)

/-- ILLEGAL_EXT: `raise Fault(ExtDecodeFailure(0xCB, b))` (R163). -/
def execIllegalExt (op2 : Byte) (s : State) : Host.Outcome State Fault Refusal :=
  .next (raiseFault (.extDecodeFailure Config.extByte op2) s)

/-- ILLEGAL_STOP: `raise Fault(ExtDecodeFailure(0x10, b))` (R163). -/
def execIllegalStop (op2 : Byte) (s : State) : Host.Outcome State Fault Refusal :=
  .next (raiseFault (.extDecodeFailure Config.stopByte op2) s)

end Sys2Proof.Machine
end

