-- ==== Sys2Proof/Machine/StopHalt.lean ====
section
/-! DEFINITION. The meanings of STOP (R230, R231) and HALT (R234, R235): the intercepts of the RUNNING state. Neither runs its
descriptor's micro-operations, and neither retires (R239). -/

namespace Sys2Proof.Machine

/-- `stopIntercept()` (R231). -/
def stopIntercept (s : State) : State :=
  if s.speed.armed then { s with speed := SpeedMode.onStop s.speed, state := .opcode }
  else
    { s with
      speed := SpeedMode.onStop s.speed, state := .stopped,
      video := { s.video with displayEnabled := false } }

/-- `haltIntercept()` (R235). -/
def haltIntercept (s : State) : State :=
  if IntCtrl.haltBugCondition s.ic then { s with state := .opcode, haltBug := true }
  else { s with state := .halted }

/-- STOP (R230). The second byte and the operand bytes are fetched and not interpreted. -/
def execStop (_op2 : Byte) (_operands : List Byte) (s : State) : Host.Outcome State Fault Refusal :=
  .next (stopIntercept s)

/-- HALT (R234). The operand bytes are fetched and not interpreted. -/
def execHalt (_operands : List Byte) (s : State) : Host.Outcome State Fault Refusal :=
  .next (haltIntercept s)

end Sys2Proof.Machine
end

