-- ==== Sys2Proof/Machine/Dispatch.lean ====
section
/-! DEFINITION. The meaning of each instruction, one arm per constructor. -/

namespace Sys2Proof.Machine

/-- What an instruction in flight does in a machine cycle once its decode is over (R191), or, for an illegal one, in the cycle
that fetched the byte (R160, R163). -/
def exec (i : Instr) (s : State) : Host.Outcome State Fault Refusal :=
  match i with
  | .halt operands => Sys2Proof.Machine.execHalt operands s
  | .stop op2 operands => Sys2Proof.Machine.execStop op2 operands s
  | .ext op2 operands => Sys2Proof.Machine.execExt op2 operands s
  | .plain op1 operands => Sys2Proof.Machine.execPlain op1 operands s
  | .illegal op1 => Sys2Proof.Machine.execIllegal op1 s
  | .illegalExt op2 => Sys2Proof.Machine.execIllegalExt op2 s
  | .illegalStop op2 => Sys2Proof.Machine.execIllegalStop op2 s

end Sys2Proof.Machine
end

