-- ==== Sys2Proof/WellFormed.lean ====
section
/-! DEFINITION. Which instructions a registry admits: the `requires` and `operands` conditions of
spec/opcode_table.json (R100, R105, R108, R112). -/

namespace Sys2Proof

/-- `operands` are the operand bytes of the descriptor found, of which there are at most two (R105). -/
def operandsFit (d : Option Descriptor) (operands : List Byte) : Bool :=
  match d with
  | none   => false
  | some d => decide (d.length ≤ Config.operandSlots) && decide (operands.length = d.length)

/-- The byte is a first byte that needs a second opcode byte (R100). -/
def needsSecond (b : Byte) : Bool := decide (b = Config.extByte) || decide (b = Config.stopByte)

/-- The instruction is one the registry `r` admits, in the class its row names. -/
def Instr.wellFormed (r : Registry) : Instr → Bool
  | .halt os        => operandsFit (r.lookup Config.haltByte) os
  | .stop b os      => operandsFit (r.lookupExtended b) os
  | .ext b os       => operandsFit (r.lookupExtended b) os
  | .plain b os     => !needsSecond b && !decide (b = Config.haltByte) && operandsFit (r.lookup b) os
  | .illegal b      => !needsSecond b && (r.lookup b).isNone
  | .illegalExt b   => (r.lookupExtended b).isNone
  | .illegalStop b  => (r.lookupExtended b).isNone

end Sys2Proof
end

