-- ==== Sys2Proof/Decode.lean ====
section
/-! DEFINITION. Decoding bytes to an instruction (R108), and the encoder (R100, R101). -/

namespace Sys2Proof

/-- Why a list of bytes is no instruction. -/
inductive DecodeError where
  /-- the bytes end before the instruction does -/
  | truncated
  /-- the descriptor declares more operand bytes than the buffer has slots (R105, R166) -/
  | operandLengthExceeded
  deriving DecidableEq, Repr

/-- What the first opcode byte decides (R108). -/
inductive FirstByte where
  /-- `0xCB` or `0x10`: a second opcode byte follows -/
  | second
  /-- the registry has no descriptor -/
  | illegal
  | resolved (d : Descriptor)
  deriving DecidableEq, Repr

/-- Decode of the first byte, in the order of R108. -/
def decodeFirst (r : Registry) (b : Byte) : FirstByte :=
  if needsSecond b then .second
  else
    match r.lookup b with
    | none   => .illegal
    | some d => .resolved d

/-- The operand bytes of descriptor `d` at the head of `bs`, and what follows them (R100, R105). -/
def takeOperands (d : Descriptor) (bs : List Byte) : Except DecodeError (List Byte × List Byte) :=
  if d.length > Config.operandSlots then .error .operandLengthExceeded
  else if bs.length < d.length then .error .truncated
  else .ok (bs.take d.length, bs.drop d.length)

/-- Decode of the bytes after a first byte `b` that needs a second one (R108). -/
def decodeSecond (r : Registry) (b : Byte) : List Byte → Except DecodeError (Instr × List Byte)
  | [] => .error .truncated
  | c :: cs =>
    match r.lookupExtended c with
    | none => .ok (if b = Config.stopByte then .illegalStop c else .illegalExt c, cs)
    | some d =>
      match takeOperands d cs with
      | .error e => .error e
      | .ok (os, rest) => .ok (if b = Config.stopByte then .stop c os else .ext c os, rest)

/-- The instruction at the head of the bytes, and the bytes after it (R100, R108). -/
def decode (r : Registry) : List Byte → Except DecodeError (Instr × List Byte)
  | [] => .error .truncated
  | b :: bs =>
    match decodeFirst r b with
    | .second => decodeSecond r b bs
    | .illegal => .ok (.illegal b, bs)
    | .resolved d =>
      match takeOperands d bs with
      | .error e => .error e
      | .ok (os, rest) => .ok (if b = Config.haltByte then .halt os else .plain b os, rest)

/-- The bytes of an instruction, at increasing addresses (R100, R101). -/
def encode : Instr → List Byte
  | .halt os       => Config.haltByte :: os
  | .stop b os     => Config.stopByte :: b :: os
  | .ext b os      => Config.extByte :: b :: os
  | .plain b os    => b :: os
  | .illegal b     => [b]
  | .illegalExt b  => [Config.extByte, b]
  | .illegalStop b => [Config.stopByte, b]

/-- The `n` low bytes of `w`, the most significant first: a two-byte pattern of the opcode table has byte 0 in
bits 15 to 8 and byte 1 in bits 7 to 0 (R115; log entry 24). -/
def tableBytes : Nat → Nat → List Byte
  | 0, _ => []
  | n + 1, w => BitVec.ofNat 8 (w / 2 ^ (8 * n)) :: tableBytes n w

/-- The bytes of a table word, with operand bytes of zeros after them, up to the longest instruction. -/
def tableWordBytes (nbits w : Nat) : List Byte :=
  tableBytes (nbits / 8) w ++ List.replicate (4 - nbits / 8) 0

/-- The instruction the decoder reads from a word of the opcode table, with the registry of `State.reset`. -/
def decodeTableWord (nbits w : Nat) : Option Instr :=
  match decode Params.standard.registry (tableWordBytes nbits w) with
  | .error _ => none
  | .ok (i, _) => some i

end Sys2Proof
end

