-- ==== Sys2Proof/Machine/Tick.lean ====
section
/-! DEFINITION. The tick (40_tick.md) up to the RUNNING state, with the fetch and decode states (41_fetch_decode.md); the
host's inputs (R322); and the preparation of a state whose next tick fetches and runs a given instruction. -/

namespace Sys2Proof.Machine

/-- How far a step gets by itself: it is over, or the instruction in flight does its work of this machine cycle in the given
state (`run`). -/
inductive Progress where
  | done (s : State)
  | run (i : Instr) (s : State)
  deriving DecidableEq, Repr

/-! ## Fetch and decode -/

/-- The instruction in flight, from the opcode bytes and the operand bytes fetched (R100, R191: the intercepts test `op1`). -/
def inFlight (s : State) : Instr :=
  if s.op1 = Config.stopByte then .stop s.op2 (OperandBuf.firstBytes s.operand s.operandIdx)
  else if s.op1 = Config.haltByte then .halt (OperandBuf.firstBytes s.operand s.operandIdx)
  else if s.op1 = Config.extByte then .ext s.op2 (OperandBuf.firstBytes s.operand s.operandIdx)
  else .plain s.op1 (OperandBuf.firstBytes s.operand s.operandIdx)

/-- The RUNNING arm: the instruction in flight runs (R191). -/
def runInFlight (s : State) : Progress := .run (inFlight s) s

/-- Completion of decode (R167). -/
def loadOps (d : Descriptor) (s : State) : State := { s with ops := d.ops, state := .running }

/-- One operand byte (R165). -/
def fetchOperand (s : State) : State :=
  incPC { afterRead s s.regs.pc with
    operand := OperandBuf.put s.operand s.operandIdx (readByte s s.regs.pc),
    busUsed := true, operandIdx := s.operandIdx + 1 }

/-- The `while` loop of `operandFetch()` (R165). One byte at most is fetched in a cycle, since the fetch sets `busUsed`. -/
def collectOperands (d : Descriptor) (s : State) : Progress :=
  if s.operandIdx < d.length then
    if s.busUsed then .done (endTick s)
    else if s.operandIdx + 1 < d.length then .done (endTick (fetchOperand s))
    else runInFlight (loadOps d (fetchOperand s))
  else runInFlight (loadOps d s)

/-- `operandFetch()` (R165, R166). -/
def operandFetch (s : State) : Progress :=
  match s.desc with
  | none => .done (endTick (raiseFault .noDescriptorAtOperand s))
  | some d =>
    if d.length > Config.operandSlots then .done (endTick (raiseFault .operandLengthExceeded s))
    else collectOperands d s

/-- The second opcode byte latched (R163). -/
def latchOp2 (s : State) : State :=
  { afterRead s s.regs.pc with op2 := readByte s s.regs.pc, busUsed := true }

/-- A second opcode byte with no descriptor (R163). -/
def unresolvedSecond (s : State) : Progress :=
  if s.op1 = Config.extByte then .run (.illegalExt s.op2) s
  else if s.op1 = Config.stopByte then .run (.illegalStop s.op2) s
  else .done (endTick (raiseFault (.extDecodeFailure s.op1 s.op2) s))

/-- `extFetch()` (R163, R164). -/
def extFetch (s : State) : Progress :=
  if s.busUsed then .done (endTick s)
  else
    match s.params.registry.lookupExtended (readByte s s.regs.pc) with
    | none => unresolvedSecond (latchOp2 s)
    | some d => operandFetch (incPC { latchOp2 s with desc := some d, state := .operand })

/-- The first opcode byte latched, after the per-instruction clear (R160, R162). -/
def latchOp1 (s : State) : State :=
  { afterRead (clearTransient s) s.regs.pc with op1 := readByte (clearTransient s) s.regs.pc, busUsed := true }

/-- `advanceOpcodePC()` (R161). -/
def advanceOpcodePC (s : State) : State := if s.haltBug then { s with haltBug := false } else incPC s

/-- `opcodeFetch()` (R160). -/
def opcodeFetch (s : State) : Progress :=
  match decodeFirst s.params.registry (readByte (clearTransient s) s.regs.pc) with
  | .second => extFetch (advanceOpcodePC { latchOp1 s with state := .extOpcode })
  | .illegal => .run (.illegal (latchOp1 s).op1) (latchOp1 s)
  | .resolved d => operandFetch (advanceOpcodePC { latchOp1 s with desc := some d, state := .operand })

/-! ## The tick -/

/-- The bus-arbitration loop up to RUNNING (R136, R137). An arm only ever goes on to a later one of OPCODE, EXT_OPCODE,
OPERAND and RUNNING (R138), so the loop is the arms calling one another. -/
def arbitrate (s : State) : Progress :=
  match s.state with
  | .opcode    => opcodeFetch s
  | .extOpcode => extFetch s
  | .operand   => operandFetch s
  | .running   => runInFlight s
  | .irqReadIF | .irqReadIE | .irqPush1 | .irqPush2 | .irqJump | .stopped | .halted =>
    .done (endTick (raiseFault .protocolViolation s))

/-- A machine cycle after preemption: dispatch (R134), the HALTED wake and the quiescent return (R135), the loop (R136). -/
def cycleBody (s : State) : Progress :=
  if SeqState.isDispatch s.state then .done (endTick (dispatchCycle s))
  else if (haltWake s).state = .halted ∨ (haltWake s).state = .stopped then .done (endTick (haltWake s))
  else arbitrate { haltWake s with busUsed := false }

/-- `tick()` (R130) up to RUNNING: fault absorption (R131), the divider (R132), preemption (R133), the cycle. -/
def tickBody (s : State) : Progress :=
  if s.fault.isSome then .done s
  else if s.subCycle + 1 < ticksPerCycle s then .done { s with subCycle := s.subCycle + 1 }
  else cycleBody (preempt (beginCycle s))

/-- A host input between ticks (R322). -/
def hostInput (e : HostInput) (s : State) : State :=
  match e with
  | .tick => s
  | .pause => s
  | .busWrite a v => { s with bus := busWrite s a v }
  | .deviceChange dev => { s with bus := { s.bus with dev := dev } }
  | .raiseIrq src => { s with ic := IntCtrl.raisePending s.ic src }
  | .writeIF v => { s with ic := IntCtrl.writeIF s.ic v }
  | .writeIE v => { s with ic := IntCtrl.writeIE s.ic v }
  | .armSwitch => { s with speed := SpeedMode.armSwitch s.speed }
  | .videoChange on tick search =>
    { s with video := { s.video with displayEnabled := on, lineTick := tick, searchPhase := search } }
  | .reset => resetFields s

/-- One step of the machine up to RUNNING: the next input the host has to make, which is a tick when it has none (R65, R322;
log entry 2). -/
def advance (s : State) : Progress :=
  match s.inputs with
  | [] => tickBody s
  | .tick :: rest => tickBody { s with inputs := rest }
  | e :: rest => .done (hostInput e { s with inputs := rest })

/-- The end of the tick after an instruction's work in RUNNING (R69). -/
def finishTick (o : Host.Outcome State Fault Refusal) : Host.Outcome State Fault Refusal :=
  match o with
  | .next t => .next (endTick t)
  | .fault r => .fault r
  | .refused r => .refused r

/-! ## A state whose next tick fetches and runs a given instruction -/

/-- Bytes stored from address `a` on, modulo 2^16. -/
def storeBytes (a : Word) : List Byte → Memory → Memory
  | [], m => m
  | b :: bs, m => storeBytes (a + 1) bs (Memory.write a.toNat b m)

/-- The bytes lie from `pc` on, and the next tick begins a machine cycle in the OPCODE state with no preemption. -/
def atOpcode (bytes : List Byte) (s : State) : State :=
  { clearTransient s with
    inputs := [], fault := none, haltBug := false, state := .opcode, busUsed := false,
    subCycle := ticksPerCycle s - 1,
    ic := { s.ic with ime := s.ic.ime && !IntCtrl.requested s.ic },
    bus := { s.bus with mem := storeBytes s.regs.pc bytes s.bus.mem } }

/-- As `atOpcode`, with the state the sequencer has before the cycle that fetches the last operand byte of `d`: the bytes
before it are fetched, `n` opcode bytes among them. -/
def beforeLastOperand (n : Nat) (d : Descriptor) (bytes : List Byte) (s : State) : State :=
  { s with
    state := .operand, desc := some d,
    operand := OperandBuf.load OperandBuf.clear ((bytes.drop n).take (d.length - 1)),
    operandIdx := d.length - 1,
    regs := { s.regs with pc := s.regs.pc + BitVec.ofNat 16 (n + (d.length - 1)) } }

/-- The state in which the very next tick fetches the last byte of the instruction `bytes` begins with, and runs it: the
sequencer has fetched the bytes before that one (log entry 25). -/
def prepareFetch (bytes : List Byte) (s : State) : State :=
  let t := atOpcode bytes s
  match bytes with
  | [] => t
  | b :: bs =>
    match decodeFirst s.params.registry b with
    | .illegal => t
    | .resolved d =>
      if d.length = 0 ∨ d.length > Config.operandSlots then t
      else { beforeLastOperand 1 d bytes t with op1 := b, ic := s.ic }
    | .second =>
      match bs with
      | [] => t
      | c :: _ =>
        let u : State :=
          { t with op1 := b, state := .extOpcode, ic := s.ic, regs := { t.regs with pc := t.regs.pc + 1 } }
        match s.params.registry.lookupExtended c with
        | none => u
        | some d =>
          if d.length = 0 ∨ d.length > Config.operandSlots then u
          else { beforeLastOperand 2 d bytes t with op1 := b, op2 := c, ic := s.ic }

end Sys2Proof.Machine
end

