-- ==== Sys2Proof/Machine/Step.lean ====
section
/-! DEFINITION. One step: one host input or one tick (R65, R322). -/

namespace Sys2Proof.Machine

/-- One step of the machine: the host's next input, or a tick (R130); the instruction in flight, if the tick reaches it, runs
by `exec`. -/
def step (s : State) : Host.Outcome State Fault Refusal :=
  match advance s with
  | .done t => .next t
  | .run i t => finishTick (exec i t)

/-- The state with the instruction of a table word at the program counter, such that the next step fetches its last byte and
runs it (log entry 25). -/
def State.withFetchWord (s : State) (nbits w : Nat) : State := prepareFetch (tableWordBytes nbits w) s

end Sys2Proof.Machine
end

