-- ==== Sys2Proof/Safety.lean ====
section
/-! DEFINITION. What counts as a safe run, the invariant of the machine, and the terms the statements use. -/

namespace Sys2Proof.Machine

/-- A good state: no fault is recorded. "A model must never treat a faulted state as a good final state" (R301). -/
def State.faultFree (s : State) : Prop := s.fault = none

/-- `n` steps of the machine. -/
def runSteps (n : Nat) (s : State) : Host.Outcome State Fault Refusal := Host.Core.run Sys2Proof.core n s

/-- The next step is a tick that begins a machine cycle (R132): no input is waiting, no fault is recorded, and the counter
is about to reach the threshold. -/
def State.cycleReady (s : State) : Prop :=
  s.inputs = [] ∧ s.fault = none ∧ ticksPerCycle s ≤ s.subCycle + 1

/-- A machine cycle has just ended: no input is waiting, no fault is recorded, and the counter is 0. -/
def State.cycleEnded (s : State) : Prop := s.inputs = [] ∧ s.fault = none ∧ s.subCycle = 0

/-- For the block's own accesses the bus is the reference bus (R81): it maps no device and no control register. -/
def State.plainBus (s : State) : Prop :=
  s.params.flagAddr = none ∧ s.params.enableAddr = none ∧ s.params.speedAddr = none ∧ s.params.windows = []

/-- The address the sequencer fetches byte `k` of the next instruction from, modulo 2^16: the program counter and `k`, or one less
after the first byte when the halt bug makes it be fetched twice (R161, R237). -/
def State.fetchAddress (s : State) (k : Nat) : Word :=
  s.regs.pc + BitVec.ofNat 16 (if s.haltBug then k - 1 else k)

/-- The first `n` bytes of the flat array that the sequencer fetches from here on. -/
def State.fetchedBytes (s : State) (n : Nat) : List Byte :=
  (List.range n).map (fun k => Memory.read (s.fetchAddress k).toNat s.bus.mem)

/-- The first `n` bytes fetched stand in the flat array: the bus maps no device and no control register at their addresses. -/
def State.fetchesFromArray (s : State) (n : Nat) : Prop :=
  ∀ k, k < n → mapsControl s.params (s.fetchAddress k) = false ∧ mapsDevice s.params (s.fetchAddress k) = false

/-- The descriptor the sequencer resolves for the opcode bytes (R108). -/
def resolvedDescriptor (r : Registry) (op1 op2 : Byte) : Option Descriptor :=
  if needsSecond op1 then r.lookupExtended op2 else r.lookup op1

/-- The opcode bytes of an instruction; `op2` is clear in format P (R32, R101). -/
def opcodeBytes : Instr → Byte × Byte
  | .halt _        => (Config.haltByte, 0x00)
  | .stop b _      => (Config.stopByte, b)
  | .ext b _       => (Config.extByte, b)
  | .plain b _     => (b, 0x00)
  | .illegal b     => (b, 0x00)
  | .illegalExt b  => (Config.extByte, b)
  | .illegalStop b => (Config.stopByte, b)

/-- The operand bytes of an instruction. -/
def operandBytes : Instr → List Byte
  | .halt os        => os
  | .stop _ os      => os
  | .ext _ os       => os
  | .plain _ os     => os
  | .illegal _      => []
  | .illegalExt _   => []
  | .illegalStop _  => []

/-- The instruction has a descriptor. -/
def isLegal : Instr → Bool
  | .halt _ | .stop _ _ | .ext _ _ | .plain _ _ => true
  | .illegal _ | .illegalExt _ | .illegalStop _ => false

/-- The operand bytes of an instruction whose micro-operations run: PLAIN or EXT (R202, R203). -/
def genericOperands : Instr → Option (List Byte)
  | .plain _ os => some os
  | .ext _ os   => some os
  | .halt _ | .stop _ _ | .illegal _ | .illegalExt _ | .illegalStop _ => none

/-- The machine cycles of a sequence of micro-operations, each given by (acc, force), when `c` cycles have begun and `b` says
whether the bus is used in the last of them: the count of R352. -/
def cycleCount (c : Nat) (b : Bool) : List (Bool × Bool) → Nat
  | [] => c
  | (acc, force) :: ms =>
    if force then cycleCount ((if acc && b then c + 1 else c) + 1) false ms
    else cycleCount (if acc && b then c + 1 else c) (acc || b) ms

/-- What follows `execute` of micro-operation `m`, from the state its bus call leaves: the registers and the context it computes, its
toggles applied, and the index advanced, or at the end when `shouldProceed` is false (R191, R195 to R197). -/
def State.afterOp (s : State) (m : MicroOp) (regs : RegFile) (ctx : Ctx) : State :=
  { s with
    regs := regs, ctx := ctx, ic := IntCtrl.calls s.ic (MicroOp.toggles m s.ic),
    execIdx := if MicroOp.shouldProceed m regs then s.execIdx + 1 else s.ops.length }

/-- A micro-operation that keeps its bus contract: it makes no bus call, or one, of a kind it declares (R195). -/
def keepsContract (m : MicroOp) : Prop :=
  ∀ (regs : RegFile) (buf : OperandBuf) (ctx : Ctx),
    match MicroOp.start m regs buf ctx with
    | .finish _ _ => True
    | .read _ => MicroOp.readsMemory m = true ∧ ∀ got, ∃ r c, MicroOp.resume m regs buf ctx got = .finish r c
    | .write _ v => MicroOp.writesMemory m = true ∧ ∃ r c, MicroOp.resume m regs buf ctx v = .finish r c

/-- The state a micro-operation runs from while the display is enabled: a corruption it is eligible for is injected inside the
window (R193). -/
def injectDue (m : MicroOp) (s : State) : State :=
  match MicroOp.corruption m s.regs s.ctx with
  | none => s
  | some k => if inCorruptionWindow s then injectCorruption k s else s

/-- The micro-operations that run of a sequence, one after the other: all of them, or those up to the first whose `shouldProceed`
is false on the registers it leaves (R197, R352). -/
def opsRun (buf : OperandBuf) : List MicroOp → State → List MicroOp
  | [], _ => []
  | m :: ms, s =>
    match performOp buf m (injectDue m s) with
    | .raised _ => [m]
    | .ran t => if MicroOp.shouldProceed m t.regs then m :: opsRun buf ms t else [m]

/-- A micro-operation that runs inside one cycle without the bus: it declares no access and no forced end, has no corruption
check, and its `execute` ends without a bus call. -/
def registerOp (m : MicroOp) : Prop :=
  MicroOp.accesses m = false ∧ MicroOp.forcesCycleEnd m = false ∧
  ∀ (regs : RegFile) (buf : OperandBuf) (ctx : Ctx),
    MicroOp.corruption m regs ctx = none ∧ ∃ r c, MicroOp.start m regs buf ctx = .finish r c

/-- The state in which RUNNING begins for an instruction with descriptor `d` whose bytes were fetched from the program counter
of `s` (R160 to R169): the opcode and operand bytes latched, the sequence loaded, the halt-bug flag consumed, the program counter
past the bytes fetched, and the last byte's read made in this machine cycle. -/
def State.decoded (s : State) (i : Instr) (d : Descriptor) : State :=
  { s with
    subCycle := 0, state := .running,
    op1 := (opcodeBytes i).1, op2 := (opcodeBytes i).2,
    operand := OperandBuf.load OperandBuf.clear (operandBytes i), operandIdx := (operandBytes i).length,
    desc := some d, ops := d.ops, execIdx := 0, ctx := s.params.ctx0,
    haltBug := false, ifSnap := 0x00, ieSnap := 0x00,
    regs := { s.regs with pc := s.fetchAddress (encode i).length },
    busUsed := true,
    busTrace := [.read (s.fetchAddress ((encode i).length - 1)) ((encode i).getLastD 0x00)] }

/-- The operand slots past the bytes fetched are clear (R33, R107). -/
def OperandBuf.clearFrom (b : OperandBuf) (n : Nat) : Prop :=
  (n = 0 → b.slot0 = 0x00) ∧ (n ≤ 1 → b.slot1 = 0x00)

/-- The invariant of the machine: what every step keeps. -/
structure State.Inv (s : State) : Prop where
  /-- the memory keeps its canonical form -/
  memWf : Memory.wf s.bus.mem = true
  /-- between ticks the counter is below the threshold (R30) -/
  divider : s.subCycle < ticksPerCycle s
  /-- `busUsed` is local to a tick (R69) -/
  busFlag : s.busUsed = false
  /-- at most one bus access in a machine cycle (R85) -/
  oneAccess : s.busTrace.length ≤ 1
  /-- the execution index never exceeds the sequence (R68) -/
  execBound : s.execIdx ≤ s.ops.length
  /-- the operand buffer never holds more bytes than the descriptor declares (R67) -/
  operandBound : ∀ d, s.desc = some d → s.operandIdx ≤ d.length
  /-- EXT_OPCODE is entered only after `0xCB` or `0x10`, with nothing else decoded (R160, R162) -/
  extEntry : s.state = .extOpcode →
    needsSecond s.op1 = true ∧ s.operandIdx = 0 ∧ s.execIdx = 0 ∧ OperandBuf.clearFrom s.operand 0
  /-- in OPERAND and RUNNING a descriptor is resolved, and it is the registry's for the opcode bytes (R34, R108, R166) -/
  resolved : s.state = .operand ∨ s.state = .running →
    s.desc ≠ none ∧ s.desc = resolvedDescriptor s.params.registry s.op1 s.op2
  /-- in OPERAND and RUNNING the slots not fetched are clear (R107) -/
  unfetched : s.state = .operand ∨ s.state = .running → OperandBuf.clearFrom s.operand s.operandIdx
  /-- in OPERAND no micro-operation has run (R162) -/
  operandEntry : s.state = .operand → s.execIdx = 0
  /-- in RUNNING the operand bytes are all fetched and the sequence is the descriptor's (R167) -/
  loaded : s.state = .running →
    ∀ d, s.desc = some d → d.length ≤ Config.operandSlots ∧ s.operandIdx = d.length ∧ s.ops = d.ops
  /-- a set halt-bug flag meets an OPCODE cycle with the master enable off (R268) -/
  haltBugMasked : s.haltBug = true → s.state = .opcode ∧ s.ic.ime = false
  /-- past the selection of a dispatch a source is in both snapshots, interrupts are masked, and no enable is deferred
  (R262) -/
  dispatchSelected : s.state = .irqPush1 ∨ s.state = .irqPush2 ∨ s.state = .irqJump →
    bothMasks s.ifSnap s.ieSnap ≠ 0 ∧ s.ic.ime = false ∧ s.ic.enableDelay = none

end Sys2Proof.Machine
end

