-- ==== Sys2Proof/Certificates/Slice0/Obligations.lean ====
section
/-! DEFINITION. The statements about the machine: each formalises a rule of the spec, or follows from the rules it cites. -/

open Sys2Proof Sys2Proof.Machine

/-! ## Reset -/

/-- R340: reset as a host input sets the fields of the rule's table at once, and changes nothing else. -/
def Obligations.ResetInputSetsItsTable : Prop :=
  ∀ (s : State) (rest : List HostInput), s.inputs = .reset :: rest →
    step s = .next { s with
      subCycle := 0, state := .opcode, op1 := 0x00, op2 := 0x00,
      operand := { slot0 := 0x00, slot1 := 0x00 }, operandIdx := 0, desc := none, ops := [], execIdx := 0,
      ctx := s.params.ctx0, haltBug := false, ifSnap := 0x00, ieSnap := 0x00, fault := none,
      speed := { double := false, armed := false },
      ic := { ime := false, ie := 0x00, ifl := s.params.ifReset, enableDelay := none },
      regs := { s.regs with pc := s.params.pcReset, sp := s.params.spReset },
      inputs := rest }

/-- R340, for the state a run starts in. The values of the open parameters, of the general registers, of memory and of the
video state are the model's own (log entries 8 to 12), and nothing here rests on them. -/
def Obligations.ResetStateHasTheTableValues : Prop :=
  let s := State.reset
  s.subCycle = 0 ∧ s.state = .opcode ∧ s.op1 = 0x00 ∧ s.op2 = 0x00 ∧ s.operand = { slot0 := 0x00, slot1 := 0x00 } ∧
  s.operandIdx = 0 ∧ s.desc = none ∧ s.ops = [] ∧ s.execIdx = 0 ∧ s.ctx = s.params.ctx0 ∧ s.haltBug = false ∧
  s.ifSnap = 0x00 ∧ s.ieSnap = 0x00 ∧ s.fault = none ∧ s.speed = { double := false, armed := false } ∧
  s.ic = { ime := false, ie := 0x00, ifl := s.params.ifReset, enableDelay := none } ∧
  s.regs.pc = s.params.pcReset ∧ s.regs.sp = s.params.spReset

/-! ## The tick -/

/-- R66, R301: no port has a failure return, and a fault is a state: every step answers a next state (log entry 19). -/
def Obligations.StepAlwaysAnswersNext : Prop := ∀ s : State, ∃ t, step s = .next t

/-- R131: on a faulted state every later tick changes nothing, however many there are. -/
def Obligations.FaultAbsorbsEveryTick : Prop :=
  ∀ (s : State) (r : Fault) (n : Nat), s.inputs = [] → s.fault = some r → runSteps n s = .next s

/-- R132: below the threshold a tick adds 1 to the counter and changes nothing else; at the threshold the counter goes back
to 0 and a machine cycle runs. The threshold is 4, or 2 at double speed. -/
def Obligations.DividerCountsToTheThreshold : Prop :=
  ∀ s : State, s.inputs = [] → s.fault = none →
    (s.subCycle + 1 < (if s.speed.double then 2 else 4) → step s = .next { s with subCycle := s.subCycle + 1 }) ∧
    ((if s.speed.double then 2 else 4) ≤ s.subCycle + 1 → ∃ t, step s = .next t ∧ t.subCycle = 0)

/-- R142, from R132: after a machine cycle the ticks before the next one only count; they make no bus access. -/
def Obligations.TicksBetweenCyclesOnlyCount : Prop :=
  ∀ (s : State) (k : Nat), s.cycleEnded → k < ticksPerCycle s → runSteps k s = .next { s with subCycle := k }

/-- R350: a host input made before a tick that only counts, or after it, leaves the same state. -/
def Obligations.HostInputCommutesWithACountingTick : Prop :=
  ∀ (s : State) (e : HostInput), e ≠ .tick → e ≠ .reset → s.fault = none → s.subCycle + 1 < ticksPerCycle s →
    runSteps 2 { s with inputs := [e, .tick] } = runSteps 2 { s with inputs := [.tick, e] }

/-- The parameters are the same after every step. R12 says it of the registry; that the other parameters and the bus map stand in
the state as data no step changes is the model's choice (log entries 3, 15, 16 and 23). -/
def Obligations.ParametersNeverChange : Prop := ∀ s t : State, step s = .next t → t.params = s.params

/-- R322: a host input other than a tick and reset changes no field of the sequencer, neither `ime` nor `enableDelay`, nor
the speed, nor a register. -/
def Obligations.HostInputsLeaveTheSequencer : Prop :=
  ∀ (s t : State) (e : HostInput) (rest : List HostInput), s.inputs = e :: rest → e ≠ .tick → e ≠ .reset →
    step s = .next t →
    t.ic.ime = s.ic.ime ∧ t.ic.enableDelay = s.ic.enableDelay ∧ t.state = s.state ∧ t.haltBug = s.haltBug ∧
    t.fault = s.fault ∧ t.subCycle = s.subCycle ∧ t.speed.double = s.speed.double ∧ t.op1 = s.op1 ∧ t.op2 = s.op2 ∧
    t.operand = s.operand ∧ t.operandIdx = s.operandIdx ∧ t.desc = s.desc ∧ t.ops = s.ops ∧ t.execIdx = s.execIdx ∧
    t.ctx = s.ctx ∧ t.ifSnap = s.ifSnap ∧ t.ieSnap = s.ieSnap ∧ t.regs = s.regs ∧ t.inputs = rest

/-- R42, R52, R322: what each input sets: the interrupt controller's masks, the armed switch, a byte of the bus, the device state,
the video state; a pause sets nothing; a tick is the step of the same state with no input waiting, and leaves the inputs after it. That a bus write of the host reaches no control register, and that a change of device state
is an input of its own, are the model's (log entries 17 and 28). -/
def Obligations.HostInputsSetTheirRegisters : Prop :=
  ∀ (s : State) (rest : List HostInput),
    (∀ src, s.inputs = .raiseIrq src :: rest →
      step s = .next { s with ic := { s.ic with ifl := s.ic.ifl ||| ((1 : Byte) <<< IrqSource.index src) }, inputs := rest }) ∧
    (∀ v, s.inputs = .writeIF v :: rest → step s = .next { s with ic := { s.ic with ifl := v }, inputs := rest }) ∧
    (∀ v, s.inputs = .writeIE v :: rest → step s = .next { s with ic := { s.ic with ie := v }, inputs := rest }) ∧
    (s.inputs = .armSwitch :: rest → step s = .next { s with speed := { s.speed with armed := true }, inputs := rest }) ∧
    (∀ a v, s.inputs = .busWrite a v :: rest → step s = .next { s with bus := busWrite s a v, inputs := rest }) ∧
    (∀ dev, s.inputs = .deviceChange dev :: rest →
      step s = .next { s with bus := { s.bus with dev := dev }, inputs := rest }) ∧
    (∀ on tick search, s.inputs = .videoChange on tick search :: rest →
      step s = .next { s with
        video := { displayEnabled := on, lineTick := tick, searchPhase := search, injected := s.video.injected },
        inputs := rest }) ∧
    (s.inputs = .pause :: rest → step s = .next { s with inputs := rest }) ∧
    (s.inputs = .tick :: rest → ∀ t, step { s with inputs := [] } = .next t → step s = .next { t with inputs := rest })

/-! ## Interrupts -/

/-- R133 with R261: a machine cycle that begins in OPCODE, HALTED or STOPPED with `ime` and a request does the `IRQ_READ_IF`
work; from STOPPED it enables the display. -/
def Obligations.PreemptionLatchesTheFlags : Prop :=
  ∀ s : State, s.cycleReady → (s.state = .opcode ∨ s.state = .halted ∨ s.state = .stopped) → s.ic.ime = true →
    s.ic.ifl &&& s.ic.ie &&& 0x1F ≠ 0 →
    step s = .next { s with
      subCycle := 0, ifSnap := s.ic.ifl, state := .irqReadIE, busUsed := false, busTrace := [],
      video := if s.state = .stopped then { s.video with displayEnabled := true } else s.video }

/-- R311: a step enters dispatch only from a dispatch state, or from OPCODE, HALTED or STOPPED with `ime` and a request: never
inside an instruction. -/
def Obligations.DispatchBeginsOnlyBetweenInstructions : Prop :=
  ∀ s t : State, step s = .next t → SeqState.isDispatch t.state = true →
    SeqState.isDispatch s.state = true ∨
    ((s.state = .opcode ∨ s.state = .halted ∨ s.state = .stopped) ∧ s.ic.ime = true ∧
      s.ic.ifl &&& s.ic.ie &&& 0x1F ≠ 0)

/-- R262: `IRQ_READ_IE` takes the lowest source in both masks: it clears that source's pending bit, and sets `ime` false and
drops a deferred enable. -/
def Obligations.ReadIESelectsTheLowestSource : Prop :=
  ∀ s : State, s.cycleReady → s.state = .irqReadIE → s.ifSnap &&& s.ic.ie &&& 0x1F ≠ 0 →
    ∃ src : IrqSource,
      (s.ifSnap &&& s.ic.ie).getLsbD (IrqSource.index src) = true ∧
      (∀ j, j < IrqSource.index src → (s.ifSnap &&& s.ic.ie).getLsbD j = false) ∧
      step s = .next { s with
        subCycle := 0, ieSnap := s.ic.ie, state := .irqPush1, busUsed := false, busTrace := [],
        ic := { s.ic with ime := false, ifl := s.ic.ifl &&& ~~~((1 : Byte) <<< IrqSource.index src), enableDelay := none } }

/-- R263: with no source in both masks the dispatch aborts to OPCODE, and only the snapshots hold new values. -/
def Obligations.SpuriousWakeAborts : Prop :=
  ∀ s : State, s.cycleReady → s.state = .irqReadIE → s.ifSnap &&& s.ic.ie &&& 0x1F = 0 →
    step s = .next { s with subCycle := 0, ieSnap := s.ic.ie, state := .opcode, busUsed := false, busTrace := [] }

/-- R264, R265: the two push cycles write the high byte and then the low byte of the program counter, each at `SP - 1`
modulo 2^16, and leave `SP` there. -/
def Obligations.PushCyclesSaveTheProgramCounter : Prop :=
  ∀ s : State, s.cycleReady →
    (s.state = .irqPush1 →
      step s = .next { s with
        subCycle := 0, regs := { s.regs with sp := s.regs.sp - 1 }, state := .irqPush2, busUsed := false,
        bus := busWrite s (s.regs.sp - 1) (s.regs.pc.extractLsb' 8 8),
        busTrace := [.write (s.regs.sp - 1) (s.regs.pc.extractLsb' 8 8)] }) ∧
    (s.state = .irqPush2 →
      step s = .next { s with
        subCycle := 0, regs := { s.regs with sp := s.regs.sp - 1 }, state := .irqJump, busUsed := false,
        bus := busWrite s (s.regs.sp - 1) (s.regs.pc.extractLsb' 0 8),
        busTrace := [.write (s.regs.sp - 1) (s.regs.pc.extractLsb' 0 8)] })

/-- R266: `IRQ_JUMP` sets the program counter to the vector of the lowest source in both snapshots. -/
def Obligations.JumpLoadsTheVector : Prop :=
  ∀ (s : State) (src : IrqSource), s.cycleReady → s.state = .irqJump →
    (s.ifSnap &&& s.ieSnap).getLsbD (IrqSource.index src) = true →
    (∀ j, j < IrqSource.index src → (s.ifSnap &&& s.ieSnap).getLsbD j = false) →
    step s = .next { s with
      subCycle := 0, regs := { s.regs with pc := s.params.vectors.get src }, state := .opcode, busUsed := false,
      busTrace := [] }

/-- R272, R133: five machine cycles after a request is seen, the chosen source's pending bit is clear, `ime` is false, no enable is
deferred, the two bytes of the program counter are written below the old `SP`, and control is at the vector; the snapshots hold the
masks, a STOPPED machine has its display enabled, and nothing else has changed. In memory the saved address lies low byte at the
lower address, where no device is mapped, and every other byte is as before. That a pushed byte reaches no control register, that it
stands in the array under one, and that a device write changes no other byte, are the model's (log entries 15, 16 and 17). -/
def Obligations.DispatchEntersTheHandler : Prop :=
  ∀ (s : State) (src : IrqSource), s.cycleEnded →
    (s.state = .opcode ∨ s.state = .halted ∨ s.state = .stopped) → s.ic.ime = true →
    (s.ic.ifl &&& s.ic.ie).getLsbD (IrqSource.index src) = true →
    (∀ j, j < IrqSource.index src → (s.ic.ifl &&& s.ic.ie).getLsbD j = false) →
    let pushed := busWrite s (s.regs.sp - 1) (s.regs.pc.extractLsb' 8 8)
    let bus := busWrite { s with bus := pushed } (s.regs.sp - 2) (s.regs.pc.extractLsb' 0 8)
    runSteps (5 * ticksPerCycle s) s = .next { s with
      state := .opcode, subCycle := 0, ifSnap := s.ic.ifl, ieSnap := s.ic.ie,
      ic := { s.ic with ime := false, enableDelay := none, ifl := s.ic.ifl &&& ~~~((1 : Byte) <<< IrqSource.index src) },
      regs := { s.regs with pc := s.params.vectors.get src, sp := s.regs.sp - 2 }, bus := bus,
      video := if s.state = .stopped then { s.video with displayEnabled := true } else s.video,
      busUsed := false, busTrace := [] } ∧
    (Memory.wf s.bus.mem = true →
      (s.params.windows = [] →
        Memory.read (s.regs.sp - 1).toNat bus.mem = s.regs.pc.extractLsb' 8 8 ∧
        Memory.read (s.regs.sp - 2).toNat bus.mem = s.regs.pc.extractLsb' 0 8 ∧ bus.dev = s.bus.dev) ∧
      (∀ a : Word, a ≠ s.regs.sp - 1 → a ≠ s.regs.sp - 2 →
        Memory.read a.toNat bus.mem = Memory.read a.toNat s.bus.mem))

/-- R49, R50, R51: a deferred enable takes effect at the second retirement; a second request changes nothing; an immediate
disable cancels it. -/
def Obligations.DeferredEnableTakesTwoRetirements : Prop :=
  ∀ ic : IntCtrl,
    (ic.enableDelay = none →
      IntCtrl.requestEnableDeferred ic = { ic with enableDelay := some 1 } ∧
      IntCtrl.onInstructionRetired (IntCtrl.requestEnableDeferred ic) = { ic with enableDelay := some 0 } ∧
      IntCtrl.onInstructionRetired (IntCtrl.onInstructionRetired (IntCtrl.requestEnableDeferred ic)) =
        { ic with ime := true } ∧
      IntCtrl.onInstructionRetired ic = ic) ∧
    (ic.enableDelay ≠ none → IntCtrl.requestEnableDeferred ic = ic) ∧
    (∀ on, IntCtrl.setMasterEnabled ic on = { ic with ime := on, enableDelay := none })

/-- R308: `ime` rises only in a tick in which a PLAIN or EXT instruction runs; it falls only there, in `IRQ_READ_IE`, or by a
reset. -/
def Obligations.MasterEnableChangesOnlyThere : Prop :=
  ∀ s t : State, step s = .next t → t.ic.ime ≠ s.ic.ime →
    (∃ i u os, advance s = .run i u ∧ genericOperands i = some os) ∨
    (t.ic.ime = false ∧ (s.state = .irqReadIE ∨ s.inputs.head? = some .reset))

/-! ## The quiescent states -/

/-- R135: HALTED with `ime` off and a request goes to OPCODE and does that state's work in the same machine cycle. -/
def Obligations.HaltedWakeFetchesInTheSameCycle : Prop :=
  ∀ s : State, s.cycleReady → s.state = .halted → s.ic.ime = false → s.ic.ifl &&& s.ic.ie &&& 0x1F ≠ 0 →
    step s = step { s with state := .opcode }

/-- R232, R233, R238: for every number of ticks HALTED with nothing requested stays, and so does STOPPED with nothing requested or
with `ime` off, with no other effect and no bus access: only the tick counter and the last cycle's bus record change. -/
def Obligations.HaltedOrStoppedWithoutWakeStays : Prop :=
  ∀ (n : Nat) (s : State), s.inputs = [] → s.fault = none →
    (s.state = .halted ∧ s.ic.ifl &&& s.ic.ie &&& 0x1F = 0) ∨
      (s.state = .stopped ∧ (s.ic.ime = false ∨ s.ic.ifl &&& s.ic.ie &&& 0x1F = 0)) →
    ∃ (count : Nat) (used : Bool) (trace : List BusAccess),
      runSteps n s = .next { s with subCycle := count, busUsed := used, busTrace := trace } ∧
      (used = s.busUsed ∧ trace = s.busTrace ∨ used = false ∧ trace = [])

/-- R233: STOPPED with `ime` off stays there whatever the host does short of a reset, and makes no bus access. -/
def Obligations.StoppedWithMaskedInterruptsHangs : Prop :=
  ∀ (n : Nat) (s : State), s.state = .stopped → s.ic.ime = false → .reset ∉ s.inputs →
    ∃ t, runSteps n s = .next t ∧ t.state = .stopped ∧ t.ic.ime = false ∧ t.regs = s.regs ∧ t.speed.double = s.speed.double ∧
      (t.busTrace = s.busTrace ∨ t.busTrace = [])

/-! ## The bus -/

/-- R85: in every step the block makes at most one bus access; in a step that is no machine cycle, none. -/
def Obligations.AtMostOneBusAccessPerCycle : Prop :=
  ∀ s t : State, step s = .next t → t.busTrace = s.busTrace ∨ t.busTrace.length ≤ 1

/-- R93: in a machine cycle a byte of memory changes only if the cycle's bus access is a write to its address, and where no device
is mapped it then holds the byte written, unless a corruption is injected and the byte is in memory the video subsystem owns (C10).
That a device access changes no byte of the array, that the byte written stands there under a mapped control register, and that a
corruption is confined so, are the model's choices (log entries 15, 16 and 23). -/
def Obligations.MemoryChangesOnlyByTheCyclesWrite : Prop :=
  ∀ s t : State, s.cycleReady → Memory.wf s.bus.mem = true → step s = .next t →
    ∀ a : Word, (t.video.injected = s.video.injected ∨ showsVideo s.params a = false) →
      ((∀ v, BusAccess.write a v ∉ t.busTrace) → Memory.read a.toNat t.bus.mem = Memory.read a.toNat s.bus.mem) ∧
      (∀ v : Byte, s.params.windows = [] → BusAccess.write a v ∈ t.busTrace → Memory.read a.toNat t.bus.mem = v)

/-! ## Fetch and decode -/

/-- R160, R161, R162: the opcode fetch of `0xCB` or `0x10` latches the byte, clears the transient fields, advances the program
counter unless the halt bug suppresses it, and leaves EXT_OPCODE for the next machine cycle. -/
def Obligations.OpcodeFetchDefersTheSecondByte : Prop :=
  ∀ s : State, s.cycleReady → s.state = .opcode → (s.ic.ime = false ∨ s.ic.ifl &&& s.ic.ie &&& 0x1F = 0) →
    (readByte s s.regs.pc = 0xCB ∨ readByte s s.regs.pc = 0x10) →
    step s = .next { s with
      subCycle := 0, state := .extOpcode, op1 := readByte s s.regs.pc, op2 := 0x00,
      operand := { slot0 := 0x00, slot1 := 0x00 }, operandIdx := 0, desc := none, ops := [], execIdx := 0,
      ctx := s.params.ctx0, ifSnap := 0x00, ieSnap := 0x00, haltBug := false,
      regs := if s.haltBug then s.regs else { s.regs with pc := s.regs.pc + 1 },
      bus := (busRead s s.regs.pc).2, busUsed := false, busTrace := [.read s.regs.pc (readByte s s.regs.pc)] }

/-- R160, R161, R162, R165: the opcode fetch of a byte whose descriptor has one or two operand bytes resolves it and leaves
OPERAND for the next machine cycle. -/
def Obligations.OpcodeFetchResolvesTheDescriptor : Prop :=
  ∀ (s : State) (d : Descriptor), s.cycleReady → s.state = .opcode →
    (s.ic.ime = false ∨ s.ic.ifl &&& s.ic.ie &&& 0x1F = 0) →
    readByte s s.regs.pc ≠ 0xCB → readByte s s.regs.pc ≠ 0x10 →
    s.params.registry.lookup (readByte s s.regs.pc) = some d → 1 ≤ d.length → d.length ≤ 2 →
    step s = .next { s with
      subCycle := 0, state := .operand, op1 := readByte s s.regs.pc, op2 := 0x00,
      operand := { slot0 := 0x00, slot1 := 0x00 }, operandIdx := 0, desc := some d, ops := [], execIdx := 0,
      ctx := s.params.ctx0, ifSnap := 0x00, ieSnap := 0x00, haltBug := false,
      regs := if s.haltBug then s.regs else { s.regs with pc := s.regs.pc + 1 },
      bus := (busRead s s.regs.pc).2, busUsed := false, busTrace := [.read s.regs.pc (readByte s s.regs.pc)] }

/-- R163, R165, R167: the fetch of the second opcode byte resolves it in the extended table and advances the program counter;
operand bytes wait for later cycles, and with none to fetch the instruction runs in the same cycle. -/
def Obligations.SecondByteFetchResolvesTheDescriptor : Prop :=
  ∀ (s : State) (d : Descriptor), s.cycleReady → s.state = .extOpcode →
    s.params.registry.lookupExtended (readByte s s.regs.pc) = some d → d.length ≤ 2 →
    (s.operandIdx < d.length →
      step s = .next { s with
        subCycle := 0, state := .operand, op2 := readByte s s.regs.pc, desc := some d,
        regs := { s.regs with pc := s.regs.pc + 1 },
        bus := (busRead s s.regs.pc).2, busUsed := false, busTrace := [.read s.regs.pc (readByte s s.regs.pc)] }) ∧
    (d.length ≤ s.operandIdx →
      let u : State := { s with
        subCycle := 0, state := .running, op2 := readByte s s.regs.pc, desc := some d, ops := d.ops,
        regs := { s.regs with pc := s.regs.pc + 1 },
        bus := (busRead s s.regs.pc).2, busUsed := true, busTrace := [.read s.regs.pc (readByte s s.regs.pc)] }
      step s = finishTick (exec (inFlight u) u))

/-- R165: of two operand bytes the first is fetched into slot 0 in a machine cycle of its own; the last operand byte goes into
its slot, and the instruction runs in the same cycle with the program counter past it. -/
def Obligations.OperandBytesFillTheirSlots : Prop :=
  ∀ (s : State) (d : Descriptor), s.cycleReady → s.state = .operand → s.desc = some d →
    (d.length = 2 → s.operandIdx = 0 →
      step s = .next { s with
        subCycle := 0, operand := { s.operand with slot0 := readByte s s.regs.pc }, operandIdx := 1,
        regs := { s.regs with pc := s.regs.pc + 1 },
        bus := (busRead s s.regs.pc).2, busUsed := false,
        busTrace := [.read s.regs.pc (readByte s s.regs.pc)] }) ∧
    (d.length ≤ 2 → s.operandIdx + 1 = d.length →
      let u : State := { s with
        subCycle := 0, state := .running, ops := d.ops, operandIdx := d.length,
        operand := if s.operandIdx = 0 then { s.operand with slot0 := readByte s s.regs.pc }
          else { s.operand with slot1 := readByte s s.regs.pc },
        regs := { s.regs with pc := s.regs.pc + 1 },
        bus := (busRead s s.regs.pc).2, busUsed := true,
        busTrace := [.read s.regs.pc (readByte s s.regs.pc)] }
      step s = finishTick (exec (inFlight u) u))

/-- R166 with R160, R163, R165: a descriptor that declares more than two operand bytes faults in the machine cycle that fetches the
opcode byte it is resolved by, a first or a second one, with that byte latched and the program counter past it; OPERAND with such a
descriptor, or with none, faults before any byte is fetched. -/
def Obligations.OperandStateChecksTheDescriptor : Prop :=
  ∀ s : State, s.cycleReady →
    (s.state = .operand → s.desc = none →
      step s = .next { s with subCycle := 0, fault := some .noDescriptorAtOperand, busUsed := false, busTrace := [] }) ∧
    (∀ d, s.state = .operand → s.desc = some d → 2 < d.length →
      step s = .next { s with subCycle := 0, fault := some .operandLengthExceeded, busUsed := false, busTrace := [] }) ∧
    (∀ d, s.state = .opcode → (s.ic.ime = false ∨ s.ic.ifl &&& s.ic.ie &&& 0x1F = 0) →
      readByte s s.regs.pc ≠ 0xCB → readByte s s.regs.pc ≠ 0x10 →
      s.params.registry.lookup (readByte s s.regs.pc) = some d → 2 < d.length →
      step s = .next { s with
        subCycle := 0, state := .operand, op1 := readByte s s.regs.pc, op2 := 0x00,
        operand := { slot0 := 0x00, slot1 := 0x00 }, operandIdx := 0, desc := some d, ops := [], execIdx := 0,
        ctx := s.params.ctx0, ifSnap := 0x00, ieSnap := 0x00, haltBug := false, fault := some .operandLengthExceeded,
        regs := if s.haltBug then s.regs else { s.regs with pc := s.regs.pc + 1 },
        bus := (busRead s s.regs.pc).2, busUsed := false, busTrace := [.read s.regs.pc (readByte s s.regs.pc)] }) ∧
    (∀ d, s.state = .extOpcode → s.params.registry.lookupExtended (readByte s s.regs.pc) = some d → 2 < d.length →
      step s = .next { s with
        subCycle := 0, state := .operand, op2 := readByte s s.regs.pc, desc := some d, fault := some .operandLengthExceeded,
        regs := { s.regs with pc := s.regs.pc + 1 },
        bus := (busRead s s.regs.pc).2, busUsed := false, busTrace := [.read s.regs.pc (readByte s s.regs.pc)] })

/-- R170 with R160: a first byte with no descriptor faults in the cycle that fetches it; the byte is in `op1` and the state is
still OPCODE. Nothing is said of the program counter, which R170 leaves open (log entry 20). -/
def Obligations.UnregisteredFirstByteFaults : Prop :=
  ∀ s : State, s.cycleReady → s.state = .opcode → (s.ic.ime = false ∨ s.ic.ifl &&& s.ic.ie &&& 0x1F = 0) →
    readByte s s.regs.pc ≠ 0xCB → readByte s s.regs.pc ≠ 0x10 →
    s.params.registry.lookup (readByte s s.regs.pc) = none →
    ∃ t, step s = .next t ∧ t.fault = some (.decodeFailure (readByte s s.regs.pc)) ∧ t.op1 = readByte s s.regs.pc ∧
      t.state = .opcode ∧ t.ic = s.ic ∧ t.bus = (busRead s s.regs.pc).2

/-- R170 with R163: a second byte with no extended descriptor faults in the cycle that fetches it; the byte is in `op2` and the
state is still EXT_OPCODE. -/
def Obligations.UnregisteredSecondByteFaults : Prop :=
  ∀ s : State, s.cycleReady → s.state = .extOpcode →
    s.params.registry.lookupExtended (readByte s s.regs.pc) = none →
    ∃ t, step s = .next t ∧ t.fault = some (.extDecodeFailure s.op1 (readByte s s.regs.pc)) ∧
      t.op2 = readByte s s.regs.pc ∧ t.state = .extOpcode ∧ t.ic = s.ic ∧ t.bus = (busRead s s.regs.pc).2

/-- R300, R301: the three illegal rows record their fault with its payload; every other field keeps its value. -/
def Obligations.IllegalRowsRecordTheirFault : Prop :=
  ∀ (b : Byte) (s : State),
    exec (.illegal b) s = .next { s with fault := some (.decodeFailure b) } ∧
    exec (.illegalExt b) s = .next { s with fault := some (.extDecodeFailure 0xCB b) } ∧
    exec (.illegalStop b) s = .next { s with fault := some (.extDecodeFailure 0x10 b) }

/-! ## Encoding -/

/-- R100, R101, R108: decoding the bytes of a well-formed instruction gives it back, with every operand byte, and leaves what
follows. -/
def Obligations.DecodeOfEncode : Prop :=
  ∀ (r : Registry) (i : Instr) (rest : List Byte), i.wellFormed r = true → decode r (encode i ++ rest) = .ok (i, rest)

/-- R108, R112: what the decoder reads is well formed, and its bytes are the bytes read: no other bytes mean it. -/
def Obligations.EncodeOfDecode : Prop :=
  ∀ (r : Registry) (bytes rest : List Byte) (i : Instr), decode r bytes = .ok (i, rest) →
    i.wellFormed r = true ∧ encode i ++ rest = bytes

/-- R101 to R104, R109 on bytes written out from the formats, in the fixture registry. -/
def Obligations.WordsOfEachClassDecode : Prop :=
  let r := Registry.fixture
  decode r [0b01110110#8] = .ok (.halt [], []) ∧
  decode r [0b00010000#8, 0x00] = .ok (.stop 0x00 [], []) ∧
  decode r [0b11001011#8, 0x37] = .ok (.ext 0x37 [], []) ∧
  decode r [0xEA, 0x00, 0xC0] = .ok (.plain 0xEA [0x00, 0xC0], []) ∧
  decode r [0xD3] = .ok (.illegal 0xD3, []) ∧
  decode r [0b11001011#8, 0x76] = .ok (.illegalExt 0x76, []) ∧
  decode r [0b00010000#8, 0x11] = .ok (.illegalStop 0x11, [])

/-! ## A step runs the decoded instruction -/

/-- R191: a machine cycle in RUNNING is one run of the instruction in flight, from a state with the bus free. -/
def Obligations.RunningCycleRunsTheInstruction : Prop :=
  ∀ s : State, s.cycleReady → s.state = .running →
    step s = finishTick (exec (inFlight s) { s with subCycle := 0, busTrace := [], busUsed := false })

/-- R160, R161, R167, R237 (a): when the byte at the program counter is a well-formed one-byte instruction, the step that begins a
machine cycle in OPCODE is one run of it, from the state its decode leaves; the halt bug leaves the program counter at its byte. -/
def Obligations.OpcodeCycleRunsAOneByteInstruction : Prop :=
  ∀ (s : State) (i : Instr) (rest : List Byte) (d : Descriptor), s.cycleReady → s.state = .opcode →
    (s.ic.ime = false ∨ s.ic.ifl &&& s.ic.ie &&& 0x1F = 0) →
    decode s.params.registry [readByte s s.regs.pc] = .ok (i, rest) → isLegal i = true →
    resolvedDescriptor s.params.registry (opcodeBytes i).1 (opcodeBytes i).2 = some d →
    let u : State := { s with
      subCycle := 0, state := .running, op1 := readByte s s.regs.pc, op2 := 0x00,
      operand := { slot0 := 0x00, slot1 := 0x00 }, operandIdx := 0, desc := some d, ops := d.ops, execIdx := 0,
      ctx := s.params.ctx0, ifSnap := 0x00, ieSnap := 0x00, haltBug := false,
      regs := if s.haltBug then s.regs else { s.regs with pc := s.regs.pc + 1 },
      bus := (busRead s s.regs.pc).2, busUsed := true, busTrace := [.read s.regs.pc (readByte s s.regs.pc)] }
    step s = finishTick (exec i u)

/-- From R168, R169, R237: when the bytes the sequencer fetches from the program counter on stand in the flat array and decode to a
well-formed instruction, as many machine cycles as it has bytes decode it and run it, from the state its decode leaves: all its bytes
latched, the program counter past them, one address less after the halt bug. -/
def Obligations.DecodedInstructionRuns : Prop :=
  ∀ (s : State) (i : Instr) (rest : List Byte) (d : Descriptor), s.cycleEnded → s.state = .opcode →
    (s.ic.ime = false ∨ s.ic.ifl &&& s.ic.ie &&& 0x1F = 0) →
    decode s.params.registry (s.fetchedBytes 4) = .ok (i, rest) → s.fetchesFromArray (encode i).length → isLegal i = true →
    resolvedDescriptor s.params.registry (opcodeBytes i).1 (opcodeBytes i).2 = some d →
    runSteps (ticksPerCycle s * (encode i).length) s = finishTick (exec i (s.decoded i d))

/-- A state prepared for a table word steps by running the instruction the word decodes to (R160, R163, R165, R167). A legal one runs
from the state its decode leaves when its bytes stand at the program counter: the bytes latched, the registry's descriptor for its
opcode bytes resolved, that descriptor's sequence loaded, the context cleared, the program counter past it, and memory as it was but
for the word. An illegal one runs with its opcode bytes latched, in the state that fetches the last of them. That
its program counter still stands at the last opcode byte, in `u.regs`, R170 leaves open: the model's choice (DESIGN CHOICE, log
entry 20). The preparation is the model's: it clears the inputs, a fault and the halt bug, and for a one-byte instruction masks a
request that would preempt it (log entry 25). -/
def Obligations.PreparedStateRunsItsWord : Prop :=
  ∀ (s : State) (nbits w : Nat) (i : Instr) (rest : List Byte), s.plainBus → Memory.wf s.bus.mem = true → nbits ≤ 32 →
    decode s.params.registry (tableWordBytes nbits w) = .ok (i, rest) →
    let prepared : State := { s with
      inputs := [], fault := none, haltBug := false,
      bus := { s.bus with mem := storeBytes s.regs.pc (tableWordBytes nbits w) s.bus.mem },
      ic := if (encode i).length = 1 then { s.ic with ime := s.ic.ime && !IntCtrl.requested s.ic } else s.ic }
    (isLegal i = true →
      ∃ d, resolvedDescriptor s.params.registry (opcodeBytes i).1 (opcodeBytes i).2 = some d ∧
        step (s.withFetchWord nbits w) = finishTick (exec i (prepared.decoded i d))) ∧
    (isLegal i = false →
      ∃ u, step (s.withFetchWord nbits w) = finishTick (exec i u) ∧ u.fault = none ∧ u.op1 = (opcodeBytes i).1 ∧
        u.op2 = (opcodeBytes i).2 ∧ u.state = (if (encode i).length = 1 then .opcode else .extOpcode) ∧
        u.regs = (if (encode i).length = 1 then s.regs else { s.regs with pc := s.regs.pc + 1 }) ∧
        u.bus = prepared.bus ∧ u.ic = prepared.ic)

/-! ## HALT and STOP -/

/-- R235: HALT with `ime` off and a request takes the halt bug; otherwise it enters HALTED. Nothing else changes: it does not
retire (R239). -/
def Obligations.HaltHaltsOrTakesTheHaltBug : Prop :=
  ∀ (operands : List Byte) (s : State),
    exec (.halt operands) s = .next
      (if s.ic.ime = false ∧ s.ic.ifl &&& s.ic.ie &&& 0x1F ≠ 0 then { s with state := .opcode, haltBug := true }
       else { s with state := .halted })

/-- R231 with R43: STOP with an armed switch toggles the speed and goes to OPCODE with the display untouched; unarmed it enters
STOPPED and disables the display. Nothing else changes: it does not retire (R239). -/
def Obligations.StopSwitchesSpeedOrStops : Prop :=
  ∀ (b : Byte) (operands : List Byte) (s : State),
    exec (.stop b operands) s = .next
      (if s.speed.armed = true then { s with speed := { double := !s.speed.double, armed := false }, state := .opcode }
       else { s with state := .stopped, video := { s.video with displayEnabled := false } })

/-- R237 (d), R323 (d): the halt bug before a HALT with no operand bytes refetches the same address for ever. -/
def Obligations.HaltBugOnHaltLoops : Prop :=
  ∀ (n : Nat) (s : State) (d : Descriptor), s.cycleEnded → s.state = .opcode → s.haltBug = true → s.ic.ime = false →
    s.ic.ifl &&& s.ic.ie &&& 0x1F ≠ 0 → s.plainBus → Memory.read s.regs.pc.toNat s.bus.mem = 0x76 →
    s.params.registry.lookup 0x76 = some d → d.length = 0 →
    ∃ t, runSteps (n * ticksPerCycle s) s = .next t ∧ t.state = .opcode ∧ t.haltBug = true ∧ t.regs = s.regs ∧
      t.bus = s.bus ∧ t.ic = s.ic ∧ t.fault = none

/-! ## PLAIN and EXT -/

/-- R198 with R51: with no micro-operation left the instruction retires: the operand index is reset, the state is OPCODE, and a
deferred enable moves one step. -/
def Obligations.ExhaustedSequenceRetires : Prop :=
  ∀ (i : Instr) (operands : List Byte) (s : State), genericOperands i = some operands → s.execIdx = s.ops.length →
    exec i s = .next { s with
      operandIdx := 0, state := .opcode,
      ic := if s.ic.enableDelay = some 0 then { s.ic with ime := true, enableDelay := none }
        else if s.ic.enableDelay = some 1 then { s.ic with enableDelay := some 0 } else s.ic }

/-- R191, R195 to R200: a micro-operation whose `execute` makes no bus call, with no corruption to apply, leaves the registers
and the context it computes, its toggles applied, and the index advanced, or at the end when `shouldProceed` is false. With a
forced end the cycle is over; otherwise the walk goes on from there. -/
def Obligations.OpWithoutBusCallRuns : Prop :=
  ∀ (i : Instr) (operands : List Byte) (s : State) (m : MicroOp) (regs : RegFile) (ctx : Ctx),
    genericOperands i = some operands → s.ops[s.execIdx]? = some m →
    (s.busUsed = false ∨ MicroOp.accesses m = false) →
    (MicroOp.corruption m s.regs s.ctx = none ∨ (s.video.displayEnabled = true ∧ inCorruptionWindow s = false)) →
    MicroOp.start m s.regs (OperandBuf.load s.operand operands) s.ctx = .finish regs ctx →
    let u : State := { s with
      regs := regs, ctx := ctx, ic := IntCtrl.calls s.ic (MicroOp.toggles m s.ic),
      execIdx := if MicroOp.shouldProceed m regs then s.execIdx + 1 else s.ops.length }
    (MicroOp.forcesCycleEnd m = true → exec i s = .next u) ∧
    (MicroOp.forcesCycleEnd m = false → exec i s = exec i { u with busUsed := s.busUsed || MicroOp.accesses m })

/-- R191, R195, R199, R200: a micro-operation that reads makes its one bus read at the address it gives, resumes with the byte read,
and marks the bus used. No byte of memory changes, which for a read in a device window is the model's choice (log entry 15). -/
def Obligations.ReadingOpRuns : Prop :=
  ∀ (i : Instr) (operands : List Byte) (s : State) (m : MicroOp) (a : Word) (regs : RegFile) (ctx : Ctx),
    genericOperands i = some operands → s.ops[s.execIdx]? = some m → s.busUsed = false →
    (MicroOp.corruption m s.regs s.ctx = none ∨ (s.video.displayEnabled = true ∧ inCorruptionWindow s = false)) →
    MicroOp.start m s.regs (OperandBuf.load s.operand operands) s.ctx = .read a → MicroOp.readsMemory m = true →
    MicroOp.resume m s.regs (OperandBuf.load s.operand operands) s.ctx (readByte s a) = .finish regs ctx →
    let u : State := { s with
      regs := regs, ctx := ctx, bus := (busRead s a).2, busTrace := s.busTrace ++ [.read a (readByte s a)],
      ic := IntCtrl.calls s.ic (MicroOp.toggles m s.ic),
      execIdx := if MicroOp.shouldProceed m regs then s.execIdx + 1 else s.ops.length }
    (MicroOp.forcesCycleEnd m = true → exec i s = .next u) ∧
    (MicroOp.forcesCycleEnd m = false → exec i s = exec i { u with busUsed := true }) ∧
    u.bus.mem = s.bus.mem

/-- R42, R52, R191, R195, R199, R200: a micro-operation that stores makes its one bus write at the address and of the byte it gives,
reaches the mapped control registers, and marks the bus used. Every other byte of memory reads as before, which for a store in a
device window is the model's choice (log entry 15); where no device is mapped the byte stored reads back from the array, which under
a mapped control register is the model's choice (log entry 16). -/
def Obligations.StoringOpRuns : Prop :=
  ∀ (i : Instr) (operands : List Byte) (s : State) (m : MicroOp) (a : Word) (v : Byte) (regs : RegFile) (ctx : Ctx),
    genericOperands i = some operands → s.ops[s.execIdx]? = some m → s.busUsed = false →
    Memory.wf s.bus.mem = true →
    (MicroOp.corruption m s.regs s.ctx = none ∨ (s.video.displayEnabled = true ∧ inCorruptionWindow s = false)) →
    MicroOp.start m s.regs (OperandBuf.load s.operand operands) s.ctx = .write a v → MicroOp.writesMemory m = true →
    MicroOp.resume m s.regs (OperandBuf.load s.operand operands) s.ctx v = .finish regs ctx →
    let u : State := { s with
      regs := regs, ctx := ctx, bus := busWrite s a v, busTrace := s.busTrace ++ [.write a v],
      speed := speedAfterStore s a v,
      ic := IntCtrl.calls (icAfterStore s a v) (MicroOp.toggles m (icAfterStore s a v)),
      execIdx := if MicroOp.shouldProceed m regs then s.execIdx + 1 else s.ops.length }
    (MicroOp.forcesCycleEnd m = true → exec i s = .next u) ∧
    (MicroOp.forcesCycleEnd m = false → exec i s = exec i { u with busUsed := true }) ∧
    (∀ b : Word, b ≠ a → Memory.read b.toNat u.bus.mem = Memory.read b.toNat s.bus.mem) ∧
    (s.params.windows = [] → Memory.read a.toNat u.bus.mem = v)

/-- R42, R52: a store by a micro-operation that reaches the mapped flag or enable register writes it, and one that reaches the mapped
speed register arms the switch when the byte arms it; at any other address the controller and the speed are as before. The addresses
as parameters, the flag register before the enable register where both are equal, the speed register beside either of them where
their addresses are equal, and the free predicate of the byte by which a store arms the switch are the model's choices (log
entry 16). -/
def Obligations.StoresReachTheMappedRegisters : Prop :=
  ∀ (s : State) (a : Word) (v : Byte),
    (s.params.flagAddr = some a → icAfterStore s a v = { s.ic with ifl := v }) ∧
    (s.params.flagAddr ≠ some a → s.params.enableAddr = some a → icAfterStore s a v = { s.ic with ie := v }) ∧
    (s.params.flagAddr ≠ some a → s.params.enableAddr ≠ some a → icAfterStore s a v = s.ic) ∧
    (s.params.speedAddr = some a →
      speedAfterStore s a v = if Config.speedStoreArms v then { s.speed with armed := true } else s.speed) ∧
    (s.params.speedAddr ≠ some a → speedAfterStore s a v = s.speed) ∧
    (speedAfterStore s a v = s.speed ∨ speedAfterStore s a v = { s.speed with armed := true })

/-- R192: a micro-operation that declares a bus access, met when the bus is used, waits: the state is untouched. -/
def Obligations.BusConflictWaits : Prop :=
  ∀ (i : Instr) (operands : List Byte) (s : State) (m : MicroOp), genericOperands i = some operands →
    s.ops[s.execIdx]? = some m → s.busUsed = true → MicroOp.accesses m = true → exec i s = .next s

/-- R194: a corruption-eligible micro-operation met while the display is disabled ends the cycle: not run (RETRY), passed over
(SKIP), or run to its end without corruption (RUN_THEN_END), be it one without a bus call, one that reads or one that stores. -/
def Obligations.CorruptionAbortEndsTheCycle : Prop :=
  ∀ (i : Instr) (operands : List Byte) (s : State) (m : MicroOp) (k : CorruptionKind),
    genericOperands i = some operands → s.ops[s.execIdx]? = some m →
    (s.busUsed = false ∨ MicroOp.accesses m = false) → MicroOp.corruption m s.regs s.ctx = some k →
    s.video.displayEnabled = false →
    let buf := OperandBuf.load s.operand operands
    (s.params.abortMode = .retry → exec i s = .next s) ∧
    (s.params.abortMode = .skip → exec i s = .next { s with execIdx := s.execIdx + 1 }) ∧
    (s.params.abortMode = .runThenEnd → ∀ regs ctx,
      (MicroOp.start m s.regs buf s.ctx = .finish regs ctx → exec i s = .next (s.afterOp m regs ctx)) ∧
      (∀ a, MicroOp.start m s.regs buf s.ctx = .read a → MicroOp.readsMemory m = true →
        MicroOp.resume m s.regs buf s.ctx (readByte s a) = .finish regs ctx →
        exec i s = .next (State.afterOp { s with
          bus := (busRead s a).2, busTrace := s.busTrace ++ [.read a (readByte s a)] } m regs ctx)) ∧
      (∀ a v, MicroOp.start m s.regs buf s.ctx = .write a v → MicroOp.writesMemory m = true →
        MicroOp.resume m s.regs buf s.ctx v = .finish regs ctx →
        exec i s = .next (State.afterOp { s with
          bus := busWrite s a v, busTrace := s.busTrace ++ [.write a v],
          ic := icAfterStore s a v, speed := speedAfterStore s a v } m regs ctx)))

/-- R193: a corruption-eligible micro-operation met with the display enabled inside the window gives the video subsystem one
injection, with its kind and the line tick, and then runs, be it one without a bus call, one that reads or one that stores. The
injection leaves every byte outside memory the video subsystem owns (C10), and the reference bus whole; what it does there, and that
the video ports show what they showed, are the model's choices (log entry 23). -/
def Obligations.CorruptionIsInjectedInTheWindow : Prop :=
  ∀ (i : Instr) (operands : List Byte) (s : State) (m : MicroOp) (k : CorruptionKind) (regs : RegFile) (ctx : Ctx),
    genericOperands i = some operands → s.ops[s.execIdx]? = some m →
    (s.busUsed = false ∨ MicroOp.accesses m = false) → MicroOp.corruption m s.regs s.ctx = some k →
    s.video.displayEnabled = true → s.video.searchPhase = true →
    (∀ limit, s.params.tickLimit = some limit → s.video.lineTick < limit) →
    let buf := OperandBuf.load s.operand operands
    let v : State := { s with
      video := { s.video with injected := s.video.injected ++ [(k, s.video.lineTick)] }, bus := corruptBus k s }
    let runsTo := fun (u : State) =>
      (MicroOp.forcesCycleEnd m = true → exec i s = .next u) ∧
      (MicroOp.forcesCycleEnd m = false → exec i s = exec i { u with busUsed := s.busUsed || MicroOp.accesses m })
    (MicroOp.start m s.regs buf s.ctx = .finish regs ctx → runsTo (v.afterOp m regs ctx)) ∧
    (∀ a, MicroOp.start m s.regs buf s.ctx = .read a → MicroOp.readsMemory m = true →
      MicroOp.resume m s.regs buf s.ctx (readByte v a) = .finish regs ctx →
      runsTo (State.afterOp { v with
        bus := (busRead v a).2, busTrace := s.busTrace ++ [.read a (readByte v a)] } m regs ctx)) ∧
    (∀ a b, MicroOp.start m s.regs buf s.ctx = .write a b → MicroOp.writesMemory m = true →
      MicroOp.resume m s.regs buf s.ctx b = .finish regs ctx →
      runsTo (State.afterOp { v with
        bus := busWrite v a b, busTrace := s.busTrace ++ [.write a b],
        ic := icAfterStore s a b, speed := speedAfterStore s a b } m regs ctx)) ∧
    (Memory.wf s.bus.mem = true → ∀ a : Word, showsVideo s.params a = false →
      Memory.read a.toNat v.bus.mem = Memory.read a.toNat s.bus.mem) ∧
    (s.params.windows = [] → s.params.videoMemory = [] → v.bus = s.bus)

/-- R195, R300: a bus call the micro-operation did not declare raises `OpBusContract` and changes nothing else; so does a second
bus call, after a declared read or a declared write, with the registers and the index as they were. That a breaking call is not
performed and that an allowed first call stays performed is the model's choice (log entry 18). -/
def Obligations.BrokenBusContractFaults : Prop :=
  ∀ (i : Instr) (operands : List Byte) (s : State) (m : MicroOp), genericOperands i = some operands →
    s.ops[s.execIdx]? = some m → (s.busUsed = false ∨ MicroOp.accesses m = false) →
    (MicroOp.corruption m s.regs s.ctx = none ∨ (s.video.displayEnabled = true ∧ inCorruptionWindow s = false)) →
    let buf := OperandBuf.load s.operand operands
    (∀ a, MicroOp.start m s.regs buf s.ctx = .read a → MicroOp.readsMemory m = false →
      exec i s = .next { s with fault := some .opBusContract }) ∧
    (∀ a v, MicroOp.start m s.regs buf s.ctx = .write a v → MicroOp.writesMemory m = false →
      exec i s = .next { s with fault := some .opBusContract }) ∧
    (∀ a, MicroOp.start m s.regs buf s.ctx = .read a → MicroOp.readsMemory m = true →
      (∀ r c, MicroOp.resume m s.regs buf s.ctx (readByte s a) ≠ .finish r c) →
      exec i s = .next { s with
        fault := some .opBusContract, bus := (busRead s a).2, busTrace := s.busTrace ++ [.read a (readByte s a)] }) ∧
    (∀ a v, MicroOp.start m s.regs buf s.ctx = .write a v → MicroOp.writesMemory m = true →
      (∀ r c, MicroOp.resume m s.regs buf s.ctx v ≠ .finish r c) →
      exec i s = .next { s with
        fault := some .opBusContract, bus := busWrite s a v, busTrace := s.busTrace ++ [.write a v],
        ic := icAfterStore s a v, speed := speedAfterStore s a v })

/-- R205: an execution index past the sequence raises `ExecIndexExceeded`. -/
def Obligations.IndexPastTheSequenceFaults : Prop :=
  ∀ (i : Instr) (operands : List Byte) (s : State), genericOperands i = some operands → s.ops.length < s.execIdx →
    exec i s = .next { s with fault := some .execIndexExceeded }

/-- R202, R203 with R192: a sequence of register-only micro-operations runs to retirement in the cycle it begins in. -/
def Obligations.RegisterSequenceRetiresInOneCycle : Prop :=
  ∀ (i : Instr) (operands : List Byte) (s : State), genericOperands i = some operands → s.execIdx ≤ s.ops.length →
    (∀ m ∈ s.ops.drop s.execIdx, registerOp m) →
    ∃ t, exec i s = .next t ∧ t.state = .opcode ∧ t.operandIdx = 0 ∧ t.execIdx = s.ops.length ∧ t.bus = s.bus ∧
      t.busTrace = s.busTrace ∧ t.speed = s.speed ∧ t.video = s.video ∧ t.fault = s.fault

/-- The frame of PLAIN and EXT: whatever their micro-operations do, a machine cycle of theirs leaves the opcode bytes, the operand
buffer, the descriptor, the sequence, the halt-bug flag, the snapshots, the counter, the speed, the parameters and the inputs; the
state is as it was, or OPCODE with the operand index reset. What the video subsystem shows stays too, which for a cycle that injects
a corruption is the model's choice (log entry 23). -/
def Obligations.GenericInstructionFrame : Prop :=
  ∀ (i : Instr) (operands : List Byte) (s t : State), genericOperands i = some operands → exec i s = .next t →
    t.op1 = s.op1 ∧ t.op2 = s.op2 ∧ t.operand = s.operand ∧ t.desc = s.desc ∧ t.ops = s.ops ∧ t.haltBug = s.haltBug ∧
    t.ifSnap = s.ifSnap ∧ t.ieSnap = s.ieSnap ∧ t.subCycle = s.subCycle ∧ t.speed.double = s.speed.double ∧
    t.video.displayEnabled = s.video.displayEnabled ∧ t.video.lineTick = s.video.lineTick ∧
    t.video.searchPhase = s.video.searchPhase ∧ t.params = s.params ∧ t.inputs = s.inputs ∧
    ((t.state = s.state ∧ t.operandIdx = s.operandIdx) ∨ (t.state = .opcode ∧ t.operandIdx = 0))

/-- The memory frame of PLAIN and EXT: when no micro-operation left to run declares a write, a byte of memory reads as before, unless
a corruption is injected and the byte is in memory the video subsystem owns (C10). That a device read changes no byte of the array,
that an undeclared write is not performed, and that a corruption is confined so, are the model's choices (log entries 15, 18
and 23). -/
def Obligations.NonStoringSequenceLeavesMemory : Prop :=
  ∀ (i : Instr) (operands : List Byte) (s t : State), genericOperands i = some operands → exec i s = .next t →
    (∀ m ∈ s.ops.drop s.execIdx, MicroOp.writesMemory m = false) →
    ∀ a : Word,
      (t.video.injected = s.video.injected ∨ (Memory.wf s.bus.mem = true ∧ showsVideo s.params a = false)) →
      Memory.read a.toNat t.bus.mem = Memory.read a.toNat s.bus.mem

/-- The fixture's micro-operations (95_test_vectors.md section 2; log entry 5) as PLAIN and EXT run them: the register, the
byte of memory, the flag or the index each changes, with everything else as it was. -/
def Obligations.FixtureOperationsCompute : Prop :=
  ∀ (i : Instr) (operands : List Byte) (s : State), genericOperands i = some operands → s.busUsed = false →
    let buf := OperandBuf.load s.operand operands
    let address : Word := buf.slot1 ++ buf.slot0
    (s.ops[s.execIdx]? = some .ldAImm →
      exec i s = exec i { s with regs := { s.regs with a := buf.slot0 }, execIdx := s.execIdx + 1 }) ∧
    (s.ops[s.execIdx]? = some .decA →
      exec i s = exec i { s with regs := { s.regs with a := s.regs.a - 1 }, execIdx := s.execIdx + 1 }) ∧
    (s.ops[s.execIdx]? = some .swapA →
      exec i s = exec i { s with regs := { s.regs with a := s.regs.a.rotateLeft 4 }, execIdx := s.execIdx + 1 }) ∧
    (s.ops[s.execIdx]? = some .ldAAbs →
      exec i s = exec i { s with
        regs := { s.regs with a := readByte s address }, bus := (busRead s address).2, busUsed := true,
        busTrace := s.busTrace ++ [.read address (readByte s address)], execIdx := s.execIdx + 1 }) ∧
    (s.ops[s.execIdx]? = some .stAAbs →
      exec i s = exec i { s with
        bus := busWrite s address s.regs.a, ic := icAfterStore s address s.regs.a, speed := speedAfterStore s address s.regs.a,
        busUsed := true, busTrace := s.busTrace ++ [.write address s.regs.a], execIdx := s.execIdx + 1 }) ∧
    (s.ops[s.execIdx]? = some .stAHL →
      exec i s = exec i { s with
        bus := busWrite s s.regs.hl s.regs.a, ic := icAfterStore s s.regs.hl s.regs.a,
        speed := speedAfterStore s s.regs.hl s.regs.a, busUsed := true,
        busTrace := s.busTrace ++ [.write s.regs.hl s.regs.a], execIdx := s.execIdx + 1 }) ∧
    (s.ops[s.execIdx]? = some .incHL → (s.regs.hl < 0xFE00 ∨ 0xFEFF < s.regs.hl) →
      exec i s = .next { s with regs := { s.regs with hl := s.regs.hl + 1 }, execIdx := s.execIdx + 1 }) ∧
    (s.ops[s.execIdx]? = some .addPC →
      exec i s = .next { s with
        regs := { s.regs with pc := s.regs.pc + buf.slot0.signExtend 16 }, execIdx := s.execIdx + 1 }) ∧
    (s.ops[s.execIdx]? = some .proceedIfANZ →
      exec i s = exec i { s with execIdx := if s.regs.a = 0 then s.ops.length else s.execIdx + 1 }) ∧
    (s.ops[s.execIdx]? = some .eiOp →
      exec i s = exec i { s with
        ic := if s.ic.enableDelay = none then { s.ic with enableDelay := some 1 } else s.ic,
        execIdx := s.execIdx + 1 }) ∧
    (s.ops[s.execIdx]? = some .diOp →
      exec i s = exec i { s with ic := { s.ic with ime := false, enableDelay := none }, execIdx := s.execIdx + 1 })

/-- R323 (c): under RETRY, with the display disabled and the predicate firing, an instruction in RUNNING makes no progress in any
number of machine cycles. -/
def Obligations.RetryLivelocksWhileTheDisplayIsOff : Prop :=
  ∀ (n : Nat) (s : State) (m : MicroOp) (k : CorruptionKind), s.cycleEnded → s.state = .running →
    s.op1 ≠ 0x10 → s.op1 ≠ 0x76 → s.ops[s.execIdx]? = some m → MicroOp.corruption m s.regs s.ctx = some k →
    s.video.displayEnabled = false → s.params.abortMode = .retry →
    ∃ t, runSteps (n * ticksPerCycle s) s = .next t ∧ t.state = .running ∧ t.execIdx = s.execIdx ∧ t.regs = s.regs ∧
      t.ctx = s.ctx ∧ t.bus = s.bus ∧ t.ic = s.ic ∧ t.video = s.video ∧ t.fault = none

/-- From R352: an instruction whose micro-operations keep their bus contract, with no corruption abort, retires in the machine cycle
the rule's count gives for the micro-operations that run, the list cut after a fast-forward, and is in RUNNING at the end of every
cycle from its decode to then. Its bytes stand in the flat array; its micro-operations may reach whatever the bus maps.
The display is asked to be enabled only at the start, since an injected corruption leaves it so, which is the model's choice (DESIGN
CHOICE, log entry 23): after one that disabled it a later corruption check would abort. -/
def Obligations.CycleCountOfAnInstruction : Prop :=
  ∀ (s : State) (i : Instr) (operands rest : List Byte) (d : Descriptor), s.cycleEnded → s.state = .opcode →
    (s.ic.ime = false ∨ s.ic.ifl &&& s.ic.ie &&& 0x1F = 0) →
    decode s.params.registry (s.fetchedBytes 4) = .ok (i, rest) → s.fetchesFromArray (encode i).length →
    genericOperands i = some operands →
    resolvedDescriptor s.params.registry (opcodeBytes i).1 (opcodeBytes i).2 = some d → (∀ m ∈ d.ops, keepsContract m) →
    (s.video.displayEnabled = true ∨ ∀ m ∈ d.ops, ∀ regs ctx, MicroOp.corruption m regs ctx = none) →
    let ms := opsRun (OperandBuf.load OperandBuf.clear operands) d.ops (s.decoded i d)
    let c := cycleCount (encode i).length true (ms.map (fun m => (MicroOp.accesses m, MicroOp.forcesCycleEnd m)))
    (∃ t, runSteps (c * ticksPerCycle s) s = .next t ∧ t.state = .opcode ∧ t.fault = none ∧ t.execIdx = d.ops.length) ∧
    (∀ k, (encode i).length ≤ k → k < c → ∃ t, runSteps (k * ticksPerCycle s) s = .next t ∧ t.state = .running)

/-! ## The invariant -/

/-- The state after reset meets the invariant. -/
def Obligations.ResetMeetsTheInvariant : Prop := State.Inv State.reset

/-- Every step keeps the invariant: the canonical memory, the counter below the threshold, at most one bus access, the bounds of
the two indices (R67, R68), the descriptor of the registry in OPERAND and RUNNING, a halt-bug flag only with interrupts masked
(R268), a selected source in the push and jump states. -/
def Obligations.StepKeepsTheInvariant : Prop :=
  ∀ s t : State, State.Inv s → step s = .next t → State.Inv t
end

