-- ==== Sys2Proof/Laws/Decode.lean ====
section
/-! SUPPORT. What decoding can answer, said once. -/

namespace Sys2Proof.Laws.Decode

theorem needsSecond_iff (b : Byte) : needsSecond b = true ↔ b = Config.extByte ∨ b = Config.stopByte := by
  simp [needsSecond]

/-- What taking the operand bytes answers, when it answers them (R105). -/
theorem takeOperands_ok {d : Descriptor} {bs os rest : List Byte} (h : takeOperands d bs = .ok (os, rest)) :
    d.length ≤ Config.operandSlots ∧ os.length = d.length ∧ os = bs.take d.length ∧ os ++ rest = bs := by
  unfold takeOperands at h
  split at h
  · cases h
  · split at h
    · cases h
    · rename_i h1 h2
      cases h
      exact ⟨by omega, by simp; omega, rfl, List.take_append_drop _ _⟩

/-- The four shapes of a decode: an illegal first byte, a one-byte opcode, an illegal second byte, a two-byte opcode
(R108). -/
theorem decode_cases {r : Registry} {bytes rest : List Byte} {i : Instr} (h : decode r bytes = .ok (i, rest)) :
    (∃ b, bytes = b :: rest ∧ i = .illegal b ∧ needsSecond b = false ∧ r.lookup b = none) ∨
    (∃ b d bs os, bytes = b :: bs ∧ needsSecond b = false ∧ r.lookup b = some d ∧
      takeOperands d bs = .ok (os, rest) ∧ i = if b = Config.haltByte then .halt os else .plain b os) ∨
    (∃ b c, bytes = b :: c :: rest ∧ needsSecond b = true ∧ r.lookupExtended c = none ∧
      i = if b = Config.stopByte then .illegalStop c else .illegalExt c) ∨
    (∃ b c d cs os, bytes = b :: c :: cs ∧ needsSecond b = true ∧ r.lookupExtended c = some d ∧
      takeOperands d cs = .ok (os, rest) ∧ i = if b = Config.stopByte then .stop c os else .ext c os) := by
  cases bytes with
  | nil => cases h
  | cons b bs =>
    unfold decode decodeFirst at h
    cases hn : needsSecond b with
    | true =>
      simp only [hn, if_true] at h
      cases bs with
      | nil => cases h
      | cons c cs =>
        simp only [decodeSecond] at h
        cases hl : r.lookupExtended c with
        | none =>
          rw [hl] at h
          cases h
          exact .inr (.inr (.inl ⟨b, c, rfl, hn, hl, rfl⟩))
        | some d =>
          simp only [hl] at h
          cases ht : takeOperands d cs with
          | error e => rw [ht] at h; cases h
          | ok p =>
            obtain ⟨os, rs⟩ := p
            rw [ht] at h
            cases h
            exact .inr (.inr (.inr ⟨b, c, d, cs, os, rfl, hn, hl, ht, rfl⟩))
    | false =>
      simp only [hn, Bool.false_eq_true, if_false] at h
      cases hl : r.lookup b with
      | none =>
        simp only [hl] at h
        cases h
        exact .inl ⟨b, rfl, rfl, hn, hl⟩
      | some d =>
        simp only [hl] at h
        cases ht : takeOperands d bs with
        | error e => rw [ht] at h; cases h
        | ok p =>
          obtain ⟨os, rs⟩ := p
          rw [ht] at h
          cases h
          exact .inr (.inl ⟨b, d, bs, os, rfl, hn, hl, ht, rfl⟩)

theorem tableBytes_length (n w : Nat) : (tableBytes n w).length = n := by
  induction n with
  | zero => rfl
  | succ n ih => simp [tableBytes, ih]

theorem tableWordBytes_length {nbits : Nat} (w : Nat) (h : nbits ≤ 32) : (tableWordBytes nbits w).length = 4 := by
  simp [tableWordBytes, tableBytes_length]; omega

end Sys2Proof.Laws.Decode
end

