-- ==== Sys2Proof/Laws/Memory.lean ====
section
/-! SUPPORT. The laws of memory: read after write, and the canonical form every memory operation keeps. -/

namespace Sys2Proof.Laws.Memory

open Sys2Proof.Machine

@[simp] theorem read_nil (a : Nat) : Memory.read a [] = Memory.unlisted := rfl

@[simp] theorem wf_nil : Memory.wf [] = true := rfl

/-- Below the first address of a rising list every address is unlisted. -/
theorem read_below (a : Nat) (m : Memory) (h : Memory.risesFrom (some a) m = true) :
    Memory.read a m = Memory.unlisted := by
  induction m generalizing a with
  | nil => rfl
  | cons c rest ih =>
    obtain ⟨k, v⟩ := c
    simp only [Memory.risesFrom, Bool.and_eq_true, decide_eq_true_eq] at h
    have hlow : Memory.risesFrom (some a) rest = true := by
      cases rest with
      | nil => rfl
      | cons c' rest' =>
        obtain ⟨k', v'⟩ := c'
        simp only [Memory.risesFrom, Bool.and_eq_true, decide_eq_true_eq] at h ⊢
        exact ⟨by omega, h.2.2⟩
    simp only [Memory.read, if_neg (show ¬ k = a by omega)]
    exact ih a hlow

theorem risesFrom_mono {lo lo' : Nat} {m : Memory} (hle : lo' ≤ lo)
    (h : Memory.risesFrom (some lo) m = true) : Memory.risesFrom (some lo') m = true := by
  cases m with
  | nil => rfl
  | cons c rest =>
    simp only [Memory.risesFrom, Bool.and_eq_true, decide_eq_true_eq] at h ⊢
    exact ⟨by omega, h.2⟩

theorem risesFrom_none {lo : Nat} {m : Memory} (h : Memory.risesFrom (some lo) m = true) :
    Memory.risesFrom none m = true := by
  cases m with
  | nil => rfl
  | cons c rest => exact (Bool.and_eq_true _ _ ▸ h).2

/-- A rising list stays rising under a write of an address above its bound. -/
theorem risesFrom_write {lo a : Nat} (v : Byte) {m : Memory} (hlo : lo < a)
    (h : Memory.risesFrom (some lo) m = true) : Memory.risesFrom (some lo) (Memory.write a v m) = true := by
  induction m generalizing lo with
  | nil => unfold Memory.write; split <;> simp [Memory.risesFrom, hlo]
  | cons c rest ih =>
    obtain ⟨k, w⟩ := c
    simp only [Memory.risesFrom, Bool.and_eq_true, decide_eq_true_eq] at h
    unfold Memory.write
    split
    · split <;> simp [Memory.risesFrom, *]
    · split
      · rename_i heq
        subst heq
        split
        · exact risesFrom_mono (by omega) h.2
        · simp [Memory.risesFrom, *]
      · simp only [Memory.risesFrom, Bool.and_eq_true, decide_eq_true_eq]
        exact ⟨h.1, ih (by omega) h.2⟩

theorem risesFrom_none_write (a : Nat) (v : Byte) {m : Memory} (h : Memory.risesFrom none m = true) :
    Memory.risesFrom none (Memory.write a v m) = true := by
  cases m with
  | nil => unfold Memory.write; split <;> rfl
  | cons c rest =>
    obtain ⟨k, w⟩ := c
    simp only [Memory.risesFrom] at h
    unfold Memory.write
    split
    · split <;> simp [Memory.risesFrom, *]
    · split
      · rename_i heq
        subst heq
        split
        · exact risesFrom_none h
        · exact h
      · exact risesFrom_write v (by omega) h

/-- A write of an address of the space keeps the entries legal. -/
theorem all_write (a : Nat) (v : Byte) {m : Memory} (p : Host.Cell → Bool)
    (hp : v ≠ Memory.unlisted → p (a, v) = true) (h : m.all p = true) :
    (Memory.write a v m).all p = true := by
  induction m with
  | nil => unfold Memory.write; split <;> simp_all
  | cons c rest ih =>
    obtain ⟨k, w⟩ := c
    simp only [List.all_cons, Bool.and_eq_true] at h
    unfold Memory.write
    split
    · split <;> simp_all
    · split
      · split <;> simp_all
      · simp only [List.all_cons, Bool.and_eq_true]
        exact ⟨h.1, ih h.2⟩

/-- Every write of a byte keeps the canonical form. -/
theorem write_wf {a : Nat} (v : Byte) {m : Memory} (ha : a < 2 ^ 16) (h : Memory.wf m = true) :
    Memory.wf (Memory.write a v m) = true := by
  simp only [Memory.wf, Bool.and_eq_true] at h ⊢
  exact ⟨risesFrom_none_write a v h.1, all_write a v _ (fun hv => by simp [hv]; omega) h.2⟩

theorem writeAll_wf (ws : List (Word × Byte)) {m : Memory} (h : Memory.wf m = true) :
    Memory.wf (Memory.writeAll ws m) = true := by
  induction ws generalizing m with
  | nil => exact h
  | cons p ws ih => exact ih (write_wf p.2 p.1.isLt h)

theorem storeBytes_wf (a : Word) (bs : List Byte) {m : Memory} (h : Memory.wf m = true) :
    Memory.wf (storeBytes a bs m) = true := by
  induction bs generalizing a m with
  | nil => exact h
  | cons b bs ih => exact ih (a + 1) (write_wf b a.isLt h)

/-- A rising list, read after a write above its bound. -/
theorem read_write_rising (a b : Nat) (v : Byte) {m : Memory} {lo : Option Nat}
    (h : Memory.risesFrom lo m = true) :
    Memory.read b (Memory.write a v m) = if b = a then v else Memory.read b m := by
  induction m generalizing lo with
  | nil =>
    unfold Memory.write
    split
    · rename_i hv
      simp [hv]
    · simp only [Memory.read, eq_comm (a := a)]
  | cons c rest ih =>
    obtain ⟨k, w⟩ := c
    have hrest : Memory.risesFrom (some k) rest = true := by
      cases lo with
      | none => exact h
      | some lo => exact (Bool.and_eq_true _ _ ▸ h).2
    unfold Memory.write
    split
    · rename_i hak
      have hlow := read_below k rest hrest
      have ha : Memory.read a ((k, w) :: rest) = Memory.unlisted := by
        rw [Memory.read, if_neg (by omega)]
        exact read_below a rest (risesFrom_mono (by omega) hrest)
      split
      · rename_i hv
        split
        · rename_i hba
          rw [hba, ha, hv]
        · rfl
      · simp only [Memory.read, eq_comm (a := a)]
    · split
      · rename_i heq
        subst heq
        have hlow := read_below a rest hrest
        split
        · rename_i hv
          split
          · rename_i hba
            rw [hba, hlow, hv]
          · rename_i hba
            rw [Memory.read, if_neg (by omega)]
        · simp only [Memory.read, eq_comm (a := a)]
          split <;> rfl
      · simp only [Memory.read]
        rw [ih hrest]
        by_cases hkb : k = b
        · rw [if_pos hkb, if_pos hkb, if_neg (by omega)]
        · rw [if_neg hkb, if_neg hkb]

/-- One address further on, and `k` more. -/
theorem succ_offset (a : Word) (k : Nat) : a + 1 + BitVec.ofNat 16 k = a + BitVec.ofNat 16 (k + 1) := by
  rw [BitVec.add_assoc]
  congr 1
  rw [BitVec.add_comm, BitVec.ofNat_add]
  rfl

/-- Bytes stored from `a` on leave every address that is not one of theirs. -/
theorem read_storeBytes_other {a x : Word} (bs : List Byte) {m : Memory} (h : Memory.risesFrom none m = true)
    (hx : ∀ k, k < bs.length → x ≠ a + BitVec.ofNat 16 k) :
    Memory.read x.toNat (storeBytes a bs m) = Memory.read x.toNat m := by
  induction bs generalizing a m with
  | nil => rfl
  | cons b bs ih =>
    rw [storeBytes, ih (risesFrom_none_write _ _ h), read_write_rising _ _ _ h, if_neg]
    · have h0 := hx 0 (by simp)
      simp only [BitVec.add_zero] at h0
      exact fun e => h0 (BitVec.eq_of_toNat_eq e)
    · intro k hk
      have h1 := hx (k + 1) (by simp; omega)
      rwa [succ_offset]

/-- Bytes stored from `a` on are read back, each at its place. -/
theorem read_storeBytes {a : Word} (bs : List Byte) {m : Memory} (h : Memory.risesFrom none m = true)
    (hl : bs.length ≤ 2 ^ 16) (k : Nat) (hk : k < bs.length) :
    Memory.read (a + BitVec.ofNat 16 k).toNat (storeBytes a bs m) = bs[k] := by
  induction bs generalizing a m k with
  | nil => simp at hk
  | cons b bs ih =>
    have hl' : bs.length + 1 ≤ 2 ^ 16 := hl
    have hw := risesFrom_none_write a.toNat b h
    rw [storeBytes]
    cases k with
    | zero =>
      rw [show a + BitVec.ofNat 16 0 = a by simp, read_storeBytes_other _ hw, read_write_rising _ _ _ h, if_pos rfl]
      · rfl
      · intro j hj e
        have e : a.toNat = (a + 1 + BitVec.ofNat 16 j).toNat := congrArg _ e
        simp only [BitVec.toNat_add, BitVec.toNat_ofNat, show (1 : Word).toNat = 1 from rfl] at e
        have := a.isLt
        omega
    | succ k =>
      have h1 := ih hw (by omega) (a := a + 1) k (by simpa using hk)
      rw [succ_offset] at h1
      simpa using h1

/-- A byte of canonical memory after a write. -/
theorem read_write (a b : Nat) (v : Byte) {m : Memory} (h : Memory.wf m = true) :
    Memory.read b (Memory.write a v m) = if b = a then v else Memory.read b m :=
  read_write_rising a b v (Bool.and_eq_true _ _ ▸ h).1

/-- A list of writes leaves every address that is not one of theirs. -/
theorem read_writeAll_other (ws : List (Word × Byte)) {m : Memory} {a : Word} (h : Memory.wf m = true)
    (ha : ∀ w ∈ ws, w.1 ≠ a) : Memory.read a.toNat (Memory.writeAll ws m) = Memory.read a.toNat m := by
  induction ws generalizing m with
  | nil => rfl
  | cons p ws ih =>
    rw [show Memory.writeAll (p :: ws) m = Memory.writeAll ws (Memory.write p.1.toNat p.2 m) from rfl,
      ih (write_wf p.2 p.1.isLt h) (fun w hw => ha w (List.mem_cons_of_mem _ hw)), read_write _ _ _ h,
      if_neg (fun e => ha p (List.mem_cons_self ..) (BitVec.eq_of_toNat_eq e).symm)]

end Sys2Proof.Laws.Memory
end

