-- ==== Sys2Proof/Laws/State.lean ====
section
/-! SUPPORT. One lemma per field for each named update of the state, so that no proof unfolds a record update. -/

namespace Sys2Proof.Laws.State

open Sys2Proof.Machine

/-! ## `raiseFault` -/

@[simp] theorem raiseFault_subCycle (r : Fault) (s : State) : (raiseFault r s).subCycle = s.subCycle := rfl
@[simp] theorem raiseFault_state (r : Fault) (s : State) : (raiseFault r s).state = s.state := rfl
@[simp] theorem raiseFault_op1 (r : Fault) (s : State) : (raiseFault r s).op1 = s.op1 := rfl
@[simp] theorem raiseFault_op2 (r : Fault) (s : State) : (raiseFault r s).op2 = s.op2 := rfl
@[simp] theorem raiseFault_operand (r : Fault) (s : State) : (raiseFault r s).operand = s.operand := rfl
@[simp] theorem raiseFault_operandIdx (r : Fault) (s : State) : (raiseFault r s).operandIdx = s.operandIdx := rfl
@[simp] theorem raiseFault_desc (r : Fault) (s : State) : (raiseFault r s).desc = s.desc := rfl
@[simp] theorem raiseFault_ops (r : Fault) (s : State) : (raiseFault r s).ops = s.ops := rfl
@[simp] theorem raiseFault_execIdx (r : Fault) (s : State) : (raiseFault r s).execIdx = s.execIdx := rfl
@[simp] theorem raiseFault_ctx (r : Fault) (s : State) : (raiseFault r s).ctx = s.ctx := rfl
@[simp] theorem raiseFault_haltBug (r : Fault) (s : State) : (raiseFault r s).haltBug = s.haltBug := rfl
@[simp] theorem raiseFault_ifSnap (r : Fault) (s : State) : (raiseFault r s).ifSnap = s.ifSnap := rfl
@[simp] theorem raiseFault_ieSnap (r : Fault) (s : State) : (raiseFault r s).ieSnap = s.ieSnap := rfl
@[simp] theorem raiseFault_fault (r : Fault) (s : State) : (raiseFault r s).fault = some r := rfl
@[simp] theorem raiseFault_speed (r : Fault) (s : State) : (raiseFault r s).speed = s.speed := rfl
@[simp] theorem raiseFault_ic (r : Fault) (s : State) : (raiseFault r s).ic = s.ic := rfl
@[simp] theorem raiseFault_regs (r : Fault) (s : State) : (raiseFault r s).regs = s.regs := rfl
@[simp] theorem raiseFault_bus (r : Fault) (s : State) : (raiseFault r s).bus = s.bus := rfl
@[simp] theorem raiseFault_video (r : Fault) (s : State) : (raiseFault r s).video = s.video := rfl
@[simp] theorem raiseFault_busUsed (r : Fault) (s : State) : (raiseFault r s).busUsed = s.busUsed := rfl
@[simp] theorem raiseFault_busTrace (r : Fault) (s : State) : (raiseFault r s).busTrace = s.busTrace := rfl
@[simp] theorem raiseFault_params (r : Fault) (s : State) : (raiseFault r s).params = s.params := rfl
@[simp] theorem raiseFault_inputs (r : Fault) (s : State) : (raiseFault r s).inputs = s.inputs := rfl

/-! ## `beginCycle` -/

@[simp] theorem beginCycle_subCycle (s : State) : (beginCycle s).subCycle = 0 := rfl
@[simp] theorem beginCycle_state (s : State) : (beginCycle s).state = s.state := rfl
@[simp] theorem beginCycle_op1 (s : State) : (beginCycle s).op1 = s.op1 := rfl
@[simp] theorem beginCycle_op2 (s : State) : (beginCycle s).op2 = s.op2 := rfl
@[simp] theorem beginCycle_operand (s : State) : (beginCycle s).operand = s.operand := rfl
@[simp] theorem beginCycle_operandIdx (s : State) : (beginCycle s).operandIdx = s.operandIdx := rfl
@[simp] theorem beginCycle_desc (s : State) : (beginCycle s).desc = s.desc := rfl
@[simp] theorem beginCycle_ops (s : State) : (beginCycle s).ops = s.ops := rfl
@[simp] theorem beginCycle_execIdx (s : State) : (beginCycle s).execIdx = s.execIdx := rfl
@[simp] theorem beginCycle_ctx (s : State) : (beginCycle s).ctx = s.ctx := rfl
@[simp] theorem beginCycle_haltBug (s : State) : (beginCycle s).haltBug = s.haltBug := rfl
@[simp] theorem beginCycle_ifSnap (s : State) : (beginCycle s).ifSnap = s.ifSnap := rfl
@[simp] theorem beginCycle_ieSnap (s : State) : (beginCycle s).ieSnap = s.ieSnap := rfl
@[simp] theorem beginCycle_fault (s : State) : (beginCycle s).fault = s.fault := rfl
@[simp] theorem beginCycle_speed (s : State) : (beginCycle s).speed = s.speed := rfl
@[simp] theorem beginCycle_ic (s : State) : (beginCycle s).ic = s.ic := rfl
@[simp] theorem beginCycle_regs (s : State) : (beginCycle s).regs = s.regs := rfl
@[simp] theorem beginCycle_bus (s : State) : (beginCycle s).bus = s.bus := rfl
@[simp] theorem beginCycle_video (s : State) : (beginCycle s).video = s.video := rfl
@[simp] theorem beginCycle_busUsed (s : State) : (beginCycle s).busUsed = s.busUsed := rfl
@[simp] theorem beginCycle_busTrace (s : State) : (beginCycle s).busTrace = [] := rfl
@[simp] theorem beginCycle_params (s : State) : (beginCycle s).params = s.params := rfl
@[simp] theorem beginCycle_inputs (s : State) : (beginCycle s).inputs = s.inputs := rfl

/-! ## `endTick` -/

@[simp] theorem endTick_subCycle (s : State) : (endTick s).subCycle = s.subCycle := rfl
@[simp] theorem endTick_state (s : State) : (endTick s).state = s.state := rfl
@[simp] theorem endTick_op1 (s : State) : (endTick s).op1 = s.op1 := rfl
@[simp] theorem endTick_op2 (s : State) : (endTick s).op2 = s.op2 := rfl
@[simp] theorem endTick_operand (s : State) : (endTick s).operand = s.operand := rfl
@[simp] theorem endTick_operandIdx (s : State) : (endTick s).operandIdx = s.operandIdx := rfl
@[simp] theorem endTick_desc (s : State) : (endTick s).desc = s.desc := rfl
@[simp] theorem endTick_ops (s : State) : (endTick s).ops = s.ops := rfl
@[simp] theorem endTick_execIdx (s : State) : (endTick s).execIdx = s.execIdx := rfl
@[simp] theorem endTick_ctx (s : State) : (endTick s).ctx = s.ctx := rfl
@[simp] theorem endTick_haltBug (s : State) : (endTick s).haltBug = s.haltBug := rfl
@[simp] theorem endTick_ifSnap (s : State) : (endTick s).ifSnap = s.ifSnap := rfl
@[simp] theorem endTick_ieSnap (s : State) : (endTick s).ieSnap = s.ieSnap := rfl
@[simp] theorem endTick_fault (s : State) : (endTick s).fault = s.fault := rfl
@[simp] theorem endTick_speed (s : State) : (endTick s).speed = s.speed := rfl
@[simp] theorem endTick_ic (s : State) : (endTick s).ic = s.ic := rfl
@[simp] theorem endTick_regs (s : State) : (endTick s).regs = s.regs := rfl
@[simp] theorem endTick_bus (s : State) : (endTick s).bus = s.bus := rfl
@[simp] theorem endTick_video (s : State) : (endTick s).video = s.video := rfl
@[simp] theorem endTick_busUsed (s : State) : (endTick s).busUsed = false := rfl
@[simp] theorem endTick_busTrace (s : State) : (endTick s).busTrace = s.busTrace := rfl
@[simp] theorem endTick_params (s : State) : (endTick s).params = s.params := rfl
@[simp] theorem endTick_inputs (s : State) : (endTick s).inputs = s.inputs := rfl

/-! ## `retire` -/

@[simp] theorem retire_subCycle (s : State) : (retire s).subCycle = s.subCycle := rfl
@[simp] theorem retire_state (s : State) : (retire s).state = .opcode := rfl
@[simp] theorem retire_op1 (s : State) : (retire s).op1 = s.op1 := rfl
@[simp] theorem retire_op2 (s : State) : (retire s).op2 = s.op2 := rfl
@[simp] theorem retire_operand (s : State) : (retire s).operand = s.operand := rfl
@[simp] theorem retire_operandIdx (s : State) : (retire s).operandIdx = 0 := rfl
@[simp] theorem retire_desc (s : State) : (retire s).desc = s.desc := rfl
@[simp] theorem retire_ops (s : State) : (retire s).ops = s.ops := rfl
@[simp] theorem retire_execIdx (s : State) : (retire s).execIdx = s.execIdx := rfl
@[simp] theorem retire_ctx (s : State) : (retire s).ctx = s.ctx := rfl
@[simp] theorem retire_haltBug (s : State) : (retire s).haltBug = s.haltBug := rfl
@[simp] theorem retire_ifSnap (s : State) : (retire s).ifSnap = s.ifSnap := rfl
@[simp] theorem retire_ieSnap (s : State) : (retire s).ieSnap = s.ieSnap := rfl
@[simp] theorem retire_fault (s : State) : (retire s).fault = s.fault := rfl
@[simp] theorem retire_speed (s : State) : (retire s).speed = s.speed := rfl
@[simp] theorem retire_ic (s : State) : (retire s).ic = IntCtrl.onInstructionRetired s.ic := rfl
@[simp] theorem retire_regs (s : State) : (retire s).regs = s.regs := rfl
@[simp] theorem retire_bus (s : State) : (retire s).bus = s.bus := rfl
@[simp] theorem retire_video (s : State) : (retire s).video = s.video := rfl
@[simp] theorem retire_busUsed (s : State) : (retire s).busUsed = s.busUsed := rfl
@[simp] theorem retire_busTrace (s : State) : (retire s).busTrace = s.busTrace := rfl
@[simp] theorem retire_params (s : State) : (retire s).params = s.params := rfl
@[simp] theorem retire_inputs (s : State) : (retire s).inputs = s.inputs := rfl

/-! ## `incPC` -/

@[simp] theorem incPC_subCycle (s : State) : (incPC s).subCycle = s.subCycle := rfl
@[simp] theorem incPC_state (s : State) : (incPC s).state = s.state := rfl
@[simp] theorem incPC_op1 (s : State) : (incPC s).op1 = s.op1 := rfl
@[simp] theorem incPC_op2 (s : State) : (incPC s).op2 = s.op2 := rfl
@[simp] theorem incPC_operand (s : State) : (incPC s).operand = s.operand := rfl
@[simp] theorem incPC_operandIdx (s : State) : (incPC s).operandIdx = s.operandIdx := rfl
@[simp] theorem incPC_desc (s : State) : (incPC s).desc = s.desc := rfl
@[simp] theorem incPC_ops (s : State) : (incPC s).ops = s.ops := rfl
@[simp] theorem incPC_execIdx (s : State) : (incPC s).execIdx = s.execIdx := rfl
@[simp] theorem incPC_ctx (s : State) : (incPC s).ctx = s.ctx := rfl
@[simp] theorem incPC_haltBug (s : State) : (incPC s).haltBug = s.haltBug := rfl
@[simp] theorem incPC_ifSnap (s : State) : (incPC s).ifSnap = s.ifSnap := rfl
@[simp] theorem incPC_ieSnap (s : State) : (incPC s).ieSnap = s.ieSnap := rfl
@[simp] theorem incPC_fault (s : State) : (incPC s).fault = s.fault := rfl
@[simp] theorem incPC_speed (s : State) : (incPC s).speed = s.speed := rfl
@[simp] theorem incPC_ic (s : State) : (incPC s).ic = s.ic := rfl
@[simp] theorem incPC_regs (s : State) : (incPC s).regs = { s.regs with pc := s.regs.pc + 1 } := rfl
@[simp] theorem incPC_bus (s : State) : (incPC s).bus = s.bus := rfl
@[simp] theorem incPC_video (s : State) : (incPC s).video = s.video := rfl
@[simp] theorem incPC_busUsed (s : State) : (incPC s).busUsed = s.busUsed := rfl
@[simp] theorem incPC_busTrace (s : State) : (incPC s).busTrace = s.busTrace := rfl
@[simp] theorem incPC_params (s : State) : (incPC s).params = s.params := rfl
@[simp] theorem incPC_inputs (s : State) : (incPC s).inputs = s.inputs := rfl

/-! ## `afterRead` -/

@[simp] theorem afterRead_subCycle (s : State) (a : Word) : (afterRead s a).subCycle = s.subCycle := rfl
@[simp] theorem afterRead_state (s : State) (a : Word) : (afterRead s a).state = s.state := rfl
@[simp] theorem afterRead_op1 (s : State) (a : Word) : (afterRead s a).op1 = s.op1 := rfl
@[simp] theorem afterRead_op2 (s : State) (a : Word) : (afterRead s a).op2 = s.op2 := rfl
@[simp] theorem afterRead_operand (s : State) (a : Word) : (afterRead s a).operand = s.operand := rfl
@[simp] theorem afterRead_operandIdx (s : State) (a : Word) : (afterRead s a).operandIdx = s.operandIdx := rfl
@[simp] theorem afterRead_desc (s : State) (a : Word) : (afterRead s a).desc = s.desc := rfl
@[simp] theorem afterRead_ops (s : State) (a : Word) : (afterRead s a).ops = s.ops := rfl
@[simp] theorem afterRead_execIdx (s : State) (a : Word) : (afterRead s a).execIdx = s.execIdx := rfl
@[simp] theorem afterRead_ctx (s : State) (a : Word) : (afterRead s a).ctx = s.ctx := rfl
@[simp] theorem afterRead_haltBug (s : State) (a : Word) : (afterRead s a).haltBug = s.haltBug := rfl
@[simp] theorem afterRead_ifSnap (s : State) (a : Word) : (afterRead s a).ifSnap = s.ifSnap := rfl
@[simp] theorem afterRead_ieSnap (s : State) (a : Word) : (afterRead s a).ieSnap = s.ieSnap := rfl
@[simp] theorem afterRead_fault (s : State) (a : Word) : (afterRead s a).fault = s.fault := rfl
@[simp] theorem afterRead_speed (s : State) (a : Word) : (afterRead s a).speed = s.speed := rfl
@[simp] theorem afterRead_ic (s : State) (a : Word) : (afterRead s a).ic = s.ic := rfl
@[simp] theorem afterRead_regs (s : State) (a : Word) : (afterRead s a).regs = s.regs := rfl
@[simp] theorem afterRead_bus (s : State) (a : Word) : (afterRead s a).bus = (busRead s a).2 := rfl
@[simp] theorem afterRead_video (s : State) (a : Word) : (afterRead s a).video = s.video := rfl
@[simp] theorem afterRead_busUsed (s : State) (a : Word) : (afterRead s a).busUsed = s.busUsed := rfl
@[simp] theorem afterRead_busTrace (s : State) (a : Word) : (afterRead s a).busTrace = s.busTrace ++ [.read a (readByte s a)] := rfl
@[simp] theorem afterRead_params (s : State) (a : Word) : (afterRead s a).params = s.params := rfl
@[simp] theorem afterRead_inputs (s : State) (a : Word) : (afterRead s a).inputs = s.inputs := rfl

/-! ## `writeByte` -/

@[simp] theorem writeByte_subCycle (s : State) (a : Word) (v : Byte) : (writeByte s a v).subCycle = s.subCycle := rfl
@[simp] theorem writeByte_state (s : State) (a : Word) (v : Byte) : (writeByte s a v).state = s.state := rfl
@[simp] theorem writeByte_op1 (s : State) (a : Word) (v : Byte) : (writeByte s a v).op1 = s.op1 := rfl
@[simp] theorem writeByte_op2 (s : State) (a : Word) (v : Byte) : (writeByte s a v).op2 = s.op2 := rfl
@[simp] theorem writeByte_operand (s : State) (a : Word) (v : Byte) : (writeByte s a v).operand = s.operand := rfl
@[simp] theorem writeByte_operandIdx (s : State) (a : Word) (v : Byte) : (writeByte s a v).operandIdx = s.operandIdx := rfl
@[simp] theorem writeByte_desc (s : State) (a : Word) (v : Byte) : (writeByte s a v).desc = s.desc := rfl
@[simp] theorem writeByte_ops (s : State) (a : Word) (v : Byte) : (writeByte s a v).ops = s.ops := rfl
@[simp] theorem writeByte_execIdx (s : State) (a : Word) (v : Byte) : (writeByte s a v).execIdx = s.execIdx := rfl
@[simp] theorem writeByte_ctx (s : State) (a : Word) (v : Byte) : (writeByte s a v).ctx = s.ctx := rfl
@[simp] theorem writeByte_haltBug (s : State) (a : Word) (v : Byte) : (writeByte s a v).haltBug = s.haltBug := rfl
@[simp] theorem writeByte_ifSnap (s : State) (a : Word) (v : Byte) : (writeByte s a v).ifSnap = s.ifSnap := rfl
@[simp] theorem writeByte_ieSnap (s : State) (a : Word) (v : Byte) : (writeByte s a v).ieSnap = s.ieSnap := rfl
@[simp] theorem writeByte_fault (s : State) (a : Word) (v : Byte) : (writeByte s a v).fault = s.fault := rfl
@[simp] theorem writeByte_speed (s : State) (a : Word) (v : Byte) : (writeByte s a v).speed = s.speed := rfl
@[simp] theorem writeByte_ic (s : State) (a : Word) (v : Byte) : (writeByte s a v).ic = s.ic := rfl
@[simp] theorem writeByte_regs (s : State) (a : Word) (v : Byte) : (writeByte s a v).regs = s.regs := rfl
@[simp] theorem writeByte_bus (s : State) (a : Word) (v : Byte) : (writeByte s a v).bus = busWrite s a v := rfl
@[simp] theorem writeByte_video (s : State) (a : Word) (v : Byte) : (writeByte s a v).video = s.video := rfl
@[simp] theorem writeByte_busUsed (s : State) (a : Word) (v : Byte) : (writeByte s a v).busUsed = s.busUsed := rfl
@[simp] theorem writeByte_busTrace (s : State) (a : Word) (v : Byte) : (writeByte s a v).busTrace = s.busTrace ++ [.write a v] := rfl
@[simp] theorem writeByte_params (s : State) (a : Word) (v : Byte) : (writeByte s a v).params = s.params := rfl
@[simp] theorem writeByte_inputs (s : State) (a : Word) (v : Byte) : (writeByte s a v).inputs = s.inputs := rfl

/-! ## `storeByte` -/

@[simp] theorem storeByte_subCycle (s : State) (a : Word) (v : Byte) : (storeByte s a v).subCycle = s.subCycle := rfl
@[simp] theorem storeByte_state (s : State) (a : Word) (v : Byte) : (storeByte s a v).state = s.state := rfl
@[simp] theorem storeByte_op1 (s : State) (a : Word) (v : Byte) : (storeByte s a v).op1 = s.op1 := rfl
@[simp] theorem storeByte_op2 (s : State) (a : Word) (v : Byte) : (storeByte s a v).op2 = s.op2 := rfl
@[simp] theorem storeByte_operand (s : State) (a : Word) (v : Byte) : (storeByte s a v).operand = s.operand := rfl
@[simp] theorem storeByte_operandIdx (s : State) (a : Word) (v : Byte) : (storeByte s a v).operandIdx = s.operandIdx := rfl
@[simp] theorem storeByte_desc (s : State) (a : Word) (v : Byte) : (storeByte s a v).desc = s.desc := rfl
@[simp] theorem storeByte_ops (s : State) (a : Word) (v : Byte) : (storeByte s a v).ops = s.ops := rfl
@[simp] theorem storeByte_execIdx (s : State) (a : Word) (v : Byte) : (storeByte s a v).execIdx = s.execIdx := rfl
@[simp] theorem storeByte_ctx (s : State) (a : Word) (v : Byte) : (storeByte s a v).ctx = s.ctx := rfl
@[simp] theorem storeByte_haltBug (s : State) (a : Word) (v : Byte) : (storeByte s a v).haltBug = s.haltBug := rfl
@[simp] theorem storeByte_ifSnap (s : State) (a : Word) (v : Byte) : (storeByte s a v).ifSnap = s.ifSnap := rfl
@[simp] theorem storeByte_ieSnap (s : State) (a : Word) (v : Byte) : (storeByte s a v).ieSnap = s.ieSnap := rfl
@[simp] theorem storeByte_fault (s : State) (a : Word) (v : Byte) : (storeByte s a v).fault = s.fault := rfl
@[simp] theorem storeByte_speed (s : State) (a : Word) (v : Byte) : (storeByte s a v).speed = speedAfterStore s a v := rfl
@[simp] theorem storeByte_ic (s : State) (a : Word) (v : Byte) : (storeByte s a v).ic = icAfterStore s a v := rfl
@[simp] theorem storeByte_regs (s : State) (a : Word) (v : Byte) : (storeByte s a v).regs = s.regs := rfl
@[simp] theorem storeByte_bus (s : State) (a : Word) (v : Byte) : (storeByte s a v).bus = busWrite s a v := rfl
@[simp] theorem storeByte_video (s : State) (a : Word) (v : Byte) : (storeByte s a v).video = s.video := rfl
@[simp] theorem storeByte_busUsed (s : State) (a : Word) (v : Byte) : (storeByte s a v).busUsed = s.busUsed := rfl
@[simp] theorem storeByte_busTrace (s : State) (a : Word) (v : Byte) : (storeByte s a v).busTrace = s.busTrace ++ [.write a v] := rfl
@[simp] theorem storeByte_params (s : State) (a : Word) (v : Byte) : (storeByte s a v).params = s.params := rfl
@[simp] theorem storeByte_inputs (s : State) (a : Word) (v : Byte) : (storeByte s a v).inputs = s.inputs := rfl

/-! ## `clearTransient` -/

@[simp] theorem clearTransient_subCycle (s : State) : (clearTransient s).subCycle = s.subCycle := rfl
@[simp] theorem clearTransient_state (s : State) : (clearTransient s).state = s.state := rfl
@[simp] theorem clearTransient_op1 (s : State) : (clearTransient s).op1 = 0x00 := rfl
@[simp] theorem clearTransient_op2 (s : State) : (clearTransient s).op2 = 0x00 := rfl
@[simp] theorem clearTransient_operand (s : State) : (clearTransient s).operand = OperandBuf.clear := rfl
@[simp] theorem clearTransient_operandIdx (s : State) : (clearTransient s).operandIdx = 0 := rfl
@[simp] theorem clearTransient_desc (s : State) : (clearTransient s).desc = none := rfl
@[simp] theorem clearTransient_ops (s : State) : (clearTransient s).ops = [] := rfl
@[simp] theorem clearTransient_execIdx (s : State) : (clearTransient s).execIdx = 0 := rfl
@[simp] theorem clearTransient_ctx (s : State) : (clearTransient s).ctx = s.params.ctx0 := rfl
@[simp] theorem clearTransient_haltBug (s : State) : (clearTransient s).haltBug = s.haltBug := rfl
@[simp] theorem clearTransient_ifSnap (s : State) : (clearTransient s).ifSnap = 0x00 := rfl
@[simp] theorem clearTransient_ieSnap (s : State) : (clearTransient s).ieSnap = 0x00 := rfl
@[simp] theorem clearTransient_fault (s : State) : (clearTransient s).fault = s.fault := rfl
@[simp] theorem clearTransient_speed (s : State) : (clearTransient s).speed = s.speed := rfl
@[simp] theorem clearTransient_ic (s : State) : (clearTransient s).ic = s.ic := rfl
@[simp] theorem clearTransient_regs (s : State) : (clearTransient s).regs = s.regs := rfl
@[simp] theorem clearTransient_bus (s : State) : (clearTransient s).bus = s.bus := rfl
@[simp] theorem clearTransient_video (s : State) : (clearTransient s).video = s.video := rfl
@[simp] theorem clearTransient_busUsed (s : State) : (clearTransient s).busUsed = s.busUsed := rfl
@[simp] theorem clearTransient_busTrace (s : State) : (clearTransient s).busTrace = s.busTrace := rfl
@[simp] theorem clearTransient_params (s : State) : (clearTransient s).params = s.params := rfl
@[simp] theorem clearTransient_inputs (s : State) : (clearTransient s).inputs = s.inputs := rfl

/-! ## `loadOps` -/

@[simp] theorem loadOps_subCycle (d : Descriptor) (s : State) : (loadOps d s).subCycle = s.subCycle := rfl
@[simp] theorem loadOps_state (d : Descriptor) (s : State) : (loadOps d s).state = .running := rfl
@[simp] theorem loadOps_op1 (d : Descriptor) (s : State) : (loadOps d s).op1 = s.op1 := rfl
@[simp] theorem loadOps_op2 (d : Descriptor) (s : State) : (loadOps d s).op2 = s.op2 := rfl
@[simp] theorem loadOps_operand (d : Descriptor) (s : State) : (loadOps d s).operand = s.operand := rfl
@[simp] theorem loadOps_operandIdx (d : Descriptor) (s : State) : (loadOps d s).operandIdx = s.operandIdx := rfl
@[simp] theorem loadOps_desc (d : Descriptor) (s : State) : (loadOps d s).desc = s.desc := rfl
@[simp] theorem loadOps_ops (d : Descriptor) (s : State) : (loadOps d s).ops = d.ops := rfl
@[simp] theorem loadOps_execIdx (d : Descriptor) (s : State) : (loadOps d s).execIdx = s.execIdx := rfl
@[simp] theorem loadOps_ctx (d : Descriptor) (s : State) : (loadOps d s).ctx = s.ctx := rfl
@[simp] theorem loadOps_haltBug (d : Descriptor) (s : State) : (loadOps d s).haltBug = s.haltBug := rfl
@[simp] theorem loadOps_ifSnap (d : Descriptor) (s : State) : (loadOps d s).ifSnap = s.ifSnap := rfl
@[simp] theorem loadOps_ieSnap (d : Descriptor) (s : State) : (loadOps d s).ieSnap = s.ieSnap := rfl
@[simp] theorem loadOps_fault (d : Descriptor) (s : State) : (loadOps d s).fault = s.fault := rfl
@[simp] theorem loadOps_speed (d : Descriptor) (s : State) : (loadOps d s).speed = s.speed := rfl
@[simp] theorem loadOps_ic (d : Descriptor) (s : State) : (loadOps d s).ic = s.ic := rfl
@[simp] theorem loadOps_regs (d : Descriptor) (s : State) : (loadOps d s).regs = s.regs := rfl
@[simp] theorem loadOps_bus (d : Descriptor) (s : State) : (loadOps d s).bus = s.bus := rfl
@[simp] theorem loadOps_video (d : Descriptor) (s : State) : (loadOps d s).video = s.video := rfl
@[simp] theorem loadOps_busUsed (d : Descriptor) (s : State) : (loadOps d s).busUsed = s.busUsed := rfl
@[simp] theorem loadOps_busTrace (d : Descriptor) (s : State) : (loadOps d s).busTrace = s.busTrace := rfl
@[simp] theorem loadOps_params (d : Descriptor) (s : State) : (loadOps d s).params = s.params := rfl
@[simp] theorem loadOps_inputs (d : Descriptor) (s : State) : (loadOps d s).inputs = s.inputs := rfl

end Sys2Proof.Laws.State
end

