-- ==== Sys2Proof/Laws/Ops.lean ====
section
/-! SUPPORT. What the shared operations over the bus, the interrupt controller and the dispatch states can do, said once. -/

namespace Sys2Proof.Laws.Ops

open Sys2Proof.Machine

/-! ## Masks, requests, speed -/

/-- The selection finds nothing exactly when no source is in both masks (R262). -/
theorem lowestSource_eq_none (a b : Byte) :
    lowestSource (bothMasks a b) = none ↔ bothMasks a b = 0 := by
  have h : ∀ m : Byte, lowestSource (m &&& Config.reqMask) = none ↔ m &&& Config.reqMask = 0 := by decide
  exact h (a &&& b)

theorem requested_iff (ic : IntCtrl) : IntCtrl.requested ic = true ↔ bothMasks ic.ifl ic.ie ≠ 0 := by
  simp [IntCtrl.requested]

/-- The request condition as R307 writes it. -/
theorem requested_iff_masks (ic : IntCtrl) :
    IntCtrl.requested ic = true ↔ ic.ifl &&& ic.ie &&& 0x1F ≠ 0 := requested_iff ic

/-- The source selected is in the mask, and no lower one is (R26, R262). -/
theorem lowestSource_spec (m : Byte) (h : m &&& 0x1F ≠ 0) :
    ∃ src : IrqSource, lowestSource (m &&& 0x1F) = some src ∧ m.getLsbD (IrqSource.index src) = true ∧
      ∀ j, j < IrqSource.index src → m.getLsbD j = false := by
  have all : ∀ m : Byte, m &&& 0x1F ≠ 0 →
      ∃ src ∈ [IrqSource.vblank, .lcdStat, .timer, .serial, .joypad],
        lowestSource (m &&& 0x1F) = some src ∧ m.getLsbD (IrqSource.index src) = true ∧
        ∀ j, j < IrqSource.index src → m.getLsbD j = false := by decide
  obtain ⟨src, _, hs⟩ := all m h
  exact ⟨src, hs⟩

/-- A source in the mask below which there is none is the one selected (R26, R262). -/
theorem lowestSource_eq_some (m : Byte) (src : IrqSource) (h1 : m.getLsbD (IrqSource.index src) = true)
    (h2 : ∀ j, j < IrqSource.index src → m.getLsbD j = false) : lowestSource (m &&& 0x1F) = some src := by
  revert m
  cases src <;> decide

theorem ticksPerCycle_eq (s : State) : ticksPerCycle s = if s.speed.double then 2 else 4 := by
  unfold ticksPerCycle SpeedMode.ticksPerCycle
  cases s.speed.double <;> rfl

theorem ticksPerCycle_pos (s : State) : 0 < ticksPerCycle s := by
  rw [ticksPerCycle_eq]; split <;> omega

/-- A threshold depends on the speed alone. -/
theorem ticksPerCycle_congr {s t : State} (h : t.speed.double = s.speed.double) :
    ticksPerCycle t = ticksPerCycle s := by
  rw [ticksPerCycle_eq, ticksPerCycle_eq, h]

/-! ## The bus -/

/-- Where the bus maps nothing a read gives the byte of memory and changes nothing (R81). -/
theorem busRead_array {s : State} {a : Word} (hc : mapsControl s.params a = false) (hd : mapsDevice s.params a = false) :
    busRead s a = (Memory.read a.toNat s.bus.mem, s.bus) := by
  simp [busRead, hc, hd]

/-- On the reference bus a read gives the byte of memory and changes nothing (R81). -/
theorem busRead_plain {s : State} (hc : s.params.flagAddr = none) (he : s.params.enableAddr = none)
    (hs : s.params.speedAddr = none) (hw : s.params.windows = []) (a : Word) :
    busRead s a = (Memory.read a.toNat s.bus.mem, s.bus) :=
  busRead_array (by simp [mapsControl, hc, he, hs]) (by simp [mapsDevice, hw])

/-- A read changes no byte of memory. -/
@[simp] theorem busRead_mem (s : State) (a : Word) : (busRead s a).2.mem = s.bus.mem := by
  unfold busRead; split
  · rfl
  · split <;> rfl

/-- A write changes memory only by the byte written. -/
theorem busWrite_mem (s : State) (a : Word) (v : Byte) :
    (busWrite s a v).mem = s.bus.mem ∨ (busWrite s a v).mem = Memory.write a.toNat v s.bus.mem := by
  unfold busWrite; split
  · exact .inl rfl
  · exact .inr rfl

/-- A write keeps the canonical form of memory. -/
theorem busWrite_wf (s : State) (a : Word) (v : Byte) (h : Memory.wf s.bus.mem = true) :
    Memory.wf (busWrite s a v).mem = true := by
  obtain e | e := busWrite_mem s a v <;> rw [e]
  · exact h
  · exact Laws.Memory.write_wf v a.isLt h

/-- A write leaves every other byte of memory. -/
theorem read_busWrite_other {s : State} {a b : Word} (v : Byte) (h : Memory.wf s.bus.mem = true) (hb : b ≠ a) :
    Memory.read b.toNat (busWrite s a v).mem = Memory.read b.toNat s.bus.mem := by
  obtain e | e := busWrite_mem s a v <;> rw [e]
  rw [Laws.Memory.read_write _ _ _ h, if_neg (fun e => hb (BitVec.eq_of_toNat_eq e))]

/-- Where no device is mapped the byte written reads back (R93). -/
theorem read_busWrite_same {s : State} {a : Word} (v : Byte) (h : Memory.wf s.bus.mem = true)
    (hw : s.params.windows = []) : Memory.read a.toNat (busWrite s a v).mem = v := by
  simp [busWrite, mapsDevice, hw, Laws.Memory.read_write _ _ _ h]

/-- A store changes the controller's masks alone (R52). -/
theorem icAfterStore_ime (s : State) (a : Word) (v : Byte) :
    (icAfterStore s a v).ime = s.ic.ime ∧ (icAfterStore s a v).enableDelay = s.ic.enableDelay := by
  unfold icAfterStore; split
  · exact ⟨rfl, rfl⟩
  · split <;> exact ⟨rfl, rfl⟩

/-- A store never changes the speed, only whether a switch is armed (R42). -/
theorem speedAfterStore_double (s : State) (a : Word) (v : Byte) :
    (speedAfterStore s a v).double = s.speed.double := by
  unfold speedAfterStore; split <;> rfl

/-! ## The dispatch states -/

/-- What preemption does: nothing, or the move to `IRQ_READ_IF` (R133). -/
theorem preempt_cases (s : State) :
    (preempts s = false ∧ preempt s = s) ∨
    (preempts s = true ∧ SeqState.isPreemptible s.state = true ∧ s.ic.ime = true ∧
      preempt s = { s with
        state := .irqReadIF,
        video := if s.state = .stopped then { s.video with displayEnabled := true } else s.video }) := by
  unfold preempt
  cases h : preempts s
  · exact .inl ⟨rfl, rfl⟩
  · refine .inr ⟨rfl, ?_, ?_, rfl⟩ <;> simp_all [preempts]

/-- What the HALTED wake does: nothing, or the move to `OPCODE` (R135). -/
theorem haltWake_cases (s : State) :
    haltWake s = s ∨ (s.state = .halted ∧ haltWake s = { s with state := .opcode }) := by
  unfold haltWake
  split
  · rename_i h; exact .inr ⟨h.1, rfl⟩
  · exact .inl rfl

/-- What `IRQ_READ_IE` does: the spurious wake, or the selection (R262, R263). -/
theorem readIE_cases (s : State) :
    (bothMasks s.ifSnap s.ic.ie = 0 ∧ readIE s = { s with ieSnap := s.ic.ie, state := .opcode }) ∨
    (∃ src, lowestSource (bothMasks s.ifSnap s.ic.ie) = some src ∧ bothMasks s.ifSnap s.ic.ie ≠ 0 ∧
      readIE s = { s with
        ieSnap := s.ic.ie, state := .irqPush1,
        ic := IntCtrl.setMasterEnabled (IntCtrl.clearPending s.ic src) false }) := by
  unfold readIE
  cases h : lowestSource (bothMasks s.ifSnap s.ic.ie) with
  | none => exact .inl ⟨(lowestSource_eq_none _ _).mp h, rfl⟩
  | some src =>
    refine .inr ⟨src, rfl, fun h0 => ?_, rfl⟩
    rw [(lowestSource_eq_none _ _).mpr h0] at h
    exact absurd h (by simp)

/-- What `IRQ_JUMP` does: the vector, or the fault for an empty selection (R266). -/
theorem jump_cases (s : State) :
    (bothMasks s.ifSnap s.ieSnap = 0 ∧ jump s = raiseFault .protocolViolation s) ∨
    (∃ src, lowestSource (bothMasks s.ifSnap s.ieSnap) = some src ∧
      jump s = { s with regs := { s.regs with pc := s.params.vectors.get src }, state := .opcode }) := by
  unfold jump
  cases h : lowestSource (bothMasks s.ifSnap s.ieSnap) with
  | none => exact .inl ⟨(lowestSource_eq_none _ _).mp h, rfl⟩
  | some src => exact .inr ⟨src, rfl, rfl⟩

end Sys2Proof.Laws.Ops
end

