-- ==== Sys2Proof/Laws/MicroOps.lean ====
section
/-! SUPPORT. What running a micro-operation can do, said once, and the induction over the RUNNING walk. -/

namespace Sys2Proof.Laws.MicroOps

open Sys2Proof.Machine

/-- What `execute` leaves when it ends: no bus call, one declared read, or one declared store (R195). -/
theorem executeOp_ran {buf : OperandBuf} {m : MicroOp} {s t : State} (h : executeOp buf m s = .ran t) :
    ∃ regs ctx,
      (MicroOp.start m s.regs buf s.ctx = .finish regs ctx ∧ t = { s with regs := regs, ctx := ctx }) ∨
      (∃ a, MicroOp.start m s.regs buf s.ctx = .read a ∧ MicroOp.readsMemory m = true ∧
        MicroOp.resume m s.regs buf s.ctx (readByte s a) = .finish regs ctx ∧
        t = { afterRead s a with regs := regs, ctx := ctx }) ∨
      (∃ a v, MicroOp.start m s.regs buf s.ctx = .write a v ∧ MicroOp.writesMemory m = true ∧
        MicroOp.resume m s.regs buf s.ctx v = .finish regs ctx ∧
        t = { storeByte s a v with regs := regs, ctx := ctx }) := by
  unfold executeOp finishExecute at h
  split at h
  · rename_i regs ctx hs
    cases h
    exact ⟨regs, ctx, .inl ⟨hs, rfl⟩⟩
  · rename_i a hs
    split at h
    · rename_i hr
      split at h
      · rename_i regs ctx hres
        cases h
        exact ⟨regs, ctx, .inr (.inl ⟨a, hs, hr, hres, rfl⟩)⟩
      · cases h
      · cases h
    · cases h
  · rename_i a v hs
    split at h
    · rename_i hw
      split at h
      · rename_i regs ctx hres
        cases h
        exact ⟨regs, ctx, .inr (.inr ⟨a, v, hs, hw, hres, rfl⟩)⟩
      · cases h
      · cases h
    · cases h

/-- `execute` with no bus call (R195). -/
theorem executeOp_finish {buf : OperandBuf} {m : MicroOp} {s : State} {regs : RegFile} {ctx : Ctx}
    (h : MicroOp.start m s.regs buf s.ctx = .finish regs ctx) :
    executeOp buf m s = .ran { s with regs := regs, ctx := ctx } := by
  rw [executeOp, h]

/-- `execute` with one declared read (R195). -/
theorem executeOp_read {buf : OperandBuf} {m : MicroOp} {s : State} {a : Word} {regs : RegFile} {ctx : Ctx}
    (h : MicroOp.start m s.regs buf s.ctx = .read a) (hr : MicroOp.readsMemory m = true)
    (hres : MicroOp.resume m s.regs buf s.ctx (readByte s a) = .finish regs ctx) :
    executeOp buf m s = .ran { afterRead s a with regs := regs, ctx := ctx } := by
  rw [executeOp, h]
  simp only [hr, if_true, finishExecute, hres]

/-- `execute` with one declared store (R195). -/
theorem executeOp_write {buf : OperandBuf} {m : MicroOp} {s : State} {a : Word} {v : Byte} {regs : RegFile} {ctx : Ctx}
    (h : MicroOp.start m s.regs buf s.ctx = .write a v) (hw : MicroOp.writesMemory m = true)
    (hres : MicroOp.resume m s.regs buf s.ctx v = .finish regs ctx) :
    executeOp buf m s = .ran { storeByte s a v with regs := regs, ctx := ctx } := by
  rw [executeOp, h]
  simp only [hw, if_true, finishExecute, hres]

/-- What a broken bus contract leaves: the fault, with the first bus call made or none (R195). -/
theorem executeOp_raised {buf : OperandBuf} {m : MicroOp} {s t : State} (h : executeOp buf m s = .raised t) :
    t = raiseFault .opBusContract s ∨
    (∃ a, MicroOp.readsMemory m = true ∧ t = raiseFault .opBusContract (afterRead s a)) ∨
    (∃ a v, MicroOp.start m s.regs buf s.ctx = .write a v ∧ MicroOp.writesMemory m = true ∧
      t = raiseFault .opBusContract (storeByte s a v)) := by
  unfold executeOp finishExecute at h
  split at h
  · cases h
  · rename_i a hs
    split at h
    · rename_i hr
      split at h
      · cases h
      · cases h; exact .inr (.inl ⟨a, hr, rfl⟩)
      · cases h; exact .inr (.inl ⟨a, hr, rfl⟩)
    · cases h; exact .inl rfl
  · rename_i a v hs
    split at h
    · rename_i hw
      split at h
      · cases h
      · cases h; exact .inr (.inr ⟨a, v, hs, hw, rfl⟩)
      · cases h; exact .inr (.inr ⟨a, v, hs, hw, rfl⟩)
    · cases h; exact .inl rfl

/-- `performOp` ends as `execute` does, with the toggles, the advance and the fast-forward after it. -/
theorem performOp_ran {buf : OperandBuf} {m : MicroOp} {s t : State} (h : performOp buf m s = .ran t) :
    ∃ u, executeOp buf m s = .ran u ∧ t = fastForward m (toggleAndAdvance m u) := by
  unfold performOp at h
  split at h
  · cases h
  · rename_i u hu; cases h; exact ⟨u, hu, rfl⟩

theorem performOp_raised {buf : OperandBuf} {m : MicroOp} {s t : State} (h : performOp buf m s = .raised t) :
    executeOp buf m s = .raised t := by
  unfold performOp at h
  split at h
  · rename_i u hu; cases h; exact hu
  · cases h

/-- The fast-forward changes the index alone. -/
theorem fastForward_cases (m : MicroOp) (s : State) :
    fastForward m s = s ∨ fastForward m s = { s with execIdx := s.ops.length } := by
  unfold fastForward; split
  · exact .inl rfl
  · exact .inr rfl

/-- The toggles, the advance and the fast-forward in one record (R196, R197). -/
theorem fastForward_toggle (m : MicroOp) (s : State) :
    fastForward m (toggleAndAdvance m s) = { s with
      ic := IntCtrl.calls s.ic (MicroOp.toggles m s.ic),
      execIdx := if MicroOp.shouldProceed m s.regs then s.execIdx + 1 else s.ops.length } := by
  unfold fastForward toggleAndAdvance
  dsimp only
  split <;> rfl

/-- With the bus free for it and no corruption to apply, a micro-operation runs to its end (R192, R193). -/
theorem runOp_free {buf : OperandBuf} {m : MicroOp} {s : State} (hb : s.busUsed = false ∨ MicroOp.accesses m = false)
    (hc : MicroOp.corruption m s.regs s.ctx = none ∨
      (s.video.displayEnabled = true ∧ inCorruptionWindow s = false)) :
    runOp buf m s = completeOp buf m s := by
  unfold runOp
  rw [if_neg (by rcases hb with h | h <;> simp [h])]
  rcases hc with h | ⟨h1, h2⟩
  · rw [h]
  · split
    · rfl
    · simp [h1, h2]

/-! ## Corruption -/

/-- A corruption leaves every byte of memory that the video subsystem does not own (C10). -/
theorem read_corruptBus (k : CorruptionKind) {s : State} {a : Word} (h : Memory.wf s.bus.mem = true)
    (ha : showsVideo s.params a = false) : Memory.read a.toNat (corruptBus k s).mem = Memory.read a.toNat s.bus.mem := by
  refine Laws.Memory.read_writeAll_other _ h (fun w hw e => ?_)
  have hv := (List.mem_filter.mp hw).2
  rw [e, ha] at hv
  cases hv

/-- A corruption keeps the canonical form of memory. -/
theorem corruptBus_wf (k : CorruptionKind) {s : State} (h : Memory.wf s.bus.mem = true) :
    Memory.wf (corruptBus k s).mem = true := Laws.Memory.writeAll_wf _ h

/-- A corruption leaves the reference bus as it was: no memory of the video subsystem shows there, and no device (R81, R93). -/
theorem corruptBus_plain (k : CorruptionKind) {s : State} (hw : s.params.windows = []) (hv : s.params.videoMemory = []) :
    corruptBus k s = s.bus := by
  simp [corruptBus, showsVideo, hw, hv, Memory.writeAll]

/-- A property of the state before and after, kept by each part of one iteration, is kept by `runOp`. -/
theorem runOp_keeps {P : State → State → Prop} {buf : OperandBuf} {m : MicroOp} {s : State}
    (refl : P s s)
    (trans : ∀ t u, P s t → P t u → P s u)
    (inject : ∀ k, P s (injectCorruption k s))
    (ran : ∀ t u, executeOp buf m t = .ran u → P t (fastForward m (toggleAndAdvance m u)))
    (raised : ∀ t u, executeOp buf m t = .raised u → P t u)
    (skip : P s { s with execIdx := s.execIdx + 1 })
    (flag : ∀ t b, P s t → P s { t with busUsed := b }) :
    (∀ t, runOp buf m s = .suspend t → P s t) ∧ (∀ t, runOp buf m s = .again t → P s t) := by
  have perform : ∀ t u, (performOp buf m t = .ran u ∨ performOp buf m t = .raised u) → P t u := by
    rintro t u (h | h)
    · obtain ⟨w, hw, rfl⟩ := performOp_ran h
      exact ran t w hw
    · exact raised t u (performOp_raised h)
  have complete : ∀ t, P s t →
      (∀ u, completeOp buf m t = .suspend u → P s u) ∧ (∀ u, completeOp buf m t = .again u → P s u) := by
    intro t ht
    unfold completeOp
    cases hp : performOp buf m t with
    | raised w =>
      exact ⟨fun u h => by cases h; exact trans _ _ ht (perform _ _ (.inr hp)), fun u h => by cases h⟩
    | ran w =>
      have hw := trans _ _ ht (perform _ _ (.inl hp))
      dsimp only
      split
      · exact ⟨fun u h => by cases h; exact hw, fun u h => by cases h⟩
      · exact ⟨fun u h => (by cases h), fun u h => (by cases h; exact flag _ _ hw)⟩
  unfold runOp
  split
  · exact ⟨fun t h => by cases h; exact refl, fun t h => by cases h⟩
  · split
    · exact complete s refl
    · rename_i k _
      split
      · split
        · exact complete _ (inject k)
        · exact complete s refl
      · refine ⟨fun t h => ?_, fun t h => by cases h⟩
        cases h
        unfold corruptionAbort
        split
        · exact refl
        · exact skip
        · split
          · rename_i hp; exact perform _ _ (.inr hp)
          · rename_i hp; exact perform _ _ (.inl hp)

/-- A property of the state before and after, kept by `runOp` and by retirement, is kept by the walk. -/
theorem walk_keeps {P : State → State → Prop} {buf : OperandBuf}
    (trans : ∀ s t u, P s t → P t u → P s u)
    (retired : ∀ s, P s (retire s))
    (ops : List MicroOp)
    (one : ∀ m ∈ ops, ∀ s, (∀ t, runOp buf m s = .suspend t → P s t) ∧ (∀ t, runOp buf m s = .again t → P s t))
    (s : State) : P s (walk buf ops s) := by
  induction ops generalizing s with
  | nil => exact retired s
  | cons m rest ih =>
    have h1 := one m (List.mem_cons_self ..) s
    unfold walk
    split
    · rename_i t ht; exact h1.1 t ht
    · rename_i t ht
      split
      · exact trans _ _ _ (h1.2 t ht) (retired t)
      · exact trans _ _ _ (h1.2 t ht) (ih (fun m' hm' => one m' (List.mem_cons_of_mem _ hm')) t)

/-- The walk is unfolded one micro-operation at a time. -/
theorem runGeneric_cons {buf : OperandBuf} {s : State} {m : MicroOp} (h : s.ops[s.execIdx]? = some m) :
    runGeneric buf s =
      match runOp buf m s with
      | .suspend t => t
      | .again t => if t.execIdx ≥ t.ops.length then retire t else walk buf (s.ops.drop (s.execIdx + 1)) t := by
  obtain ⟨hlt, hm⟩ := List.getElem?_eq_some_iff.mp h
  rw [runGeneric, if_neg (by omega), List.drop_eq_getElem_cons hlt, hm]
  rfl

/-- With nothing left to run the instruction retires (R198). -/
theorem runGeneric_end {buf : OperandBuf} {s : State} (h : s.execIdx = s.ops.length) :
    runGeneric buf s = retire s := by
  rw [runGeneric, if_neg (by omega), h, List.drop_length]
  rfl

/-- Past the end of the sequence the block faults (R205). -/
theorem runGeneric_past {buf : OperandBuf} {s : State} (h : s.ops.length < s.execIdx) :
    runGeneric buf s = raiseFault .execIndexExceeded s := by
  rw [runGeneric, if_pos h]

end Sys2Proof.Laws.MicroOps
end

