-- ==== Sys2Proof/Laws/Tick.lean ====
section
/-! SUPPORT. What a step can do, said once: the shapes of a tick, and of each fetch state. -/

namespace Sys2Proof.Laws.Tick

open Sys2Proof.Machine

@[simp] theorem step_done {s t : State} (h : advance s = .done t) : step s = .next t := by
  rw [step, h]

@[simp] theorem step_run {s t : State} {i : Instr} (h : advance s = .run i t) :
    step s = finishTick (exec i t) := by
  rw [step, h]

@[simp] theorem advance_nil {s : State} (h : s.inputs = []) : advance s = tickBody s := by
  rw [advance, h]

/-- No instruction stops the machine: `exec` always answers a next state (R66, R301). -/
theorem exec_next (i : Instr) (s : State) : ∃ t, exec i s = .next t := by
  cases i <;> exact ⟨_, rfl⟩

/-- PLAIN and EXT are the walk (R202, R203). -/
theorem exec_generic {i : Instr} {operands : List Byte} (h : genericOperands i = some operands) (s : State) :
    exec i s = .next (runGeneric (OperandBuf.load s.operand operands) s) := by
  cases i <;> simp only [genericOperands, Option.some.injEq, reduceCtorEq] at h <;> subst h <;> rfl

/-- What follows `execute`, in the terms of the statements (R191, R195 to R197). -/
theorem performOp_afterOp {buf : OperandBuf} {m : MicroOp} {s u : State} {regs : RegFile} {ctx : Ctx}
    (h : executeOp buf m s = .ran { u with regs := regs, ctx := ctx }) :
    performOp buf m s = .ran (u.afterOp m regs ctx) := by
  rw [performOp, h]
  simp only [MicroOps.fastForward_toggle]
  rfl

/-- With the display enabled, or no corruption to apply, a micro-operation that need not wait for the bus runs to its end, from
the state its injection leaves (R192, R193). -/
theorem runOp_injectDue {buf : OperandBuf} {m : MicroOp} {s : State}
    (hb : s.busUsed = false ∨ MicroOp.accesses m = false)
    (hc : s.video.displayEnabled = true ∨ MicroOp.corruption m s.regs s.ctx = none) :
    runOp buf m s = completeOp buf m (injectDue m s) := by
  unfold runOp injectDue
  rw [if_neg (by rcases hb with h | h <;> simp [h])]
  cases hk : MicroOp.corruption m s.regs s.ctx with
  | none => rfl
  | some k =>
    rcases hc with h | h
    · simp only [h, if_true]
    · rw [hk] at h; cases h

/-- The first byte comes from the program counter (R160). -/
@[simp] theorem fetchAddress_zero (s : State) : s.fetchAddress 0 = s.regs.pc := by
  unfold State.fetchAddress; split <;> simp

/-- After the first byte each comes from the next address, with the halt bug as without (R161, R237). -/
theorem fetchAddress_succ (s : State) (k : Nat) : s.fetchAddress (k + 1) + 1 = s.fetchAddress (k + 2) := by
  have h : ∀ n, BitVec.ofNat 16 n + 1 = BitVec.ofNat 16 (n + 1) := fun n => by rw [BitVec.ofNat_add]; rfl
  unfold State.fetchAddress
  split
  · rw [BitVec.add_assoc, h]; rfl
  · rw [BitVec.add_assoc, h]

/-- A step is over by itself, or runs an instruction; either way it answers a next state. -/
theorem step_cases (s : State) :
    (∃ t, advance s = .done t ∧ step s = .next t) ∨
    (∃ i t u, advance s = .run i t ∧ exec i t = .next u ∧ step s = .next (endTick u)) := by
  cases h : advance s with
  | done t => exact .inl ⟨t, rfl, step_done h⟩
  | run i t =>
    obtain ⟨u, hu⟩ := exec_next i t
    exact .inr ⟨i, t, u, rfl, hu, by rw [step_run h, hu]; rfl⟩

/-- The shapes of a tick (R131, R132). -/
theorem tickBody_cases (s : State) :
    (s.fault ≠ none ∧ tickBody s = .done s) ∨
    (s.fault = none ∧ s.subCycle + 1 < ticksPerCycle s ∧
      tickBody s = .done { s with subCycle := s.subCycle + 1 }) ∨
    (s.fault = none ∧ ticksPerCycle s ≤ s.subCycle + 1 ∧ tickBody s = cycleBody (preempt (beginCycle s))) := by
  unfold tickBody
  cases hf : s.fault with
  | some r => exact .inl ⟨by simp, rfl⟩
  | none =>
    by_cases hd : s.subCycle + 1 < ticksPerCycle s
    · exact .inr (.inl ⟨rfl, hd, by simp [hd]⟩)
    · exact .inr (.inr ⟨rfl, by omega, by simp [hd]⟩)

/-- The shapes of a machine cycle after preemption (R134, R135, R136). -/
theorem cycleBody_cases (s : State) :
    (SeqState.isDispatch s.state = true ∧ cycleBody s = .done (endTick (dispatchCycle s))) ∨
    ((s.state = .stopped ∨ (s.state = .halted ∧ IntCtrl.requested s.ic = false)) ∧
      cycleBody s = .done (endTick s)) ∨
    (s.state = .halted ∧ IntCtrl.requested s.ic = true ∧
      cycleBody s = arbitrate { s with state := .opcode, busUsed := false }) ∨
    (SeqState.isDispatch s.state = false ∧ s.state ≠ .halted ∧ s.state ≠ .stopped ∧
      cycleBody s = arbitrate { s with busUsed := false }) := by
  cases hs : s.state <;> cases hr : IntCtrl.requested s.ic <;>
    simp [cycleBody, haltWake, hs, hr, SeqState.isDispatch]

/-- A step in which a machine cycle begins is the cycle's (R132). -/
theorem advance_cycle {s : State} (hi : s.inputs = []) (hf : s.fault = none)
    (hd : ticksPerCycle s ≤ s.subCycle + 1) : advance s = cycleBody (preempt (beginCycle s)) := by
  rw [advance_nil hi, tickBody, hf]
  simp [Nat.not_lt.mpr hd]

/-- The shapes of `collectOperands` (R165). -/
theorem collectOperands_cases (d : Descriptor) (s : State) :
    (s.operandIdx < d.length ∧ s.busUsed = true ∧ collectOperands d s = .done (endTick s)) ∨
    (s.operandIdx + 1 < d.length ∧ s.busUsed = false ∧ collectOperands d s = .done (endTick (fetchOperand s))) ∨
    (s.operandIdx + 1 = d.length ∧ s.busUsed = false ∧
      collectOperands d s = runInFlight (loadOps d (fetchOperand s))) ∨
    (d.length ≤ s.operandIdx ∧ collectOperands d s = runInFlight (loadOps d s)) := by
  unfold collectOperands
  by_cases h1 : s.operandIdx < d.length
  · cases hb : s.busUsed
    · by_cases h2 : s.operandIdx + 1 < d.length
      · exact .inr (.inl ⟨h2, rfl, by simp [h1, h2]⟩)
      · exact .inr (.inr (.inl ⟨by omega, rfl, by simp [h1, h2]⟩))
    · exact .inl ⟨h1, rfl, by simp [h1]⟩
  · exact .inr (.inr (.inr ⟨by omega, by simp [h1]⟩))

/-- The shapes of `operandFetch` (R165, R166). -/
theorem operandFetch_cases (s : State) :
    (s.desc = none ∧ operandFetch s = .done (endTick (raiseFault .noDescriptorAtOperand s))) ∨
    (∃ d, s.desc = some d ∧ Config.operandSlots < d.length ∧
      operandFetch s = .done (endTick (raiseFault .operandLengthExceeded s))) ∨
    (∃ d, s.desc = some d ∧ d.length ≤ Config.operandSlots ∧ operandFetch s = collectOperands d s) := by
  unfold operandFetch
  cases hd : s.desc with
  | none => exact .inl ⟨rfl, rfl⟩
  | some d =>
    by_cases hl : d.length > Config.operandSlots
    · exact .inr (.inl ⟨d, rfl, hl, by simp [hl]⟩)
    · exact .inr (.inr ⟨d, rfl, Nat.not_lt.mp hl, by simp [hl]⟩)

/-- The advance of the program counter after an opcode fetch, and the flag it consumes (R161). -/
theorem advanceOpcodePC_eq (s : State) :
    advanceOpcodePC s = { s with
      haltBug := false,
      regs := if s.haltBug then s.regs else { s.regs with pc := s.regs.pc + 1 } } := by
  obtain ⟨subCycle, state, op1, op2, operand, operandIdx, desc, ops, execIdx, ctx, haltBug⟩ := s
  cases haltBug <;> rfl

/-! ## The fetch states one case at a time -/

/-- The state in which the arbitration loop starts, when preemption and the wake change nothing (R136). -/
def cycleStart (s : State) : State := { s with subCycle := 0, busTrace := [], busUsed := false }

theorem arbitrate_opcode {w : State} (h : w.state = .opcode) : arbitrate w = opcodeFetch w := by rw [arbitrate, h]

theorem arbitrate_ext {w : State} (h : w.state = .extOpcode) : arbitrate w = extFetch w := by rw [arbitrate, h]

theorem arbitrate_operand {w : State} (h : w.state = .operand) : arbitrate w = operandFetch w := by rw [arbitrate, h]

theorem arbitrate_running {w : State} (h : w.state = .running) : arbitrate w = runInFlight w := by rw [arbitrate, h]

/-- A first byte that needs a second one (R160). -/
theorem opcodeFetch_second {w : State} (hn : needsSecond (readByte w w.regs.pc) = true) :
    opcodeFetch w = extFetch (advanceOpcodePC { latchOp1 w with state := .extOpcode }) := by
  have hd : decodeFirst w.params.registry (readByte (clearTransient w) w.regs.pc) = .second := by
    unfold decodeFirst; exact if_pos hn
  rw [opcodeFetch, hd]

/-- A first byte with a descriptor (R160). -/
theorem opcodeFetch_resolved {w : State} {d : Descriptor} (hn : needsSecond (readByte w w.regs.pc) = false)
    (hl : w.params.registry.lookup (readByte w w.regs.pc) = some d) :
    opcodeFetch w = operandFetch (advanceOpcodePC { latchOp1 w with desc := some d, state := .operand }) := by
  have hl' : w.params.registry.lookup (readByte (clearTransient w) w.regs.pc) = some d := hl
  have hn' : ¬ needsSecond (readByte (clearTransient w) w.regs.pc) = true := by
    rw [show readByte (clearTransient w) w.regs.pc = readByte w w.regs.pc from rfl, hn]; simp
  have hd : decodeFirst w.params.registry (readByte (clearTransient w) w.regs.pc) = .resolved d := by
    unfold decodeFirst; rw [hl']; exact if_neg hn'
  rw [opcodeFetch, hd]

/-- A first byte with none (R160). -/
theorem opcodeFetch_illegal {w : State} (hn : needsSecond (readByte w w.regs.pc) = false)
    (hl : w.params.registry.lookup (readByte w w.regs.pc) = none) :
    opcodeFetch w = .run (.illegal (readByte w w.regs.pc)) (latchOp1 w) := by
  have hl' : w.params.registry.lookup (readByte (clearTransient w) w.regs.pc) = none := hl
  have hn' : ¬ needsSecond (readByte (clearTransient w) w.regs.pc) = true := by
    rw [show readByte (clearTransient w) w.regs.pc = readByte w w.regs.pc from rfl, hn]; simp
  have hd : decodeFirst w.params.registry (readByte (clearTransient w) w.regs.pc) = .illegal := by
    unfold decodeFirst; rw [hl']; exact if_neg hn'
  rw [opcodeFetch, hd]
  rfl

/-- With the bus used, the second byte waits (R163). -/
theorem extFetch_wait {w : State} (hb : w.busUsed = true) : extFetch w = .done (endTick w) := by
  rw [extFetch, hb]; rfl

/-- A second byte with a descriptor (R163). -/
theorem extFetch_resolved {w : State} {d : Descriptor} (hb : w.busUsed = false)
    (hl : w.params.registry.lookupExtended (readByte w w.regs.pc) = some d) :
    extFetch w = operandFetch (incPC { latchOp2 w with desc := some d, state := .operand }) := by
  rw [extFetch, hb, hl]; rfl

/-- A second byte with none (R163). -/
theorem extFetch_unresolved {w : State} (hb : w.busUsed = false)
    (hl : w.params.registry.lookupExtended (readByte w w.regs.pc) = none) :
    extFetch w = unresolvedSecond (latchOp2 w) := by
  rw [extFetch, hb, hl]; rfl

/-- A descriptor whose operand bytes fit (R165, R166). -/
theorem operandFetch_fits {w : State} {d : Descriptor} (hd : w.desc = some d) (hl : d.length ≤ 2) :
    operandFetch w = collectOperands d w := by
  rw [operandFetch, hd]; exact if_neg (by show ¬ d.length > 2; omega)

end Sys2Proof.Laws.Tick
end

