-- ==== Sys2Proof/Laws/Inputs.lean ====
section
/-! SUPPORT. The inputs waiting are read by `advance` alone: with other inputs every function of a tick answers the same, with
those inputs. -/

namespace Sys2Proof.Laws.Inputs

open Sys2Proof.Machine

/-- The state with other inputs waiting. -/
abbrev withInputs (r : List HostInput) (s : State) : State := { s with inputs := r }

/-- The answer of a tick up to RUNNING, with other inputs waiting. -/
def progressWith (r : List HostInput) : Progress → Progress
  | .done s => .done (withInputs r s)
  | .run i s => .run i (withInputs r s)

/-- The answer of `execute`, with other inputs waiting. -/
def executedWith (r : List HostInput) : Executed → Executed
  | .ran s => .ran (withInputs r s)
  | .raised s => .raised (withInputs r s)

/-- The answer of one micro-operation, with other inputs waiting. -/
def outcomeWith (r : List HostInput) : OpOutcome → OpOutcome
  | .suspend s => .suspend (withInputs r s)
  | .again s => .again (withInputs r s)

variable (r : List HostInput) (b : OperandBuf) (m : MicroOp) (s : State)

/-! ## The walk of RUNNING -/

theorem finishExecute_withInputs (g : Byte) (a : State) :
    finishExecute b m (withInputs r s) g (withInputs r a) = executedWith r (finishExecute b m s g a) := by
  unfold finishExecute; show (match MicroOp.resume m s.regs b s.ctx g with | _ => _) = _
  cases MicroOp.resume m s.regs b s.ctx g <;> rfl

theorem executeOp_withInputs : executeOp b m (withInputs r s) = executedWith r (executeOp b m s) := by
  unfold executeOp; show (match MicroOp.start m s.regs b s.ctx with | .finish _ _ => _ | .read _ => _ | .write _ _ => _) = _
  cases MicroOp.start m s.regs b s.ctx with
  | finish => rfl
  | read a => simp only []; split; exact finishExecute_withInputs r b m s _ (afterRead s a); rfl
  | write a v => simp only []; split; exact finishExecute_withInputs r b m s _ (storeByte s a v); rfl

theorem performOp_withInputs : performOp b m (withInputs r s) = executedWith r (performOp b m s) := by
  unfold performOp; rw [executeOp_withInputs]; cases executeOp b m s with
  | raised => rfl
  | ran t =>
    simp only [executedWith]; congr 1
    unfold fastForward
    show (if MicroOp.shouldProceed m t.regs = true then _ else _) =
      withInputs r (if MicroOp.shouldProceed m t.regs = true then _ else _)
    split <;> rfl

theorem completeOp_withInputs : completeOp b m (withInputs r s) = outcomeWith r (completeOp b m s) := by
  unfold completeOp; rw [performOp_withInputs]; cases performOp b m s with
  | raised => rfl
  | ran t => simp only [executedWith]; split <;> rfl

theorem corruptionAbort_withInputs : corruptionAbort b m (withInputs r s) = withInputs r (corruptionAbort b m s) := by
  unfold corruptionAbort
  show (match s.params.abortMode with | .retry => _ | .skip => _ | .runThenEnd => _) = _
  cases s.params.abortMode <;> simp only []
  rw [performOp_withInputs]; cases performOp b m s <;> rfl

theorem runOp_withInputs : runOp b m (withInputs r s) = outcomeWith r (runOp b m s) := by
  unfold runOp
  show (if s.busUsed && MicroOp.accesses m then _ else
    (match MicroOp.corruption m s.regs s.ctx with
    | none => _
    | some k =>
      if s.video.displayEnabled then
        completeOp b m (if inCorruptionWindow s then withInputs r (injectCorruption k s) else withInputs r s)
      else _)) = _
  split
  · rfl
  cases MicroOp.corruption m s.regs s.ctx with
  | none => exact completeOp_withInputs r b m s
  | some k =>
    simp only []
    split
    · split <;> exact completeOp_withInputs r b m _
    · exact congrArg _ (corruptionAbort_withInputs r b m s)

theorem retire_withInputs : retire (withInputs r s) = withInputs r (retire s) := by rfl

theorem walk_withInputs (ms : List MicroOp) : walk b ms (withInputs r s) = withInputs r (walk b ms s) := by
  induction ms generalizing s with
  | nil => exact retire_withInputs r s
  | cons m ms ih =>
    unfold walk; rw [runOp_withInputs]
    cases runOp b m s with
    | suspend => rfl
    | again t =>
      show (if t.execIdx ≥ t.ops.length then _ else _) = _
      simp only []; split
      · exact retire_withInputs r t
      · exact ih t

theorem runGeneric_withInputs : runGeneric b (withInputs r s) = withInputs r (runGeneric b s) := by
  unfold runGeneric; show (if s.execIdx > s.ops.length then _ else _) = _
  split
  · rfl
  · exact walk_withInputs r b s _

/-- No meaning reads the inputs waiting. -/
theorem exec_withInputs {i : Instr} {s t : State} (h : exec i s = .next t) :
    exec i (withInputs r s) = .next (withInputs r t) := by
  cases hg : genericOperands i with
  | some os =>
    rw [Tick.exec_generic hg] at h ⊢
    cases h; exact congrArg _ (runGeneric_withInputs r _ s)
  | none =>
    cases i with
    | plain => cases hg
    | ext => cases hg
    | illegal => cases h; rfl
    | illegalExt => cases h; rfl
    | illegalStop => cases h; rfl
    | halt os =>
      cases h
      show Host.Outcome.next _ = _
      congr 1
      unfold haltIntercept
      show (if IntCtrl.haltBugCondition s.ic then _ else _) = _
      split <;> rfl
    | stop b os =>
      cases h
      show Host.Outcome.next _ = _
      congr 1
      unfold stopIntercept
      cases h : s.speed.armed <;> simp [withInputs, SpeedMode.onStop, h]

/-! ## The fetch states and the tick -/

theorem operandFetch_withInputs : operandFetch (withInputs r s) = progressWith r (operandFetch s) := by
  unfold operandFetch; show (match s.desc with | none => _ | some d => _) = _
  cases s.desc with
  | none => rfl
  | some d =>
    simp only []; split
    · rfl
    · unfold collectOperands
      show (if s.operandIdx < _ then
        if s.busUsed = true then _ else if s.operandIdx + 1 < _ then _ else _ else _) = _
      repeat' split
      all_goals rfl

theorem extFetch_withInputs : extFetch (withInputs r s) = progressWith r (extFetch s) := by
  unfold extFetch
  show (if s.busUsed = true then _ else
    (match s.params.registry.lookupExtended (readByte s s.regs.pc) with
    | none => _
    | some d => operandFetch (withInputs r (incPC { latchOp2 s with desc := some d, state := .operand })))) = _
  split
  · rfl
  cases s.params.registry.lookupExtended (readByte s s.regs.pc) with
  | none =>
    simp only []; unfold unresolvedSecond
    by_cases h1 : s.op1 = Config.extByte
    · rw [if_pos (show (latchOp2 (withInputs r s)).op1 = _ from h1), if_pos (show (latchOp2 s).op1 = _ from h1)]; rfl
    rw [if_neg (show ¬ (latchOp2 (withInputs r s)).op1 = _ from h1), if_neg (show ¬ (latchOp2 s).op1 = _ from h1)]
    by_cases h2 : s.op1 = Config.stopByte
    · rw [if_pos (show (latchOp2 (withInputs r s)).op1 = _ from h2), if_pos (show (latchOp2 s).op1 = _ from h2)]; rfl
    rw [if_neg (show ¬ (latchOp2 (withInputs r s)).op1 = _ from h2), if_neg (show ¬ (latchOp2 s).op1 = _ from h2)]; rfl
  | some d => exact operandFetch_withInputs r _

theorem advanceOpcodePC_withInputs : advanceOpcodePC (withInputs r s) = withInputs r (advanceOpcodePC s) := by
  unfold advanceOpcodePC; show (if s.haltBug = true then _ else _) = _
  split <;> rfl

theorem opcodeFetch_withInputs : opcodeFetch (withInputs r s) = progressWith r (opcodeFetch s) := by
  unfold opcodeFetch
  show (match decodeFirst s.params.registry (readByte (clearTransient s) s.regs.pc) with
    | .second => extFetch (advanceOpcodePC (withInputs r { latchOp1 s with state := .extOpcode }))
    | .illegal => _
    | .resolved d => operandFetch (advanceOpcodePC (withInputs r { latchOp1 s with desc := some d, state := .operand }))) = _
  cases decodeFirst s.params.registry (readByte (clearTransient s) s.regs.pc) with
  | second => simp only []; rw [advanceOpcodePC_withInputs, extFetch_withInputs]
  | illegal => rfl
  | resolved d => simp only []; rw [advanceOpcodePC_withInputs, operandFetch_withInputs]


theorem arbitrate_withInputs : arbitrate (withInputs r s) = progressWith r (arbitrate s) := by
  unfold arbitrate; rw [show (withInputs r s).state = s.state from rfl]
  cases s.state <;> simp only []
  · exact opcodeFetch_withInputs r s
  · exact extFetch_withInputs r s
  · exact operandFetch_withInputs r s
  all_goals rfl

theorem dispatchCycle_withInputs : dispatchCycle (withInputs r s) = withInputs r (dispatchCycle s) := by
  unfold dispatchCycle; rw [show (withInputs r s).state = s.state from rfl]
  cases s.state <;> simp only []
  case irqReadIE =>
    unfold readIE; show (match lowestSource (bothMasks s.ifSnap s.ic.ie) with | none => _ | some src => _) = _
    cases lowestSource (bothMasks s.ifSnap s.ic.ie) <;> rfl
  case irqJump =>
    unfold jump; show (match lowestSource (bothMasks s.ifSnap s.ieSnap) with | none => _ | some src => _) = _
    cases lowestSource (bothMasks s.ifSnap s.ieSnap) <;> rfl
  all_goals rfl

theorem haltWake_withInputs : haltWake (withInputs r s) = withInputs r (haltWake s) := by
  unfold haltWake; show (if s.state = .halted ∧ IntCtrl.requested s.ic = true then _ else _) = _
  split <;> rfl

theorem preempt_withInputs : preempt (withInputs r s) = withInputs r (preempt s) := by
  unfold preempt; show (if preempts s = true then _ else _) = _
  split <;> rfl

theorem cycleBody_withInputs : cycleBody (withInputs r s) = progressWith r (cycleBody s) := by
  unfold cycleBody; rw [haltWake_withInputs, dispatchCycle_withInputs]
  show (if SeqState.isDispatch s.state = true then _ else
    if (haltWake s).state = _ ∨ (haltWake s).state = _ then _ else arbitrate (withInputs r {haltWake s with busUsed := false})) = _
  rw [arbitrate_withInputs]
  split
  · rfl
  · split <;> rfl

/-- A tick does not read the inputs waiting (R65, R322). -/
theorem tickBody_withInputs : tickBody (withInputs r s) = progressWith r (tickBody s) := by
  unfold tickBody
  show (if s.fault.isSome = true then _ else
    if s.subCycle + 1 < ticksPerCycle s then _ else cycleBody (preempt (withInputs r (beginCycle s)))) = _
  rw [preempt_withInputs, cycleBody_withInputs]
  split
  · rfl
  · split <;> rfl

end Sys2Proof.Laws.Inputs
end

