-- ==== Sys2Proof/Laws/PerInstr.lean ====
section
/-! SUPPORT. A statement about each instruction as syntax, one lemma per constructor: the bytes of a well-formed instruction
are at least one and at most four (R100). -/

namespace Sys2Proof.Laws.EncodeLength

/-- A well-formed instruction, in any registry, has one to four bytes. -/
def Statement (i : Instr) : Prop :=
  ∀ r : Registry, i.wellFormed r = true → 1 ≤ (encode i).length ∧ (encode i).length ≤ 4

/-- Operand bytes that fit are at most two (R105). -/
theorem operandsFit_length {d : Option Descriptor} {operands : List Byte} (h : operandsFit d operands = true) :
    operands.length ≤ 2 := by
  cases d with
  | none => cases h
  | some d =>
    simp only [operandsFit, Bool.and_eq_true, decide_eq_true_eq] at h
    exact h.2 ▸ h.1

theorem halt (operands : List Byte) : Statement (.halt operands) := by
  intro r h
  have := operandsFit_length h
  simp only [encode, List.length_cons]
  omega

theorem stop (op2 : Byte) (operands : List Byte) : Statement (.stop op2 operands) := by
  intro r h
  have := operandsFit_length h
  simp only [encode, List.length_cons]
  omega

theorem ext (op2 : Byte) (operands : List Byte) : Statement (.ext op2 operands) := by
  intro r h
  have := operandsFit_length h
  simp only [encode, List.length_cons]
  omega

theorem plain (op1 : Byte) (operands : List Byte) : Statement (.plain op1 operands) := by
  intro r h
  have := operandsFit_length (Bool.and_eq_true _ _ ▸ h).2
  simp only [encode, List.length_cons]
  omega

theorem illegal (op1 : Byte) : Statement (.illegal op1) := by
  intro r _
  simp [encode]

theorem illegalExt (op2 : Byte) : Statement (.illegalExt op2) := by
  intro r _
  simp [encode]

theorem illegalStop (op2 : Byte) : Statement (.illegalStop op2) := by
  intro r _
  simp [encode]

end Sys2Proof.Laws.EncodeLength
end

