-- ==== Sys2Proof/Laws/Run.lean ====
section
/-! SUPPORT. Runs of many steps, and the first step of each kind: an input, a tick that only counts, a machine cycle. -/

namespace Sys2Proof.Laws.Run

open Sys2Proof.Machine
open Sys2Proof.Laws.Tick

@[simp] theorem runSteps_zero (s : State) : runSteps 0 s = .next s := rfl

/-- A run of any machine begins with a step. -/
theorem core_run_succ (M : Host.Core) (n : Nat) (s t : M.State) (h : M.step s = .next t) :
    M.run (n + 1) s = M.run n t := by
  simp only [Host.Core.run, h]

/-- A run begins with a step. -/
theorem runSteps_succ (n : Nat) {s t : State} (h : step s = .next t) : runSteps (n + 1) s = runSteps n t :=
  core_run_succ Sys2Proof.core n s t h

/-- A run of one step. -/
theorem runSteps_one {s t : State} (h : step s = .next t) : runSteps 1 s = .next t := runSteps_succ 0 h

/-- A run resumes where a shorter one paused (R140). -/
theorem runSteps_add (m n : Nat) {s t : State} (h : runSteps m s = .next t) :
    runSteps (m + n) s = runSteps n t := by
  induction m generalizing s with
  | zero =>
    rw [runSteps_zero, Host.Outcome.next.injEq] at h
    rw [h, Nat.zero_add]
  | succ m ih =>
    obtain ⟨u, hu⟩ : ∃ u, step s = .next u := by
      obtain ⟨u, _, h'⟩ | ⟨_, _, u, _, _, h'⟩ := step_cases s <;> exact ⟨_, h'⟩
    rw [runSteps_succ m hu] at h
    rw [show m + 1 + n = (m + n) + 1 by omega, runSteps_succ _ hu, ih h]

/-- A host input is a step of its own (R322). -/
theorem step_input {s : State} {e : HostInput} {rest : List HostInput} (he : e ≠ .tick) (h : s.inputs = e :: rest) :
    step s = .next (hostInput e { s with inputs := rest }) := by
  apply step_done
  rw [advance, h]
  cases e <;> first | rfl | exact absurd rfl he

/-- A tick the host asks for is the tick it would make with nothing to do (R65). -/
theorem advance_tick {s : State} {rest : List HostInput} (h : s.inputs = .tick :: rest) :
    advance s = tickBody { s with inputs := rest } := by
  rw [advance, h]

/-- A tick below the threshold (R132). -/
theorem tickBody_count {s : State} (hf : s.fault = none) (h : s.subCycle + 1 < ticksPerCycle s) :
    tickBody s = .done { s with subCycle := s.subCycle + 1 } := by
  rw [tickBody, hf, if_neg (by simp), if_pos h]

/-- A tick on a faulted state (R131). -/
theorem tickBody_faulted {s : State} {r : Fault} (hf : s.fault = some r) : tickBody s = .done s := by
  rw [tickBody, hf, if_pos (by simp)]

/-- A machine cycle's step, with the counter about to reach the threshold. -/
theorem advance_cycleReady {s : State} (h : s.cycleReady) : advance s = cycleBody (preempt (beginCycle s)) :=
  advance_cycle h.1 h.2.1 h.2.2

/-- No preemption where interrupts are masked or nothing is requested (R133). -/
theorem preempt_masked {s : State} (h : s.ic.ime = false ∨ s.ic.ifl &&& s.ic.ie &&& 0x1F = 0) : preempt s = s := by
  have hp : preempts s = false := by
    rcases h with h | h
    · simp [preempts, h]
    · have hr : IntCtrl.requested s.ic = false := by
        simp only [IntCtrl.requested, bothMasks, Config.reqMask, h, ne_eq, not_true_eq_false, decide_false]
      simp [preempts, hr]
  rw [preempt, hp]
  rfl

/-- A machine cycle in a fetch or execute state, with no preemption, is the arm of that state (R136, R137). -/
theorem advance_arbitrates {s : State} (h : s.cycleReady)
    (hs : s.state = .opcode ∨ s.state = .extOpcode ∨ s.state = .operand ∨ s.state = .running)
    (hm : s.state = .opcode → (s.ic.ime = false ∨ s.ic.ifl &&& s.ic.ie &&& 0x1F = 0)) :
    advance s = arbitrate (cycleStart s) := by
  have hp : preempt (beginCycle s) = beginCycle s := by
    rcases hs with h | h
    · exact preempt_masked (hm h)
    · have hn : preempts (beginCycle s) = false := by
        rcases h with h | h | h <;> simp [preempts, h, SeqState.isPreemptible]
      rw [preempt, hn]
      rfl
  rw [advance_cycleReady h, hp]
  rcases hs with h | h | h | h <;> simp [cycleBody, haltWake, h, SeqState.isDispatch, beginCycle, cycleStart]

end Sys2Proof.Laws.Run
end

