-- ==== Sys2Proof/Tests/Slice0.lean ====
section
/-! SUPPORT. The model's own tests: the checks of WellFormed, words written out from the spec's formats, vectors of
95_test_vectors.md section 3 (each expected result is the spec's), and a witness for the hypotheses of every statement. -/

namespace Sys2Proof.Tests

open Sys2Proof.Machine

/-! ## Small states -/

/-- The reset state, one tick before a machine cycle begins. -/
def atCycle : State := { State.reset with subCycle := 3 }

/-- As `atCycle`, with bytes of memory. -/
def withMem (m : Memory) : State := { atCycle with bus := { mem := m, dev := [] } }

/-- In RUNNING with a sequence to walk, inside a machine cycle whose bus is free. -/
def inRunning (ops : List MicroOp) : State := { atCycle with subCycle := 0, state := .running, ops := ops }

/-- What one step leaves. -/
def stepped (s : State) (p : State → Bool) : Bool :=
  match step s with
  | .next t => p t
  | .fault _ => false
  | .refused _ => false

/-- What an instruction leaves. -/
def executed (i : Instr) (s : State) (p : State → Bool) : Bool :=
  match exec i s with
  | .next t => p t
  | .fault _ => false
  | .refused _ => false

/-- A descriptor with a length and a sequence. -/
def descriptor (length : Nat) (ops : List MicroOp) : Descriptor :=
  { value := 0x01, mnemonic := "", length := length, ops := ops }

/-- A registry with one plain byte, 0x01, of a given length. -/
def registryOf (d : Descriptor) : Registry := { plain := [(0x01, d)], extended := [(0x01, d)] }

/-- Every parameter standard but the registry. -/
def paramsOf (d : Descriptor) : Params := { Params.standard with registry := registryOf d }

/-! ## WellFormed: one ill-formed term for each check -/

theorem test_wf_halt_operands : (Instr.halt [0x00]).wellFormed Registry.fixture = false := by decide
theorem test_wf_halt_unregistered : (Instr.halt []).wellFormed { plain := [], extended := [] } = false := by decide
theorem test_wf_stop_operands : (Instr.stop 0x00 [0x00]).wellFormed Registry.fixture = false := by decide
theorem test_wf_stop_unregistered : (Instr.stop 0x11 []).wellFormed Registry.fixture = false := by decide
theorem test_wf_ext_operands : (Instr.ext 0x37 [0x00]).wellFormed Registry.fixture = false := by decide
theorem test_wf_ext_unregistered : (Instr.ext 0x11 []).wellFormed Registry.fixture = false := by decide
theorem test_wf_plain_prefix : (Instr.plain 0xCB []).wellFormed Registry.fixture = false := by decide
theorem test_wf_plain_stop : (Instr.plain 0x10 []).wellFormed Registry.fixture = false := by decide
theorem test_wf_plain_halt : (Instr.plain 0x76 []).wellFormed Registry.fixture = false := by decide
theorem test_wf_plain_operands : (Instr.plain 0x3E []).wellFormed Registry.fixture = false := by decide
theorem test_wf_plain_unregistered : (Instr.plain 0xD3 []).wellFormed Registry.fixture = false := by decide
theorem test_wf_plain_too_long :
    (Instr.plain 0x01 [0, 0, 0]).wellFormed (registryOf (descriptor 3 [])) = false := by decide
theorem test_wf_illegal_registered : (Instr.illegal 0x00).wellFormed Registry.fixture = false := by decide
theorem test_wf_illegal_prefix : (Instr.illegal 0xCB).wellFormed Registry.fixture = false := by decide
theorem test_wf_illegalExt_registered : (Instr.illegalExt 0x37).wellFormed Registry.fixture = false := by decide
theorem test_wf_illegalStop_registered : (Instr.illegalStop 0x00).wellFormed Registry.fixture = false := by decide
theorem test_wf_accepts :
    (Instr.plain 0xEA [0x00, 0xC0]).wellFormed Registry.fixture = true ∧
    (Instr.halt []).wellFormed Registry.fixture = true ∧ (Instr.stop 0x00 []).wellFormed Registry.fixture = true ∧
    (Instr.ext 0x37 []).wellFormed Registry.fixture = true := by decide

/-! ## Decode: words written out bit by bit (R101 to R104, R109, R112) -/

theorem test_decode_halt : decode Registry.fixture [0b01110110#8] = .ok (.halt [], []) := by rfl
theorem test_decode_stop : decode Registry.fixture [0b00010000#8, 0b00000000#8] = .ok (.stop 0x00 [], []) := by rfl
theorem test_decode_ext : decode Registry.fixture [0b11001011#8, 0b00110111#8] = .ok (.ext 0x37 [], []) := by rfl
theorem test_decode_plain :
    decode Registry.fixture [0b11101010#8, 0b00000000#8, 0b11000000#8] = .ok (.plain 0xEA [0x00, 0xC0], []) := by rfl
theorem test_decode_illegal : decode Registry.fixture [0b11010011#8] = .ok (.illegal 0xD3, []) := by rfl
/-- R109: `0xCB 0x76` is no HALT; here it is unregistered. -/
theorem test_decode_illegalExt : decode Registry.fixture [0b11001011#8, 0b01110110#8] = .ok (.illegalExt 0x76, []) := by rfl
theorem test_decode_illegalStop : decode Registry.fixture [0b00010000#8, 0b00010001#8] = .ok (.illegalStop 0x11, []) := by rfl
theorem test_decode_truncated : decode Registry.fixture [0xCB] = .error .truncated := by rfl
theorem test_decode_too_long :
    decode (registryOf (descriptor 3 [])) [0x01, 0, 0, 0] = .error .operandLengthExceeded := by rfl

/-! ## Words numbered as the opcode table numbers them (R115) -/

theorem test_word_halt : decodeTableWord 8 0x76 = some (.halt []) := by decide
theorem test_word_stop : decodeTableWord 16 0x1000 = some (.stop 0x00 []) := by decide
theorem test_word_ext : decodeTableWord 16 0xCB37 = some (.ext 0x37 []) := by decide
theorem test_word_plain : decodeTableWord 8 0x3E = some (.plain 0x3E [0x00]) := by decide
theorem test_word_illegal : decodeTableWord 8 0xD3 = some (.illegal 0xD3) := by decide
theorem test_word_illegalExt : decodeTableWord 16 0xCB11 = some (.illegalExt 0x11) := by decide
theorem test_word_illegalStop : decodeTableWord 16 0x1011 = some (.illegalStop 0x11) := by decide

/-- The word of each class runs as the first instruction after reset. -/
theorem test_fetch_word :
    stepped (State.reset.withFetchWord 8 0x76) (fun t => decide (t.state = .halted ∧ t.regs.pc = 0x0101)) = true ∧
    stepped (State.reset.withFetchWord 16 0x1000) (fun t => decide (t.state = .stopped ∧ t.regs.pc = 0x0102)) = true ∧
    stepped (State.reset.withFetchWord 16 0xCB37) (fun t => decide (t.state = .opcode ∧ t.regs.pc = 0x0102)) = true ∧
    stepped (State.reset.withFetchWord 8 0x3E) (fun t => decide (t.state = .opcode ∧ t.regs.pc = 0x0102)) = true := by
  decide

/-! ## Helpers (R25; 95_test_vectors.md E8) -/

theorem test_pack : pack 0x12 0x34 = 0x1234 ∧ high 0x1234 = 0x12 ∧ low 0x1234 = 0x34 := by decide
theorem test_pack_pair : OperandBuf.value { slot0 := 0x34, slot1 := 0x12 } = 0x1234 := by decide
theorem test_signExtend :
    signExtend 0x7F = 127 ∧ signExtend 0x80 = -128 ∧ signExtend 0xFD = -3 ∧ signExtend 0xFF = -1 := by decide
theorem test_bits :
    bitTest 0x80 7 = true ∧ bitTest 0x80 6 = false ∧ bitSet 0x00 7 = 0x80 ∧ bitClear 0xFF 0 = 0xFE ∧
    bitPut 0x0F 4 false = 0x0F ∧ bitPut 0x0F 4 true = 0x1F := by decide

/-! ## The divider and the fetch states (vectors V-DIV, V-FD) -/

/-- V-DIV-3: `subCycle = 3` at double speed still proceeds. -/
theorem test_divider_double :
    stepped { State.reset with subCycle := 3, speed := { double := true, armed := false } }
      (fun t => decide (t.subCycle = 0 ∧ t.busTrace.length = 1)) = true := by decide
/-- V-DIV-1: below the threshold nothing but the count changes. -/
theorem test_divider_counts : step State.reset = .next { State.reset with subCycle := 1 } := by rfl
/-- V-FD-1 and V-FD-6: NOP at 0xFFFF retires in one cycle, and the program counter wraps. -/
theorem test_fetch_wraps :
    stepped { atCycle with regs := { atCycle.regs with pc := 0xFFFF } }
      (fun t => decide (t.regs.pc = 0x0000 ∧ t.state = .opcode ∧ t.busTrace = [.read 0xFFFF 0x00])) = true := by decide
/-- V-FD-2: the prefix waits for its second byte. -/
theorem test_fetch_prefix :
    stepped (withMem [(0x100, 0xCB), (0x101, 0x37)])
      (fun t => decide (t.op1 = 0xCB ∧ t.regs.pc = 0x0101 ∧ t.state = .extOpcode)) = true := by decide
/-- V-FD-2b: SWAP A runs in the second cycle. -/
theorem test_fetch_second :
    stepped { withMem [(0x201, 0x37)] with
        state := .extOpcode, op1 := 0xCB, regs := { atCycle.regs with pc := 0x0201, a := 0xF1 } }
      (fun t => decide (t.op2 = 0x37 ∧ t.regs.pc = 0x0202 ∧ t.regs.a = 0x1F ∧ t.state = .opcode)) = true := by decide
/-- V-FD-3: after the halt bug the program counter is not advanced. -/
theorem test_fetch_halt_bug :
    stepped { atCycle with haltBug := true } (fun t => decide (t.regs.pc = 0x0100 ∧ t.haltBug = false)) = true := by
  decide
/-- V-FD-4: an unregistered byte faults. -/
theorem test_fetch_illegal :
    stepped (withMem [(0x100, 0xD3)])
      (fun t => decide (t.fault = some (.decodeFailure 0xD3) ∧ t.op1 = 0xD3 ∧ t.state = .opcode)) = true := by decide
/-- V-FD-5 and V-FD-10: an unregistered second byte faults. -/
theorem test_fetch_illegal_second :
    stepped { withMem [(0x100, 0x11)] with state := .extOpcode, op1 := 0xCB }
      (fun t => decide (t.fault = some (.extDecodeFailure 0xCB 0x11))) = true ∧
    stepped { withMem [(0x100, 0x11)] with state := .extOpcode, op1 := 0x10 }
      (fun t => decide (t.fault = some (.extDecodeFailure 0x10 0x11))) = true := by decide
/-- V-FD-9: a declared length of 3 faults on entry to OPERAND. -/
theorem test_fetch_too_long :
    stepped { withMem [(0x100, 0x01)] with params := paramsOf (descriptor 3 []) }
      (fun t => decide (t.fault = some .operandLengthExceeded ∧ t.busTrace.length = 1)) = true := by decide
/-- V-FD-11, second cycle: the operand byte is in slot 0, and LD A,n runs. -/
theorem test_fetch_operand :
    stepped { withMem [(0x101, 0x42)] with
        state := .operand, op1 := 0x3E, desc := some (descriptor 1 [.ldAImm]), regs := { atCycle.regs with pc := 0x0101 } }
      (fun t => decide (t.operand = { slot0 := 0x42, slot1 := 0x00 } ∧ t.regs.a = 0x42 ∧ t.operandIdx = 0)) = true := by
  decide

/-! ## Micro-operations (vectors V-EX) -/

/-- V-EX-2 and V-EX-4: the jump's displacement is signed and wraps; the forced end leaves RUNNING. -/
theorem test_exec_addPC :
    executed (.plain 0x20 [0xFD]) { inRunning [.proceedIfANZ, .addPC] with regs := { atCycle.regs with pc := 0x0205, a := 2 } }
      (fun t => decide (t.regs.pc = 0x0202 ∧ t.state = .running ∧ t.execIdx = 2)) = true ∧
    executed (.plain 0x20 [0x80]) { inRunning [.addPC] with regs := { atCycle.regs with pc := 0x0012 } }
      (fun t => decide (t.regs.pc = 0xFF92)) = true := by decide
/-- V-EX-3: with A = 0 the sequence is fast-forwarded and retires. -/
theorem test_exec_not_taken :
    executed (.plain 0x20 [0xFD]) { inRunning [.proceedIfANZ, .addPC] with regs := { atCycle.regs with pc := 0x0205 } }
      (fun t => decide (t.regs.pc = 0x0205 ∧ t.state = .opcode)) = true := by decide
/-- V-EX-5: INC HL wraps, and the forced end waits for retirement. -/
theorem test_exec_incHL :
    executed (.plain 0x23 []) { inRunning [.incHL] with regs := { atCycle.regs with hl := 0xFFFF } }
      (fun t => decide (t.regs.hl = 0x0000 ∧ t.state = .running ∧ t.video.injected = [])) = true := by decide
/-- V-EX-6: in the search phase the corruption is injected once, before the micro-operation runs. -/
theorem test_exec_corruption :
    executed (.plain 0x23 [])
      { inRunning [.incHL] with
        regs := { atCycle.regs with hl := 0xFE10 },
        video := { displayEnabled := true, lineTick := 12, searchPhase := true, injected := [] } }
      (fun t => decide (t.video.injected = [(.incDec, 12)] ∧ t.regs.hl = 0xFE11)) = true := by decide
/-- V-EX-6b and V-EX-6c: outside the window nothing is injected. -/
theorem test_exec_no_corruption :
    executed (.plain 0x23 [])
      { inRunning [.incHL] with
        regs := { atCycle.regs with hl := 0xFE10 },
        video := { displayEnabled := true, lineTick := 12, searchPhase := false, injected := [] } }
      (fun t => decide (t.video.injected = [] ∧ t.regs.hl = 0xFE11)) = true ∧
    executed (.plain 0x23 [])
      { inRunning [.incHL] with
        regs := { atCycle.regs with hl := 0xFE10 },
        params := { Params.standard with tickLimit := some 10 },
        video := { displayEnabled := true, lineTick := 12, searchPhase := true, injected := [] } }
      (fun t => decide (t.video.injected = [] ∧ t.regs.hl = 0xFE11)) = true := by decide
/-- The state of V-EX-7 to V-EX-9 under a mode. -/
def displayOff (mode : CorruptAbortMode) : State :=
  { inRunning [.incHL] with
    regs := { atCycle.regs with hl := 0xFE10 },
    params := { Params.standard with abortMode := mode },
    video := { displayEnabled := false, lineTick := 0, searchPhase := false, injected := [] } }
/-- V-EX-7 to V-EX-9: the three modes. -/
theorem test_exec_abort :
    executed (.plain 0x23 []) (displayOff .retry)
      (fun t => decide (t.execIdx = 0 ∧ t.regs.hl = 0xFE10 ∧ t.state = .running)) = true ∧
    executed (.plain 0x23 []) (displayOff .skip) (fun t => decide (t.execIdx = 1 ∧ t.regs.hl = 0xFE10)) = true ∧
    executed (.plain 0x23 []) (displayOff .runThenEnd)
      (fun t => decide (t.execIdx = 1 ∧ t.regs.hl = 0xFE11 ∧ t.video.injected = [])) = true := by decide
/-- V-EX-1: LD A,(nn) reads its byte. -/
theorem test_exec_load :
    executed (.plain 0xFA [0x00, 0xC0]) { inRunning [.ldAAbs] with bus := { mem := [(0xC000, 0x99)], dev := [] } }
      (fun t => decide (t.regs.a = 0x99 ∧ t.state = .opcode ∧ t.busTrace = [.read 0xC000 0x99])) = true := by decide
/-- V-EX-12: LD (HL),A stores its byte. -/
theorem test_exec_store :
    executed (.plain 0x77 []) { inRunning [.stAHL] with regs := { atCycle.regs with hl := 0xC000, a := 0x5A } }
      (fun t => decide (t.bus.mem = [(0xC000, 0x5A)] ∧ t.state = .opcode)) = true := by decide
/-- V-EX-10 and V-EX-11: EI's own retirement leaves one to go; DI acts at once. -/
theorem test_exec_enable :
    executed (.plain 0xFB []) (inRunning [.eiOp])
      (fun t => decide (t.ic.enableDelay = some 0 ∧ t.ic.ime = false)) = true ∧
    executed (.plain 0xF3 []) { inRunning [.diOp] with ic := { ime := true, ie := 0, ifl := 0, enableDelay := none } }
      (fun t => decide (t.ic.ime = false)) = true := by decide
/-- A micro-operation declaring no access whose `execute` writes the bus once. -/
def undeclaredWrite : MicroOp :=
  .variant { readsMemory := false, writesMemory := false, forcesCycleEnd := false, corrupts := none,
             first := some (.write 0xC000 0x01), second := none }
/-- V-EX-13: it breaks the bus contract. -/
theorem test_exec_contract :
    executed (.plain 0x01 []) (inRunning [undeclaredWrite])
      (fun t => decide (t.fault = some .opBusContract ∧ t.bus.mem = [])) = true := by decide

/-! ## STOP, HALT, dispatch (vectors V-SH, V-DP) -/

/-- The interrupt controller with one mask pending and one enabled. -/
def controller (ime : Bool) (ifl ie : Byte) : IntCtrl := { ime := ime, ie := ie, ifl := ifl, enableDelay := none }

/-- V-SH-1, V-SH-2: HALT halts, or takes the halt bug. -/
theorem test_halt :
    executed (.halt []) { inRunning [] with ic := controller false 0x20 0x20 } (fun t => decide (t.state = .halted)) = true ∧
    executed (.halt []) { inRunning [] with ic := controller false 0x01 0x01 }
      (fun t => decide (t.state = .opcode ∧ t.haltBug = true)) = true := by decide
/-- V-SH-5, V-SH-8: STOP stops with the display off, or switches the speed. -/
theorem test_stop :
    executed (.stop 0x00 []) (inRunning [])
      (fun t => decide (t.state = .stopped ∧ t.video.displayEnabled = false ∧ t.speed.double = false)) = true ∧
    executed (.stop 0x00 []) { inRunning [] with speed := { double := false, armed := true } }
      (fun t => decide (t.state = .opcode ∧ t.video.displayEnabled = true ∧ t.speed.double = true)) = true := by decide
/-- V-SH-3: the HALTED wake fetches in the same cycle and leaves the pending bit. -/
theorem test_wake :
    stepped { atCycle with state := .halted, ic := controller false 0x01 0x01 }
      (fun t => decide (t.regs.pc = 0x0101 ∧ t.state = .opcode ∧ t.ic.ifl = 0x01)) = true := by decide
/-- V-SH-6: a request with the master enable on wakes STOPPED with the display on again. -/
theorem test_stop_wake :
    stepped { atCycle with
        state := .stopped, ic := controller true 0x04 0x04,
        video := { displayEnabled := false, lineTick := 0, searchPhase := false, injected := [] } }
      (fun t => decide (t.video.displayEnabled = true ∧ t.ifSnap = 0x04 ∧ t.state = .irqReadIE)) = true := by decide
/-- V-DP-1, cycle k + 1: the Timer is taken before the Joypad. -/
theorem test_dispatch_select :
    stepped { atCycle with state := .irqReadIE, ifSnap := 0x14, ic := controller true 0x14 0x1C }
      (fun t => decide (t.ieSnap = 0x1C ∧ t.ic.ifl = 0x10 ∧ t.ic.ime = false ∧ t.state = .irqPush1)) = true := by decide
/-- V-DP-2, cycle k + 1: the spurious wake. -/
theorem test_dispatch_spurious :
    stepped { atCycle with state := .irqReadIE, ifSnap := 0x04, ic := controller true 0x04 0x00 }
      (fun t => decide (t.state = .opcode ∧ t.ic = controller true 0x04 0x00 ∧ t.regs = atCycle.regs)) = true := by decide
/-- V-DP-3: the two pushes, with the stack pointer wrapping between them. -/
theorem test_dispatch_push :
    stepped { atCycle with state := .irqPush1, regs := { atCycle.regs with sp := 0x0001, pc := 0x0153 } }
      (fun t => decide (t.regs.sp = 0x0000 ∧ t.bus.mem = [(0x0000, 0x01)])) = true ∧
    stepped { atCycle with state := .irqPush2, regs := { atCycle.regs with sp := 0x0000, pc := 0x0153 } }
      (fun t => decide (t.regs.sp = 0xFFFF ∧ t.bus.mem = [(0xFFFF, 0x53)])) = true := by decide
/-- V-DP-1 and V-DP-5, last cycle: the vectors of the Timer and of the Joypad. -/
theorem test_dispatch_jump :
    stepped { atCycle with state := .irqJump, ifSnap := 0x14, ieSnap := 0x1C }
      (fun t => decide (t.regs.pc = 0x0050 ∧ t.state = .opcode)) = true ∧
    stepped { atCycle with state := .irqJump, ifSnap := 0xF0, ieSnap := 0xFF }
      (fun t => decide (t.regs.pc = 0x0060)) = true := by decide
/-- V-DP-8: bit 5 takes no part in a request. -/
theorem test_dispatch_masked :
    stepped { atCycle with ic := controller true 0x20 0x20 } (fun t => decide (t.state = .opcode)) = true := by decide
/-- V-IC-1 to V-IC-5: the deferred enable, its cancelling, and the clear. -/
theorem test_controller :
    IntCtrl.requestEnableDeferred { controller false 0 0 with enableDelay := some 0 } =
      { controller false 0 0 with enableDelay := some 0 } ∧
    IntCtrl.setMasterEnabled { controller false 0 0 with enableDelay := some 1 } false = controller false 0 0 ∧
    IntCtrl.onInstructionRetired (controller true 0 0) = controller true 0 0 ∧
    (IntCtrl.clearPending (controller false 0x1F 0) .timer).ifl = 0x1B := by decide

/-! ## Witnesses: a state and operands that meet all the hypotheses of a statement together, one for each of its clauses -/

/-- The reset state with bytes of memory. -/
def resetWith (m : Memory) : State := { State.reset with bus := { mem := m, dev := [] } }

/-- The sequence of the fixture's INC HL on an address in the corruption range, with the display as given. -/
def eligible (on : Bool) : State :=
  { inRunning [.incHL] with
    regs := { atCycle.regs with hl := 0xFE00 },
    video := { displayEnabled := on, lineTick := 0, searchPhase := true, injected := [] } }

/-- A micro-operation that makes the bus calls given, and declares both kinds of access. -/
def busOp (force : Bool) (corrupts : Option CorruptionKind) (first : BusCall) (second : Option BusCall) : MicroOp :=
  .variant { readsMemory := true, writesMemory := true, forcesCycleEnd := force, corrupts := corrupts,
             first := some first, second := second }

/-- A micro-operation declaring no access whose `execute` reads the bus. -/
def undeclaredRead : MicroOp :=
  .variant { readsMemory := false, writesMemory := false, forcesCycleEnd := false, corrupts := none,
             first := some (.read 0xC000), second := none }

/-- One eligible micro-operation to run, with the display as given. -/
def eligibleFor (on : Bool) (mode : CorruptAbortMode) (m : MicroOp) : State :=
  { inRunning [m] with
    regs := { atCycle.regs with hl := 0xFE00 },
    params := { Params.standard with abortMode := mode, tickLimit := some 1 },
    video := { displayEnabled := on, lineTick := 0, searchPhase := true, injected := [] } }

/-- Parameters with the interrupt registers and the speed register at the addresses given. -/
def mapped (flag enable speed : Option Word) : Params :=
  { Params.standard with flagAddr := flag, enableAddr := enable, speedAddr := speed }

/-- R42: a store at the mapped speed address arms the switch exactly when the byte's free predicate holds; where the flag register
shares the address, the store reaches it too (log entry 16). -/
theorem test_store_arms (v : Byte) :
    (storeByte { atCycle with params := mapped (some 0xFF4D) none (some 0xFF4D) } 0xFF4D v).speed.armed = Config.speedStoreArms v ∧
    (storeByte { atCycle with params := mapped (some 0xFF4D) none (some 0xFF4D) } 0xFF4D v).ic.ifl = v := by
  refine ⟨?_, rfl⟩
  unfold storeByte speedAfterStore
  cases h : Config.speedStoreArms v <;> simp [mapped, SpeedMode.armSwitch, atCycle, State.reset]

theorem test_witness_ResetInputSetsItsTable : ∃ (s : State) (rest : List HostInput), s.inputs = .reset :: rest :=
  ⟨{ State.reset with inputs := [.reset, .tick] }, [.tick], rfl⟩
theorem test_witness_FaultAbsorbsEveryTick :
    ∃ (s : State) (r : Fault), s.inputs = [] ∧ s.fault = some r :=
  ⟨{ atCycle with fault := some .opBusContract }, .opBusContract, rfl, rfl⟩
theorem test_witness_DividerCountsToTheThreshold :
    (∃ s : State, s.inputs = [] ∧ s.fault = none ∧ s.subCycle + 1 < (if s.speed.double then 2 else 4)) ∧
    (∃ s : State, s.inputs = [] ∧ s.fault = none ∧ (if s.speed.double then 2 else 4) ≤ s.subCycle + 1) :=
  ⟨⟨{ atCycle with subCycle := 2 }, rfl, rfl, by decide⟩, ⟨atCycle, rfl, rfl, by decide⟩⟩
theorem test_witness_TicksBetweenCyclesOnlyCount : ∃ (s : State) (k : Nat), s.cycleEnded ∧ k < ticksPerCycle s :=
  ⟨State.reset, 3, ⟨rfl, rfl, rfl⟩, by decide⟩
theorem test_witness_HostInputCommutesWithACountingTick :
    ∃ (s : State) (e : HostInput),
      e ≠ .tick ∧ e ≠ .reset ∧ s.fault = none ∧ s.subCycle + 1 < ticksPerCycle s :=
  ⟨{ atCycle with subCycle := 2 }, .raiseIrq .timer, by decide⟩
theorem test_witness_ParametersNeverChange : ∃ s t : State, step s = .next t := ⟨atCycle, _, rfl⟩
theorem test_witness_HostInputsLeaveTheSequencer :
    ∃ (s t : State) (e : HostInput) (rest : List HostInput),
      s.inputs = e :: rest ∧ e ≠ .tick ∧ e ≠ .reset ∧ step s = .next t :=
  ⟨{ atCycle with inputs := [.writeIE 0x1F] }, _, .writeIE 0x1F, [], rfl, by decide, by decide, rfl⟩
theorem test_witness_HostInputsSetTheirRegisters :
    (∃ (s : State) (rest : List HostInput) (src : IrqSource), s.inputs = .raiseIrq src :: rest) ∧
    (∃ (s : State) (rest : List HostInput) (v : Byte), s.inputs = .writeIF v :: rest) ∧
    (∃ (s : State) (rest : List HostInput) (v : Byte), s.inputs = .writeIE v :: rest) ∧
    (∃ (s : State) (rest : List HostInput), s.inputs = .armSwitch :: rest) ∧
    (∃ (s : State) (rest : List HostInput) (a : Word) (v : Byte), s.inputs = .busWrite a v :: rest) ∧
    (∃ (s : State) (rest : List HostInput) (dev : List Byte), s.inputs = .deviceChange dev :: rest) ∧
    (∃ (s : State) (rest : List HostInput) (on : Bool) (tick : Nat) (search : Bool),
      s.inputs = .videoChange on tick search :: rest) ∧
    (∃ (s : State) (rest : List HostInput), s.inputs = .pause :: rest) ∧
    (∃ (s t : State) (rest : List HostInput), s.inputs = .tick :: rest ∧ step { s with inputs := [] } = .next t ∧
      s.subCycle ≠ 0 ∧ t.subCycle = 0) :=
  ⟨⟨{ atCycle with inputs := [.raiseIrq .joypad] }, [], .joypad, rfl⟩,
   ⟨{ atCycle with inputs := [.writeIF 0xFF] }, [], 0xFF, rfl⟩,
   ⟨{ atCycle with inputs := [.writeIE 0xFF] }, [], 0xFF, rfl⟩,
   ⟨{ atCycle with inputs := [.armSwitch] }, [], rfl⟩,
   ⟨{ atCycle with inputs := [.busWrite 0xFFFF 0xFF, .tick] }, [.tick], 0xFFFF, 0xFF, rfl⟩,
   ⟨{ atCycle with inputs := [.deviceChange [0x01]] }, [], [0x01], rfl⟩,
   ⟨{ atCycle with inputs := [.videoChange false 0 true] }, [], false, 0, true, rfl⟩,
   ⟨{ atCycle with inputs := [.pause, .tick] }, [.tick], rfl⟩,
   ⟨{ atCycle with inputs := [.tick, .reset] }, _, [.reset], rfl, rfl, by decide, rfl⟩⟩
theorem test_witness_PreemptionLatchesTheFlags :
    ∃ s : State, s.cycleReady ∧ (s.state = .opcode ∨ s.state = .halted ∨ s.state = .stopped) ∧ s.ic.ime = true ∧
      s.ic.ifl &&& s.ic.ie &&& 0x1F ≠ 0 :=
  ⟨{ atCycle with state := .stopped, ic := controller true 0x10 0x10 }, ⟨rfl, rfl, by decide⟩, by decide⟩
theorem test_witness_DispatchBeginsOnlyBetweenInstructions :
    ∃ s t : State, step s = .next t ∧ SeqState.isDispatch t.state = true :=
  ⟨{ atCycle with state := .halted, ic := controller true 0x01 0x01 }, _, rfl, rfl⟩
theorem test_witness_ReadIESelectsTheLowestSource :
    ∃ s : State, s.cycleReady ∧ s.state = .irqReadIE ∧ s.ifSnap &&& s.ic.ie &&& 0x1F ≠ 0 :=
  ⟨{ atCycle with state := .irqReadIE, ifSnap := 0x10, ic := controller true 0x10 0x10 }, ⟨rfl, rfl, by decide⟩, by decide⟩
theorem test_witness_SpuriousWakeAborts :
    ∃ s : State, s.cycleReady ∧ s.state = .irqReadIE ∧ s.ifSnap &&& s.ic.ie &&& 0x1F = 0 :=
  ⟨{ atCycle with state := .irqReadIE, ifSnap := 0x24, ic := controller true 0x04 0x20 }, ⟨rfl, rfl, by decide⟩, by decide⟩
theorem test_witness_PushCyclesSaveTheProgramCounter :
    (∃ s : State, s.cycleReady ∧ s.state = .irqPush1) ∧ (∃ s : State, s.cycleReady ∧ s.state = .irqPush2) :=
  ⟨⟨{ atCycle with state := .irqPush1 }, ⟨rfl, rfl, by decide⟩, rfl⟩,
   ⟨{ atCycle with state := .irqPush2 }, ⟨rfl, rfl, by decide⟩, rfl⟩⟩
theorem test_witness_JumpLoadsTheVector :
    ∃ (s : State) (src : IrqSource), s.cycleReady ∧ s.state = .irqJump ∧
      (s.ifSnap &&& s.ieSnap).getLsbD (IrqSource.index src) = true ∧
      (∀ j, j < IrqSource.index src → (s.ifSnap &&& s.ieSnap).getLsbD j = false) :=
  ⟨{ atCycle with state := .irqJump, ifSnap := 0xF0, ieSnap := 0xFF }, .joypad, ⟨rfl, rfl, by decide⟩, rfl, by decide,
    by decide⟩
theorem test_witness_DispatchEntersTheHandler :
    (∃ (s : State) (src : IrqSource), s.cycleEnded ∧
      (s.state = .opcode ∨ s.state = .halted ∨ s.state = .stopped) ∧ s.ic.ime = true ∧
      (s.ic.ifl &&& s.ic.ie).getLsbD (IrqSource.index src) = true ∧
      (∀ j, j < IrqSource.index src → (s.ic.ifl &&& s.ic.ie).getLsbD j = false) ∧
      Memory.wf s.bus.mem = true ∧ s.params.windows = [] ∧ s.state = .stopped ∧ s.regs.sp = 0x0001) ∧
    (∃ (s : State) (src : IrqSource) (a : Word), s.cycleEnded ∧
      (s.state = .opcode ∨ s.state = .halted ∨ s.state = .stopped) ∧ s.ic.ime = true ∧
      (s.ic.ifl &&& s.ic.ie).getLsbD (IrqSource.index src) = true ∧
      (∀ j, j < IrqSource.index src → (s.ic.ifl &&& s.ic.ie).getLsbD j = false) ∧
      Memory.wf s.bus.mem = true ∧ a ≠ s.regs.sp - 1 ∧ a ≠ s.regs.sp - 2) :=
  ⟨⟨{ State.reset with state := .stopped, ic := controller true 0x14 0x1C, regs := { atCycle.regs with sp := 0x0001 } }, .timer,
     ⟨rfl, rfl, rfl⟩, by decide, rfl, by decide, by decide, by decide, rfl, rfl, rfl⟩,
   ⟨{ State.reset with
      ic := controller true 0x10 0xFF, params := { Params.standard with windows := [{ base := 0xFFFC, size := 2 }] } }, .joypad,
     0xFFFE, ⟨rfl, rfl, rfl⟩, by decide, rfl, by decide, by decide, by decide, by decide, by decide⟩⟩
theorem test_witness_DeferredEnableTakesTwoRetirements :
    (∃ ic : IntCtrl, ic.enableDelay = none) ∧ (∃ ic : IntCtrl, ic.enableDelay ≠ none) :=
  ⟨⟨controller false 0 0, rfl⟩, ⟨{ controller false 0 0 with enableDelay := some 0 }, by decide⟩⟩
theorem test_witness_MasterEnableChangesOnlyThere :
    ∃ s t : State, step s = .next t ∧ t.ic.ime ≠ s.ic.ime :=
  ⟨{ atCycle with ic := { ime := false, ie := 0, ifl := 0, enableDelay := some 0 } }, _, rfl, by decide⟩
theorem test_witness_HaltedWakeFetchesInTheSameCycle :
    ∃ s : State, s.cycleReady ∧ s.state = .halted ∧ s.ic.ime = false ∧ s.ic.ifl &&& s.ic.ie &&& 0x1F ≠ 0 :=
  ⟨{ atCycle with state := .halted, ic := controller false 0x01 0x01 }, ⟨rfl, rfl, by decide⟩, by decide⟩
theorem test_witness_HaltedOrStoppedWithoutWakeStays :
    (∃ s : State, s.inputs = [] ∧ s.fault = none ∧ s.state = .halted ∧ s.ic.ifl &&& s.ic.ie &&& 0x1F = 0) ∧
    (∃ s : State, s.inputs = [] ∧ s.fault = none ∧ s.state = .stopped ∧ s.ic.ime = false ∧
      s.ic.ifl &&& s.ic.ie &&& 0x1F ≠ 0) ∧
    (∃ s : State, s.inputs = [] ∧ s.fault = none ∧ s.state = .stopped ∧ s.ic.ime = true ∧
      s.ic.ifl &&& s.ic.ie &&& 0x1F = 0) :=
  ⟨⟨{ atCycle with state := .halted, ic := controller true 0x20 0x20 }, by decide⟩,
   ⟨{ atCycle with state := .stopped, ic := controller false 0x10 0x10 }, by decide⟩,
   ⟨{ atCycle with state := .stopped, ic := controller true 0x20 0x20 }, by decide⟩⟩
theorem test_witness_StoppedWithMaskedInterruptsHangs :
    ∃ s : State, s.state = .stopped ∧ s.ic.ime = false ∧ .reset ∉ s.inputs :=
  ⟨{ atCycle with state := .stopped, inputs := [.raiseIrq .joypad, .armSwitch] }, by decide⟩
theorem test_witness_AtMostOneBusAccessPerCycle : ∃ s t : State, step s = .next t := ⟨atCycle, _, rfl⟩
theorem test_witness_MemoryChangesOnlyByTheCyclesWrite :
    (∃ (s t : State) (v : Byte), s.cycleReady ∧ Memory.wf s.bus.mem = true ∧ step s = .next t ∧
      t.video.injected = s.video.injected ∧ (∀ v, BusAccess.write 0xFFFE v ∉ t.busTrace) ∧ s.params.windows = [] ∧
      BusAccess.write 0xFFFD v ∈ t.busTrace) ∧
    (∃ (s t : State) (a : Word), s.cycleReady ∧ Memory.wf s.bus.mem = true ∧ step s = .next t ∧
      t.video.injected = [(.incDec, 0)] ∧ showsVideo s.params a = false ∧ (∀ v, BusAccess.write a v ∉ t.busTrace)) :=
  ⟨⟨{ atCycle with state := .irqPush1 }, _, 0x01, ⟨rfl, rfl, by decide⟩, by decide, rfl, rfl,
     fun v h => by
       have h : BusAccess.write 0xFFFE v ∈ [BusAccess.write 0xFFFD 0x01] := h
       simp at h, rfl, by decide⟩,
   ⟨{ eligible true with
      op1 := 0x23, subCycle := 3, params := { Params.standard with videoMemory := [{ base := 0xFE00, size := 0xA0 }] } }, _,
     0xFEA0, ⟨rfl, rfl, by decide⟩, by decide, rfl, rfl, by decide, fun v h => nomatch h⟩⟩
theorem test_witness_OpcodeFetchDefersTheSecondByte :
    ∃ s : State, s.cycleReady ∧ s.state = .opcode ∧ (s.ic.ime = false ∨ s.ic.ifl &&& s.ic.ie &&& 0x1F = 0) ∧
      (readByte s s.regs.pc = 0xCB ∨ readByte s s.regs.pc = 0x10) :=
  ⟨withMem [(0x100, 0x10)], ⟨rfl, rfl, by decide⟩, by decide⟩
theorem test_witness_OpcodeFetchResolvesTheDescriptor :
    ∃ (s : State) (d : Descriptor), s.cycleReady ∧ s.state = .opcode ∧
      (s.ic.ime = false ∨ s.ic.ifl &&& s.ic.ie &&& 0x1F = 0) ∧
      readByte s s.regs.pc ≠ 0xCB ∧ readByte s s.regs.pc ≠ 0x10 ∧
      s.params.registry.lookup (readByte s s.regs.pc) = some d ∧ 1 ≤ d.length ∧ d.length ≤ 2 :=
  ⟨withMem [(0x100, 0xEA)], _, ⟨rfl, rfl, by decide⟩, rfl, by decide, by decide, by decide, rfl, by decide, by decide⟩
theorem test_witness_SecondByteFetchResolvesTheDescriptor :
    (∃ (s : State) (d : Descriptor), s.cycleReady ∧ s.state = .extOpcode ∧
      s.params.registry.lookupExtended (readByte s s.regs.pc) = some d ∧ d.length ≤ 2 ∧ s.operandIdx < d.length) ∧
    (∃ (s : State) (d : Descriptor), s.cycleReady ∧ s.state = .extOpcode ∧
      s.params.registry.lookupExtended (readByte s s.regs.pc) = some d ∧ d.length ≤ 2 ∧ d.length ≤ s.operandIdx) :=
  ⟨⟨{ withMem [(0x100, 0x01)] with state := .extOpcode, op1 := 0xCB, params := paramsOf (descriptor 2 []) }, _,
     ⟨rfl, rfl, by decide⟩, rfl, rfl, by decide, by decide⟩,
   ⟨{ withMem [(0x100, 0x37)] with state := .extOpcode, op1 := 0xCB }, _, ⟨rfl, rfl, by decide⟩, rfl, rfl, by decide,
     by decide⟩⟩
theorem test_witness_OperandBytesFillTheirSlots :
    (∃ (s : State) (d : Descriptor), s.cycleReady ∧ s.state = .operand ∧ s.desc = some d ∧ d.length = 2 ∧
      s.operandIdx = 0) ∧
    (∃ (s : State) (d : Descriptor), s.cycleReady ∧ s.state = .operand ∧ s.desc = some d ∧ d.length ≤ 2 ∧
      s.operandIdx + 1 = d.length ∧ s.operandIdx = 0) ∧
    (∃ (s : State) (d : Descriptor), s.cycleReady ∧ s.state = .operand ∧ s.desc = some d ∧ d.length ≤ 2 ∧
      s.operandIdx + 1 = d.length ∧ s.operandIdx = 1) :=
  ⟨⟨{ atCycle with state := .operand, desc := some (descriptor 2 []) }, _, ⟨rfl, rfl, by decide⟩, rfl, rfl, rfl, rfl⟩,
   ⟨{ atCycle with state := .operand, desc := some (descriptor 1 []) }, _, ⟨rfl, rfl, by decide⟩, rfl, rfl, by decide, rfl,
     rfl⟩,
   ⟨{ atCycle with state := .operand, desc := some (descriptor 2 []), operandIdx := 1 }, _, ⟨rfl, rfl, by decide⟩, rfl, rfl,
     by decide, rfl, rfl⟩⟩
theorem test_witness_OperandStateChecksTheDescriptor :
    (∃ s : State, s.cycleReady ∧ s.state = .operand ∧ s.desc = none) ∧
    (∃ (s : State) (d : Descriptor), s.cycleReady ∧ s.state = .operand ∧ s.desc = some d ∧ 2 < d.length) ∧
    (∃ (s : State) (d : Descriptor), s.cycleReady ∧ s.state = .opcode ∧
      (s.ic.ime = false ∨ s.ic.ifl &&& s.ic.ie &&& 0x1F = 0) ∧
      readByte s s.regs.pc ≠ 0xCB ∧ readByte s s.regs.pc ≠ 0x10 ∧
      s.params.registry.lookup (readByte s s.regs.pc) = some d ∧ 2 < d.length) ∧
    (∃ (s : State) (d : Descriptor), s.cycleReady ∧ s.state = .extOpcode ∧
      s.params.registry.lookupExtended (readByte s s.regs.pc) = some d ∧ 2 < d.length) :=
  ⟨⟨{ atCycle with state := .operand }, ⟨rfl, rfl, by decide⟩, rfl, rfl⟩,
   ⟨{ atCycle with state := .operand, desc := some (descriptor 3 []) }, _, ⟨rfl, rfl, by decide⟩, rfl, rfl, by decide⟩,
   ⟨{ withMem [(0x100, 0x01)] with haltBug := true, params := paramsOf (descriptor 3 []) }, _, ⟨rfl, rfl, by decide⟩, rfl,
     by decide, by decide, by decide, rfl, by decide⟩,
   ⟨{ withMem [(0x100, 0x01)] with state := .extOpcode, op1 := 0xCB, params := paramsOf (descriptor 3 []) }, _,
     ⟨rfl, rfl, by decide⟩, rfl, rfl, by decide⟩⟩
theorem test_witness_UnregisteredFirstByteFaults :
    ∃ s : State, s.cycleReady ∧ s.state = .opcode ∧ (s.ic.ime = false ∨ s.ic.ifl &&& s.ic.ie &&& 0x1F = 0) ∧
      readByte s s.regs.pc ≠ 0xCB ∧ readByte s s.regs.pc ≠ 0x10 ∧
      s.params.registry.lookup (readByte s s.regs.pc) = none :=
  ⟨withMem [(0x100, 0xD3)], ⟨rfl, rfl, by decide⟩, by decide⟩
theorem test_witness_UnregisteredSecondByteFaults :
    ∃ s : State, s.cycleReady ∧ s.state = .extOpcode ∧
      s.params.registry.lookupExtended (readByte s s.regs.pc) = none :=
  ⟨{ withMem [(0x100, 0x11)] with state := .extOpcode, op1 := 0x10 }, ⟨rfl, rfl, by decide⟩, by decide⟩
theorem test_witness_DecodeOfEncode : ∃ (r : Registry) (i : Instr), i.wellFormed r = true :=
  ⟨Registry.fixture, .plain 0xEA [0xFF, 0xFF], by decide⟩
theorem test_witness_EncodeOfDecode :
    ∃ (r : Registry) (bytes rest : List Byte) (i : Instr), decode r bytes = .ok (i, rest) :=
  ⟨Registry.fixture, [0xEA, 0x00, 0xC0, 0x76], [0x76], .plain 0xEA [0x00, 0xC0], rfl⟩
theorem test_witness_RunningCycleRunsTheInstruction : ∃ s : State, s.cycleReady ∧ s.state = .running :=
  ⟨{ atCycle with state := .running }, ⟨rfl, rfl, by decide⟩, rfl⟩
theorem test_witness_OpcodeCycleRunsAOneByteInstruction :
    ∀ bug : Bool, ∃ (s : State) (i : Instr) (rest : List Byte) (d : Descriptor), s.cycleReady ∧ s.state = .opcode ∧
      (s.ic.ime = false ∨ s.ic.ifl &&& s.ic.ie &&& 0x1F = 0) ∧
      decode s.params.registry [readByte s s.regs.pc] = .ok (i, rest) ∧ isLegal i = true ∧
      resolvedDescriptor s.params.registry (opcodeBytes i).1 (opcodeBytes i).2 = some d ∧ s.haltBug = bug :=
  fun bug => ⟨{ withMem [(0x100, 0x3D)] with haltBug := bug }, .plain 0x3D [], [], _, ⟨rfl, rfl, by cases bug <;> decide⟩, rfl,
    .inl rfl, rfl, rfl, rfl, rfl⟩
theorem test_witness_DecodedInstructionRuns :
    (∃ (s : State) (i : Instr) (rest : List Byte) (d : Descriptor), s.cycleEnded ∧ s.state = .opcode ∧
      (s.ic.ime = false ∨ s.ic.ifl &&& s.ic.ie &&& 0x1F = 0) ∧
      decode s.params.registry (s.fetchedBytes 4) = .ok (i, rest) ∧ s.fetchesFromArray (encode i).length ∧
      isLegal i = true ∧ resolvedDescriptor s.params.registry (opcodeBytes i).1 (opcodeBytes i).2 = some d ∧
      s.haltBug = false ∧ s.params.windows ≠ []) ∧
    (∃ (s : State) (i : Instr) (rest : List Byte) (d : Descriptor), s.cycleEnded ∧ s.state = .opcode ∧
      (s.ic.ime = false ∨ s.ic.ifl &&& s.ic.ie &&& 0x1F = 0) ∧
      decode s.params.registry (s.fetchedBytes 4) = .ok (i, rest) ∧ s.fetchesFromArray (encode i).length ∧
      isLegal i = true ∧ resolvedDescriptor s.params.registry (opcodeBytes i).1 (opcodeBytes i).2 = some d ∧
      s.haltBug = true) :=
  ⟨⟨{ resetWith [(0x100, 0xEA), (0x102, 0xC0)] with
      params := { mapped (some 0xFF0F) (some 0xFFFF) none with windows := [{ base := 0x103, size := 0x1000 }] } },
     .plain 0xEA [0x00, 0xC0], [0x00], _, ⟨rfl, rfl, rfl⟩, rfl, by decide, rfl, by unfold State.fetchesFromArray; decide, rfl, rfl,
     rfl, by decide⟩,
   ⟨{ resetWith [(0x100, 0xEA), (0x101, 0xC0)] with haltBug := true }, .plain 0xEA [0xEA, 0xC0], [0x00], _, ⟨rfl, rfl, rfl⟩, rfl,
     by decide, rfl, by unfold State.fetchesFromArray; decide, rfl, rfl, rfl⟩⟩
theorem test_witness_PreparedStateRunsItsWord :
    (∃ (s : State) (nbits w : Nat) (i : Instr) (rest : List Byte), s.plainBus ∧ Memory.wf s.bus.mem = true ∧ nbits ≤ 32 ∧
      decode s.params.registry (tableWordBytes nbits w) = .ok (i, rest) ∧ (encode i).length = 1 ∧ isLegal i = true) ∧
    (∃ (s : State) (nbits w : Nat) (i : Instr) (rest : List Byte), s.plainBus ∧ Memory.wf s.bus.mem = true ∧ nbits ≤ 32 ∧
      decode s.params.registry (tableWordBytes nbits w) = .ok (i, rest) ∧ (encode i).length = 2 ∧ isLegal i = true) ∧
    (∃ (s : State) (nbits w : Nat) (i : Instr) (rest : List Byte), s.plainBus ∧ Memory.wf s.bus.mem = true ∧ nbits ≤ 32 ∧
      decode s.params.registry (tableWordBytes nbits w) = .ok (i, rest) ∧ (encode i).length = 1 ∧ isLegal i = false) ∧
    (∃ (s : State) (nbits w : Nat) (i : Instr) (rest : List Byte), s.plainBus ∧ Memory.wf s.bus.mem = true ∧ nbits ≤ 32 ∧
      decode s.params.registry (tableWordBytes nbits w) = .ok (i, rest) ∧ (encode i).length = 2 ∧ isLegal i = false) :=
  ⟨⟨State.reset, 8, 0x76, .halt [], [0x00, 0x00, 0x00], ⟨rfl, rfl, rfl, rfl⟩, by decide, by decide, rfl, rfl, rfl⟩,
   ⟨State.reset, 16, 0x1000, .stop 0x00 [], [0x00, 0x00], ⟨rfl, rfl, rfl, rfl⟩, by decide, by decide, rfl, rfl, rfl⟩,
   ⟨State.reset, 8, 0xD3, .illegal 0xD3, [0x00, 0x00, 0x00], ⟨rfl, rfl, rfl, rfl⟩, by decide, by decide, rfl, rfl, rfl⟩,
   ⟨State.reset, 16, 0xCB11, .illegalExt 0x11, [0x00, 0x00], ⟨rfl, rfl, rfl, rfl⟩, by decide, by decide, rfl, rfl, rfl⟩⟩
theorem test_witness_HaltBugOnHaltLoops :
    ∃ (s : State) (d : Descriptor), s.cycleEnded ∧ s.state = .opcode ∧ s.haltBug = true ∧ s.ic.ime = false ∧
      s.ic.ifl &&& s.ic.ie &&& 0x1F ≠ 0 ∧ s.plainBus ∧ Memory.read s.regs.pc.toNat s.bus.mem = 0x76 ∧
      s.params.registry.lookup 0x76 = some d ∧ d.length = 0 :=
  ⟨{ resetWith [(0x100, 0x76)] with haltBug := true, ic := controller false 0x10 0x10 }, _, ⟨rfl, rfl, rfl⟩, rfl, rfl, rfl,
    by decide, ⟨rfl, rfl, rfl, rfl⟩, by decide, rfl, rfl⟩
theorem test_witness_ExhaustedSequenceRetires :
    ∃ (i : Instr) (operands : List Byte) (s : State), genericOperands i = some operands ∧ s.execIdx = s.ops.length :=
  ⟨.ext 0x00 [], [], inRunning [], rfl, rfl⟩
theorem test_witness_OpWithoutBusCallRuns :
    ∃ (i : Instr) (operands : List Byte) (s : State) (m : MicroOp) (regs : RegFile) (ctx : Ctx),
      genericOperands i = some operands ∧ s.ops[s.execIdx]? = some m ∧
      (s.busUsed = false ∨ MicroOp.accesses m = false) ∧
      (MicroOp.corruption m s.regs s.ctx = none ∨ (s.video.displayEnabled = true ∧ inCorruptionWindow s = false)) ∧
      MicroOp.start m s.regs (OperandBuf.load s.operand operands) s.ctx = .finish regs ctx ∧
      MicroOp.forcesCycleEnd m = true :=
  ⟨.plain 0x20 [0x80], [0x80], inRunning [.addPC], .addPC, _, _, rfl, rfl, by decide, by decide, rfl, rfl⟩
theorem test_witness_OpWithoutBusCallRuns_no_forced_end :
    ∃ (i : Instr) (operands : List Byte) (s : State) (m : MicroOp) (regs : RegFile) (ctx : Ctx),
      genericOperands i = some operands ∧ s.ops[s.execIdx]? = some m ∧
      (s.busUsed = false ∨ MicroOp.accesses m = false) ∧
      (MicroOp.corruption m s.regs s.ctx = none ∨ (s.video.displayEnabled = true ∧ inCorruptionWindow s = false)) ∧
      MicroOp.start m s.regs (OperandBuf.load s.operand operands) s.ctx = .finish regs ctx ∧
      MicroOp.forcesCycleEnd m = false :=
  ⟨.ext 0x37 [], [], { inRunning [.swapA] with busUsed := true }, .swapA, _, _, rfl, rfl, by decide, by decide, rfl, rfl⟩
theorem test_witness_ReadingOpRuns :
    ∀ force : Bool, ∃ (i : Instr) (operands : List Byte) (s : State) (m : MicroOp) (a : Word) (regs : RegFile) (ctx : Ctx),
      genericOperands i = some operands ∧ s.ops[s.execIdx]? = some m ∧ s.busUsed = false ∧
      (MicroOp.corruption m s.regs s.ctx = none ∨ (s.video.displayEnabled = true ∧ inCorruptionWindow s = false)) ∧
      MicroOp.start m s.regs (OperandBuf.load s.operand operands) s.ctx = .read a ∧ MicroOp.readsMemory m = true ∧
      MicroOp.resume m s.regs (OperandBuf.load s.operand operands) s.ctx (readByte s a) = .finish regs ctx ∧
      MicroOp.forcesCycleEnd m = force :=
  fun force => ⟨.plain 0xFA [0xFF, 0xFF], [0xFF, 0xFF], inRunning [busOp force none (.read 0xFFFF) none],
    busOp force none (.read 0xFFFF) none, 0xFFFF, _, _, rfl, rfl, rfl, .inl rfl, rfl, rfl, rfl, rfl⟩
theorem test_witness_StoringOpRuns :
    ∀ force : Bool,
      ∃ (i : Instr) (operands : List Byte) (s : State) (m : MicroOp) (a : Word) (v : Byte) (regs : RegFile) (ctx : Ctx),
        genericOperands i = some operands ∧ s.ops[s.execIdx]? = some m ∧ s.busUsed = false ∧
        Memory.wf s.bus.mem = true ∧
        (MicroOp.corruption m s.regs s.ctx = none ∨ (s.video.displayEnabled = true ∧ inCorruptionWindow s = false)) ∧
        MicroOp.start m s.regs (OperandBuf.load s.operand operands) s.ctx = .write a v ∧ MicroOp.writesMemory m = true ∧
        MicroOp.resume m s.regs (OperandBuf.load s.operand operands) s.ctx v = .finish regs ctx ∧
        MicroOp.forcesCycleEnd m = force ∧ s.params.windows = [] :=
  fun force => ⟨.plain 0xEA [0xFF, 0xFF], [0xFF, 0xFF], inRunning [busOp force none (.write 0xFFFF 0x00) none],
    busOp force none (.write 0xFFFF 0x00) none, 0xFFFF, 0x00, _, _, rfl, rfl, rfl, rfl, .inl rfl, rfl, rfl, rfl, rfl, rfl⟩
theorem test_witness_StoresReachTheMappedRegisters :
    (∃ (s : State) (a : Word), s.params.flagAddr = some a) ∧
    (∃ (s : State) (a : Word), s.params.flagAddr = some a ∧ s.params.enableAddr = some a) ∧
    (∃ (s : State) (a : Word), s.params.flagAddr ≠ some a ∧ s.params.enableAddr = some a) ∧
    (∃ (s : State) (a : Word), s.params.flagAddr ≠ some a ∧ s.params.enableAddr ≠ some a ∧ s.params.speedAddr ≠ some a) ∧
    (∃ (s : State) (a : Word), s.params.flagAddr ≠ some a ∧ s.params.enableAddr ≠ some a ∧ s.params.speedAddr = some a) ∧
    (∃ (s : State) (a : Word), s.params.flagAddr = some a ∧ s.params.speedAddr = some a) :=
  ⟨⟨{ atCycle with params := mapped (some 0xFF0F) none none }, 0xFF0F, rfl⟩,
   ⟨{ atCycle with params := mapped (some 0xFFFF) (some 0xFFFF) none }, 0xFFFF, rfl, rfl⟩,
   ⟨{ atCycle with params := mapped none (some 0xFFFF) none }, 0xFFFF, by decide⟩,
   ⟨atCycle, 0xFFFF, by decide⟩,
   ⟨{ atCycle with params := mapped none none (some 0x0000) }, 0x0000, by decide⟩,
   ⟨{ atCycle with params := mapped (some 0xFFFF) none (some 0xFFFF) }, 0xFFFF, rfl, rfl⟩⟩
theorem test_witness_BusConflictWaits :
    ∃ (i : Instr) (operands : List Byte) (s : State) (m : MicroOp), genericOperands i = some operands ∧
      s.ops[s.execIdx]? = some m ∧ s.busUsed = true ∧ MicroOp.accesses m = true :=
  ⟨.plain 0x77 [], [], { inRunning [.stAHL] with busUsed := true }, .stAHL, rfl, rfl, rfl, rfl⟩
theorem test_witness_CorruptionAbortEndsTheCycle :
    (∀ mode : CorruptAbortMode,
      ∃ (i : Instr) (operands : List Byte) (s : State) (m : MicroOp) (k : CorruptionKind) (regs : RegFile) (ctx : Ctx),
        genericOperands i = some operands ∧ s.ops[s.execIdx]? = some m ∧
        (s.busUsed = false ∨ MicroOp.accesses m = false) ∧ MicroOp.corruption m s.regs s.ctx = some k ∧
        s.video.displayEnabled = false ∧ s.params.abortMode = mode ∧
        MicroOp.start m s.regs (OperandBuf.load s.operand operands) s.ctx = .finish regs ctx) ∧
    (∃ (i : Instr) (operands : List Byte) (s : State) (m : MicroOp) (k : CorruptionKind) (a : Word) (regs : RegFile) (ctx : Ctx),
      genericOperands i = some operands ∧ s.ops[s.execIdx]? = some m ∧
      (s.busUsed = false ∨ MicroOp.accesses m = false) ∧ MicroOp.corruption m s.regs s.ctx = some k ∧
      s.video.displayEnabled = false ∧ s.params.abortMode = .runThenEnd ∧
      MicroOp.start m s.regs (OperandBuf.load s.operand operands) s.ctx = .read a ∧ MicroOp.readsMemory m = true ∧
      MicroOp.resume m s.regs (OperandBuf.load s.operand operands) s.ctx (readByte s a) = .finish regs ctx) ∧
    (∃ (i : Instr) (operands : List Byte) (s : State) (m : MicroOp) (k : CorruptionKind) (a : Word) (v : Byte) (regs : RegFile)
      (ctx : Ctx), genericOperands i = some operands ∧ s.ops[s.execIdx]? = some m ∧
      (s.busUsed = false ∨ MicroOp.accesses m = false) ∧ MicroOp.corruption m s.regs s.ctx = some k ∧
      s.video.displayEnabled = false ∧ s.params.abortMode = .runThenEnd ∧
      MicroOp.start m s.regs (OperandBuf.load s.operand operands) s.ctx = .write a v ∧ MicroOp.writesMemory m = true ∧
      MicroOp.resume m s.regs (OperandBuf.load s.operand operands) s.ctx v = .finish regs ctx) :=
  ⟨fun mode => ⟨.plain 0x23 [], [], eligibleFor false mode .incHL, .incHL, .incDec, _, _, rfl, rfl, .inl rfl, rfl, rfl, rfl, rfl⟩,
   ⟨.plain 0x01 [], [], eligibleFor false .runThenEnd (busOp false (some .incDec) (.read 0xFE00) none),
     busOp false (some .incDec) (.read 0xFE00) none, .incDec, 0xFE00, _, _, rfl, rfl, .inl rfl, rfl, rfl, rfl, rfl, rfl, rfl⟩,
   ⟨.plain 0x01 [], [], eligibleFor false .runThenEnd (busOp false (some .incDec) (.write 0xFE00 0x00) none),
     busOp false (some .incDec) (.write 0xFE00 0x00) none, .incDec, 0xFE00, 0x00, _, _, rfl, rfl, .inl rfl, rfl, rfl, rfl, rfl, rfl,
     rfl⟩⟩
theorem test_witness_CorruptionIsInjectedInTheWindow :
    ∀ (m : MicroOp) (a : Word),
      m ∈ [.incHL, busOp false (some .incDec) (.read a) none, busOp false (some .incDec) (.write a 0x00) none,
        busOp true (some .incDec) (.read a) none, busOp true (some .incDec) (.write a 0x00) none] →
      ∃ (i : Instr) (operands : List Byte) (s : State) (k : CorruptionKind) (regs : RegFile) (ctx : Ctx),
        genericOperands i = some operands ∧ s.ops[s.execIdx]? = some m ∧
        (s.busUsed = false ∨ MicroOp.accesses m = false) ∧ MicroOp.corruption m s.regs s.ctx = some k ∧
        s.video.displayEnabled = true ∧ s.video.searchPhase = true ∧
        (∀ limit, s.params.tickLimit = some limit → s.video.lineTick < limit) ∧
        (MicroOp.start m s.regs (OperandBuf.load s.operand operands) s.ctx = .finish regs ctx ∨
         (MicroOp.start m s.regs (OperandBuf.load s.operand operands) s.ctx = .read a ∧ MicroOp.readsMemory m = true ∧
          MicroOp.resume m s.regs (OperandBuf.load s.operand operands) s.ctx
            (readByte { s with
              video := { s.video with injected := s.video.injected ++ [(k, s.video.lineTick)] }, bus := corruptBus k s } a) =
            .finish regs ctx) ∨
         (MicroOp.start m s.regs (OperandBuf.load s.operand operands) s.ctx = .write a 0x00 ∧ MicroOp.writesMemory m = true ∧
          MicroOp.resume m s.regs (OperandBuf.load s.operand operands) s.ctx 0x00 = .finish regs ctx)) ∧
        Memory.wf s.bus.mem = true ∧ s.params.windows = [] ∧ s.params.videoMemory = [] := by
  intro m a h
  simp only [List.mem_cons, List.not_mem_nil, or_false] at h
  rcases h with rfl | rfl | rfl | rfl | rfl
  · exact ⟨.plain 0x23 [], [], eligibleFor true .retry .incHL, .incDec, _, _, rfl, rfl, .inl rfl, rfl, rfl, rfl,
      fun _ h => (by cases h; exact Nat.zero_lt_one), .inl rfl, rfl, rfl, rfl⟩
  · exact ⟨.plain 0x01 [], [], eligibleFor true .retry _, .incDec, _, _, rfl, rfl, .inl rfl, rfl, rfl, rfl,
      fun _ h => (by cases h; exact Nat.zero_lt_one), .inr (.inl ⟨rfl, rfl, rfl⟩), rfl, rfl, rfl⟩
  · exact ⟨.plain 0x01 [], [], eligibleFor true .retry _, .incDec, _, _, rfl, rfl, .inl rfl, rfl, rfl, rfl,
      fun _ h => (by cases h; exact Nat.zero_lt_one), .inr (.inr ⟨rfl, rfl, rfl⟩), rfl, rfl, rfl⟩
  · exact ⟨.plain 0x01 [], [], eligibleFor true .retry _, .incDec, _, _, rfl, rfl, .inl rfl, rfl, rfl, rfl,
      fun _ h => (by cases h; exact Nat.zero_lt_one), .inr (.inl ⟨rfl, rfl, rfl⟩), rfl, rfl, rfl⟩
  · exact ⟨.plain 0x01 [], [], eligibleFor true .retry _, .incDec, _, _, rfl, rfl, .inl rfl, rfl, rfl, rfl,
      fun _ h => (by cases h; exact Nat.zero_lt_one), .inr (.inr ⟨rfl, rfl, rfl⟩), rfl, rfl, rfl⟩
theorem test_witness_BrokenBusContractFaults :
    (∃ (i : Instr) (operands : List Byte) (s : State) (m : MicroOp) (a : Word), genericOperands i = some operands ∧
      s.ops[s.execIdx]? = some m ∧ (s.busUsed = false ∨ MicroOp.accesses m = false) ∧
      MicroOp.corruption m s.regs s.ctx = none ∧
      MicroOp.start m s.regs (OperandBuf.load s.operand operands) s.ctx = .read a ∧ MicroOp.readsMemory m = false) ∧
    (∃ (i : Instr) (operands : List Byte) (s : State) (m : MicroOp) (a : Word) (v : Byte),
      genericOperands i = some operands ∧ s.ops[s.execIdx]? = some m ∧
      (s.busUsed = false ∨ MicroOp.accesses m = false) ∧ MicroOp.corruption m s.regs s.ctx = none ∧
      MicroOp.start m s.regs (OperandBuf.load s.operand operands) s.ctx = .write a v ∧
      MicroOp.writesMemory m = false) ∧
    (∃ (i : Instr) (operands : List Byte) (s : State) (m : MicroOp) (a : Word), genericOperands i = some operands ∧
      s.ops[s.execIdx]? = some m ∧ (s.busUsed = false ∨ MicroOp.accesses m = false) ∧
      MicroOp.corruption m s.regs s.ctx = none ∧
      MicroOp.start m s.regs (OperandBuf.load s.operand operands) s.ctx = .read a ∧ MicroOp.readsMemory m = true ∧
      (∀ r c, MicroOp.resume m s.regs (OperandBuf.load s.operand operands) s.ctx (readByte s a) ≠ .finish r c)) ∧
    (∃ (i : Instr) (operands : List Byte) (s : State) (m : MicroOp) (a : Word) (v : Byte),
      genericOperands i = some operands ∧ s.ops[s.execIdx]? = some m ∧
      (s.busUsed = false ∨ MicroOp.accesses m = false) ∧ MicroOp.corruption m s.regs s.ctx = none ∧
      MicroOp.start m s.regs (OperandBuf.load s.operand operands) s.ctx = .write a v ∧ MicroOp.writesMemory m = true ∧
      (∀ r c, MicroOp.resume m s.regs (OperandBuf.load s.operand operands) s.ctx v ≠ .finish r c)) :=
  ⟨⟨.plain 0x01 [], [], inRunning [undeclaredRead], undeclaredRead, 0xC000, rfl, rfl, .inl rfl, rfl, rfl, rfl⟩,
   ⟨.plain 0x01 [], [], inRunning [undeclaredWrite], undeclaredWrite, 0xC000, 0x01, rfl, rfl, .inl rfl, rfl, rfl, rfl⟩,
   ⟨.plain 0x01 [], [], inRunning [busOp false none (.read 0xC000) (some (.read 0xC000))], _, 0xC000, rfl, rfl, .inl rfl, rfl, rfl,
     rfl, nofun⟩,
   ⟨.plain 0x01 [], [], inRunning [busOp false none (.write 0xC000 0x01) (some (.write 0xC001 0x02))], _, 0xC000, 0x01, rfl, rfl,
     .inl rfl, rfl, rfl, rfl, nofun⟩⟩
theorem test_witness_IndexPastTheSequenceFaults :
    ∃ (i : Instr) (operands : List Byte) (s : State), genericOperands i = some operands ∧ s.ops.length < s.execIdx :=
  ⟨.plain 0x00 [], [], { inRunning [] with execIdx := 1 }, rfl, by decide⟩

/-- The register operations of the fixture meet `registerOp`, and its loads, stores and jumps `keepsContract`. -/
theorem test_decA_registerOp : registerOp .decA := ⟨rfl, rfl, fun _ _ _ => ⟨rfl, _, _, rfl⟩⟩
theorem test_keepsContract :
    keepsContract .stAAbs ∧ keepsContract .ldAAbs ∧ keepsContract .proceedIfANZ ∧ keepsContract .addPC :=
  ⟨fun _ _ _ => ⟨rfl, _, _, rfl⟩, fun _ _ _ => ⟨rfl, fun _ => ⟨_, _, rfl⟩⟩, fun _ _ _ => trivial, fun _ _ _ => trivial⟩

theorem test_witness_RegisterSequenceRetiresInOneCycle :
    ∃ (i : Instr) (operands : List Byte) (s : State), genericOperands i = some operands ∧ s.execIdx ≤ s.ops.length ∧
      (∀ m ∈ s.ops.drop s.execIdx, registerOp m) :=
  ⟨.plain 0x3D [], [], inRunning [.decA], rfl, by decide, fun m h => by
    cases List.mem_singleton.mp h; exact test_decA_registerOp⟩
theorem test_witness_GenericInstructionFrame :
    ∃ (i : Instr) (operands : List Byte) (s t : State), genericOperands i = some operands ∧ exec i s = .next t :=
  ⟨.plain 0x77 [], [], inRunning [.stAHL], _, rfl, rfl⟩
theorem test_witness_NonStoringSequenceLeavesMemory :
    (∃ (i : Instr) (operands : List Byte) (s t : State), genericOperands i = some operands ∧ exec i s = .next t ∧
      (∀ m ∈ s.ops.drop s.execIdx, MicroOp.writesMemory m = false) ∧ t.video.injected = s.video.injected) ∧
    (∃ (i : Instr) (operands : List Byte) (s t : State) (a : Word), genericOperands i = some operands ∧ exec i s = .next t ∧
      (∀ m ∈ s.ops.drop s.execIdx, MicroOp.writesMemory m = false) ∧ Memory.wf s.bus.mem = true ∧
      showsVideo s.params a = false ∧ s.params.videoMemory ≠ []) :=
  ⟨⟨.plain 0xFA [0x00, 0xC0], [0x00, 0xC0], inRunning [.ldAAbs], _, rfl, rfl, by decide, rfl⟩,
   ⟨.plain 0x23 [], [], { eligible true with
      params := { Params.standard with videoMemory := [{ base := 0xFE00, size := 0xA0 }] } }, _, 0xFDFF, rfl, rfl, by decide,
     by decide, by decide, by decide⟩⟩
theorem test_witness_FixtureOperationsCompute :
    ∀ m ∈ [MicroOp.ldAImm, .decA, .swapA, .ldAAbs, .stAAbs, .stAHL, .incHL, .addPC, .proceedIfANZ, .eiOp, .diOp],
      ∃ (i : Instr) (operands : List Byte) (s : State), genericOperands i = some operands ∧ s.busUsed = false ∧
        s.ops[s.execIdx]? = some m ∧ (s.regs.hl < 0xFE00 ∨ 0xFEFF < s.regs.hl) :=
  fun m _ => ⟨.plain 0xEA [0xFF, 0x80], [0xFF, 0x80], { inRunning [m] with regs := { atCycle.regs with hl := 0xFDFF } }, rfl,
    rfl, rfl, by simp⟩
theorem test_witness_RetryLivelocksWhileTheDisplayIsOff :
    ∃ (s : State) (m : MicroOp) (k : CorruptionKind), s.cycleEnded ∧ s.state = .running ∧ s.op1 ≠ 0x10 ∧ s.op1 ≠ 0x76 ∧
      s.ops[s.execIdx]? = some m ∧ MicroOp.corruption m s.regs s.ctx = some k ∧ s.video.displayEnabled = false ∧
      s.params.abortMode = .retry :=
  ⟨{ eligible false with op1 := 0x23 }, .incHL, .incDec, ⟨rfl, rfl, rfl⟩, by decide⟩
theorem test_witness_CycleCountOfAnInstruction :
    (∃ (s : State) (i : Instr) (operands rest : List Byte) (d : Descriptor) (k : Nat), s.cycleEnded ∧ s.state = .opcode ∧
      (s.ic.ime = false ∨ s.ic.ifl &&& s.ic.ie &&& 0x1F = 0) ∧
      decode s.params.registry (s.fetchedBytes 4) = .ok (i, rest) ∧ s.fetchesFromArray (encode i).length ∧
      genericOperands i = some operands ∧
      resolvedDescriptor s.params.registry (opcodeBytes i).1 (opcodeBytes i).2 = some d ∧ (∀ m ∈ d.ops, keepsContract m) ∧
      (s.video.displayEnabled = true ∨ ∀ m ∈ d.ops, ∀ regs ctx, MicroOp.corruption m regs ctx = none) ∧
      (encode i).length ≤ k ∧
      k < cycleCount (encode i).length true ((opsRun (OperandBuf.load OperandBuf.clear operands) d.ops (s.decoded i d)).map
        (fun m => (MicroOp.accesses m, MicroOp.forcesCycleEnd m)))) ∧
    (∃ (s : State) (i : Instr) (operands rest : List Byte) (d : Descriptor), s.cycleEnded ∧ s.state = .opcode ∧
      (s.ic.ime = false ∨ s.ic.ifl &&& s.ic.ie &&& 0x1F = 0) ∧
      decode s.params.registry (s.fetchedBytes 4) = .ok (i, rest) ∧ s.fetchesFromArray (encode i).length ∧
      genericOperands i = some operands ∧
      resolvedDescriptor s.params.registry (opcodeBytes i).1 (opcodeBytes i).2 = some d ∧ (∀ m ∈ d.ops, keepsContract m) ∧
      (s.video.displayEnabled = true ∨ ∀ m ∈ d.ops, ∀ regs ctx, MicroOp.corruption m regs ctx = none) ∧
      (opsRun (OperandBuf.load OperandBuf.clear operands) d.ops (s.decoded i d)).length < d.ops.length) :=
  ⟨⟨resetWith [(0x100, 0xEA), (0x102, 0xC0)], .plain 0xEA [0x00, 0xC0], [0x00, 0xC0], [0x00], _, 3, ⟨rfl, rfl, rfl⟩, rfl,
     by decide, rfl, by unfold State.fetchesFromArray; decide, rfl, rfl,
     fun m h => by cases List.mem_singleton.mp h; exact test_keepsContract.1, .inl rfl, by decide, by decide⟩,
   ⟨resetWith [(0x100, 0x20), (0x101, 0xFE)], .plain 0x20 [0xFE], [0xFE], [0x00, 0x00], _, ⟨rfl, rfl, rfl⟩, rfl, by decide, rfl,
     by unfold State.fetchesFromArray; decide, rfl, rfl,
     fun m h => by
       have h : m ∈ [MicroOp.proceedIfANZ, .addPC] := h
       simp only [List.mem_cons, List.not_mem_nil, or_false] at h
       rcases h with rfl | rfl
       · exact test_keepsContract.2.2.1
       · exact test_keepsContract.2.2.2,
     .inl rfl, by decide⟩⟩
/-- R353: a relative jump not taken takes 2 cycles, the fast-forward at its first micro-operation; one taken takes 3. -/
theorem test_cycleCount_jump :
    cycleCount 2 true ((opsRun { slot0 := 0xFE, slot1 := 0x00 } [.proceedIfANZ, .addPC] (inRunning [.proceedIfANZ, .addPC])).map
      (fun m => (MicroOp.accesses m, MicroOp.forcesCycleEnd m))) = 2 ∧
    cycleCount 2 true ((opsRun { slot0 := 0xFE, slot1 := 0x00 } [.proceedIfANZ, .addPC]
      { inRunning [.proceedIfANZ, .addPC] with regs := { atCycle.regs with a := 0x01 } }).map
      (fun m => (MicroOp.accesses m, MicroOp.forcesCycleEnd m))) = 3 := by decide
theorem test_witness_StepKeepsTheInvariant : ∃ s t : State, State.Inv s ∧ step s = .next t := by
  refine ⟨{ atCycle with state := .halted }, _, ?_, rfl⟩
  constructor <;> simp [atCycle, State.reset, Memory.wf, Memory.risesFrom, ticksPerCycle, SpeedMode.ticksPerCycle, Config.ticksNormal]

end Sys2Proof.Tests
end

section
/-! PROOF. The parameters along a step (O8): one lemma for each operation, from the micro-operations up to the tick, each saying
that the operation keeps `State.params`. -/

namespace Sys2Proof.Proofs.Params

open Sys2Proof.Machine
open Sys2Proof.Laws

/-! ## The walk of RUNNING -/

@[simp] theorem fastForward_toggle_params (m : MicroOp) (s : State) :
    (fastForward m (toggleAndAdvance m s)).params = s.params := by
  rw [MicroOps.fastForward_toggle]

theorem executeOp_ran_params {buf : OperandBuf} {m : MicroOp} {s t : State} (h : executeOp buf m s = .ran t) :
    t.params = s.params := by
  obtain ⟨regs, ctx, ⟨-, rfl⟩ | ⟨a, -, -, -, rfl⟩ | ⟨a, v, -, -, -, rfl⟩⟩ := MicroOps.executeOp_ran h
  · rfl
  · exact State.afterRead_params s a
  · exact State.storeByte_params s a v

theorem executeOp_raised_params {buf : OperandBuf} {m : MicroOp} {s t : State} (h : executeOp buf m s = .raised t) :
    t.params = s.params := by
  obtain rfl | ⟨a, -, rfl⟩ | ⟨a, v, -, -, rfl⟩ := MicroOps.executeOp_raised h <;> simp

theorem runOp_params (buf : OperandBuf) (m : MicroOp) (s : State) :
    (∀ t, runOp buf m s = .suspend t → t.params = s.params) ∧
    (∀ t, runOp buf m s = .again t → t.params = s.params) :=
  MicroOps.runOp_keeps (P := fun s t => t.params = s.params)
    (refl := rfl)
    (trans := fun _ _ hst htu => htu.trans hst)
    (inject := fun _ => rfl)
    (ran := fun _ _ h => (fastForward_toggle_params m _).trans (executeOp_ran_params h))
    (raised := fun _ _ h => executeOp_raised_params h)
    (skip := rfl)
    (flag := fun _ _ h => h)

theorem walk_params (buf : OperandBuf) (ops : List MicroOp) (s : State) : (walk buf ops s).params = s.params :=
  MicroOps.walk_keeps (P := fun s t => t.params = s.params)
    (trans := fun _ _ _ hst htu => htu.trans hst)
    (retired := State.retire_params)
    ops
    (one := fun m _ s => runOp_params buf m s)
    s

theorem runGeneric_params (buf : OperandBuf) (s : State) : (runGeneric buf s).params = s.params := by
  unfold runGeneric
  split
  · exact State.raiseFault_params _ s
  · exact walk_params buf _ s

/-! ## The meanings of the instructions -/

theorem stopIntercept_params (s : State) : (stopIntercept s).params = s.params := by
  unfold stopIntercept; split <;> rfl

theorem haltIntercept_params (s : State) : (haltIntercept s).params = s.params := by
  unfold haltIntercept; split <;> rfl

theorem exec_params {i : Instr} {s t : State} (h : exec i s = .next t) : t.params = s.params := by
  cases i with
  | halt => cases h; exact haltIntercept_params s
  | stop => cases h; exact stopIntercept_params s
  | ext | plain => cases h; exact runGeneric_params _ s
  | illegal | illegalExt | illegalStop => cases h; exact State.raiseFault_params _ s

/-! ## Fetch and decode -/

/-- The state a tick has reached, whether it is over or an instruction is yet to run in it. -/
def reached : Progress → State
  | .done s => s
  | .run _ s => s

@[simp] theorem reached_done (s : State) : reached (.done s) = s := rfl
@[simp] theorem reached_run (i : Instr) (s : State) : reached (.run i s) = s := rfl
@[simp] theorem reached_runInFlight (s : State) : reached (runInFlight s) = s := rfl

@[simp] theorem fetchOperand_params (s : State) : (fetchOperand s).params = s.params := rfl
@[simp] theorem latchOp1_params (s : State) : (latchOp1 s).params = s.params := rfl
@[simp] theorem latchOp2_params (s : State) : (latchOp2 s).params = s.params := rfl
@[simp] theorem advanceOpcodePC_params (s : State) : (advanceOpcodePC s).params = s.params := by
  rw [Tick.advanceOpcodePC_eq]

theorem collectOperands_params (d : Descriptor) (s : State) :
    (reached (collectOperands d s)).params = s.params := by
  obtain ⟨-, -, h⟩ | ⟨-, -, h⟩ | ⟨-, -, h⟩ | ⟨-, h⟩ := Tick.collectOperands_cases d s <;> simp [h]

theorem operandFetch_params (s : State) : (reached (operandFetch s)).params = s.params := by
  obtain ⟨-, h⟩ | ⟨d, -, -, h⟩ | ⟨d, -, -, h⟩ := Tick.operandFetch_cases s <;> rw [h]
  · simp
  · simp
  · exact collectOperands_params d s

theorem unresolvedSecond_params (s : State) : (reached (unresolvedSecond s)).params = s.params := by
  unfold unresolvedSecond
  split
  · rfl
  · split <;> rfl

theorem extFetch_params (s : State) : (reached (extFetch s)).params = s.params := by
  unfold extFetch
  split
  · simp
  · split
    · rw [unresolvedSecond_params, latchOp2_params]
    · simp [operandFetch_params]

theorem opcodeFetch_params (s : State) : (reached (opcodeFetch s)).params = s.params := by
  unfold opcodeFetch
  split
  · simp [extFetch_params]
  · simp
  · simp [operandFetch_params]

/-! ## The tick -/

theorem arbitrate_params (s : State) : (reached (arbitrate s)).params = s.params := by
  unfold arbitrate
  split
  · exact opcodeFetch_params s
  · exact extFetch_params s
  · exact operandFetch_params s
  · rfl
  all_goals simp

@[simp] theorem pushByte_params (s : State) (v : Byte) : (pushByte s v).params = s.params := by
  simp [pushByte]

theorem readIE_params (s : State) : (readIE s).params = s.params := by
  obtain ⟨-, h⟩ | ⟨src, -, -, h⟩ := Ops.readIE_cases s <;> rw [h]

theorem jump_params (s : State) : (jump s).params = s.params := by
  obtain ⟨-, h⟩ | ⟨src, -, h⟩ := Ops.jump_cases s <;> rw [h]
  exact State.raiseFault_params _ s

theorem dispatchCycle_params (s : State) : (dispatchCycle s).params = s.params := by
  unfold dispatchCycle
  split
  · rfl
  · exact readIE_params s
  · exact pushByte_params s (high s.regs.pc)
  · exact pushByte_params s (low s.regs.pc)
  · exact jump_params s
  all_goals rfl

theorem preempt_params (s : State) : (preempt s).params = s.params := by
  obtain ⟨-, h⟩ | ⟨-, -, -, h⟩ := Ops.preempt_cases s <;> rw [h]

theorem cycleBody_params (s : State) : (reached (cycleBody s)).params = s.params := by
  obtain ⟨-, h⟩ | ⟨-, h⟩ | ⟨-, -, h⟩ | ⟨-, -, -, h⟩ := Tick.cycleBody_cases s <;> rw [h]
  · exact dispatchCycle_params s
  · simp
  · exact arbitrate_params _
  · exact arbitrate_params _

theorem tickBody_params (s : State) : (reached (tickBody s)).params = s.params := by
  obtain ⟨-, h⟩ | ⟨-, -, h⟩ | ⟨-, -, h⟩ := Tick.tickBody_cases s <;> rw [h]
  · rfl
  · rfl
  · rw [cycleBody_params, preempt_params, State.beginCycle_params]

theorem hostInput_params (e : HostInput) (s : State) : (hostInput e s).params = s.params := by
  cases e <;> rfl

theorem advance_params (s : State) : (reached (advance s)).params = s.params := by
  unfold advance
  split
  · exact tickBody_params s
  · exact tickBody_params _
  · exact hostInput_params _ _

theorem step_params {s t : State} (h : step s = .next t) : t.params = s.params := by
  have ha := advance_params s
  obtain ⟨u, hu, hs⟩ | ⟨i, u, v, hu, hv, hs⟩ := Tick.step_cases s
  · cases hs.symm.trans h
    rwa [hu] at ha
  · cases hs.symm.trans h
    rw [hu] at ha
    calc (endTick v).params = v.params := State.endTick_params v
      _ = u.params := exec_params hv
      _ = s.params := ha

/-- Settles O8: every operation a step is made of keeps the parameters. -/
theorem parametersNeverChange : Obligations.ParametersNeverChange := fun _ _ h => step_params h

end Sys2Proof.Proofs.Params
end

section
/-! PROOF. The frame of a machine cycle of PLAIN and EXT (O54), and its bounds: the memory stays canonical, the execution index
stays within the sequence, and at most one bus access is made. -/

namespace Sys2Proof.Proofs.Cycle

open Sys2Proof.Machine
open Sys2Proof.Laws

/-! ## What no micro-operation changes -/

/-- What neither a micro-operation nor retirement changes, in the order the frame names it. -/
def kept (s : State) :=
  (s.op1, s.op2, s.operand, s.desc, s.ops, s.haltBug, s.ifSnap, s.ieSnap, s.subCycle, s.speed.double,
    s.video.displayEnabled, s.video.lineTick, s.video.searchPhase, s.params, s.inputs)

/-- The frame of a machine cycle in RUNNING: the state moves at most to OPCODE, with the operand index reset. -/
structure Frame (s t : State) : Prop where
  kept : kept t = kept s
  phase : (t.state = s.state ∧ t.operandIdx = s.operandIdx) ∨ (t.state = .opcode ∧ t.operandIdx = 0)

theorem Frame.trans {s t u : State} (hst : Frame s t) (htu : Frame t u) : Frame s u where
  kept := htu.kept.trans hst.kept
  phase := by
    rcases htu.phase with ⟨hs, hi⟩ | h
    · rw [hs, hi]; exact hst.phase
    · exact .inr h

theorem afterRead_frame (s : State) (a : Word) : Frame s (afterRead s a) := ⟨rfl, .inl ⟨rfl, rfl⟩⟩

theorem storeByte_frame (s : State) (a : Word) (v : Byte) : Frame s (storeByte s a v) where
  kept := by simp [Cycle.kept, Ops.speedAfterStore_double]
  phase := .inl ⟨rfl, rfl⟩

theorem raiseFault_frame (r : Fault) (s : State) : Frame s (raiseFault r s) := ⟨rfl, .inl ⟨rfl, rfl⟩⟩

theorem fastForward_toggle_frame (m : MicroOp) (s : State) : Frame s (fastForward m (toggleAndAdvance m s)) := by
  rw [MicroOps.fastForward_toggle]
  exact ⟨rfl, .inl ⟨rfl, rfl⟩⟩

theorem executeOp_ran_frame {buf : OperandBuf} {m : MicroOp} {s t : State} (h : executeOp buf m s = .ran t) :
    Frame s t := by
  obtain ⟨regs, ctx, ⟨-, rfl⟩ | ⟨a, -, -, -, rfl⟩ | ⟨a, v, -, -, -, rfl⟩⟩ := MicroOps.executeOp_ran h
  · exact ⟨rfl, .inl ⟨rfl, rfl⟩⟩
  · exact (afterRead_frame s a).trans ⟨rfl, .inl ⟨rfl, rfl⟩⟩
  · exact (storeByte_frame s a v).trans ⟨rfl, .inl ⟨rfl, rfl⟩⟩

theorem executeOp_raised_frame {buf : OperandBuf} {m : MicroOp} {s t : State} (h : executeOp buf m s = .raised t) :
    Frame s t := by
  obtain rfl | ⟨a, -, rfl⟩ | ⟨a, v, -, -, rfl⟩ := MicroOps.executeOp_raised h
  · exact raiseFault_frame _ s
  · exact (afterRead_frame s a).trans (raiseFault_frame _ _)
  · exact (storeByte_frame s a v).trans (raiseFault_frame _ _)

theorem runOp_frame (buf : OperandBuf) (m : MicroOp) (s : State) :
    (∀ t, runOp buf m s = .suspend t → Frame s t) ∧ (∀ t, runOp buf m s = .again t → Frame s t) :=
  MicroOps.runOp_keeps (P := Frame)
    (refl := ⟨rfl, .inl ⟨rfl, rfl⟩⟩)
    (trans := fun _ _ => Frame.trans)
    (inject := fun _ => ⟨rfl, .inl ⟨rfl, rfl⟩⟩)
    (ran := fun _ _ h => (executeOp_ran_frame h).trans (fastForward_toggle_frame m _))
    (raised := fun _ _ h => executeOp_raised_frame h)
    (skip := ⟨rfl, .inl ⟨rfl, rfl⟩⟩)
    (flag := fun _ _ h => h.trans ⟨rfl, .inl ⟨rfl, rfl⟩⟩)

theorem runGeneric_frame (buf : OperandBuf) (s : State) : Frame s (runGeneric buf s) := by
  unfold runGeneric
  split
  · exact raiseFault_frame _ s
  · exact MicroOps.walk_keeps (P := Frame)
      (trans := fun _ _ _ => Frame.trans)
      (retired := fun _ => ⟨rfl, .inr ⟨rfl, rfl⟩⟩)
      _
      (one := fun m _ s => runOp_frame buf m s)
      s

/-- Settles O54: every part of a machine cycle of PLAIN and EXT keeps the frame. -/
theorem genericInstructionFrame : Obligations.GenericInstructionFrame := by
  intro i operands s t hg h
  rw [Tick.exec_generic hg] at h
  cases h
  obtain ⟨hk, hp⟩ := runGeneric_frame (OperandBuf.load s.operand operands) s
  simp only [kept, Prod.mk.injEq] at hk
  simpa only [hk, true_and] using hp

/-! ## The memory stays canonical -/

theorem executeOp_ran_wf {buf : OperandBuf} {m : MicroOp} {s t : State} (h : executeOp buf m s = .ran t)
    (hm : Memory.wf s.bus.mem = true) : Memory.wf t.bus.mem = true := by
  obtain ⟨regs, ctx, ⟨-, rfl⟩ | ⟨a, -, -, -, rfl⟩ | ⟨a, v, -, -, -, rfl⟩⟩ := MicroOps.executeOp_ran h
  · exact hm
  · simpa using hm
  · exact Ops.busWrite_wf s a v hm

theorem executeOp_raised_wf {buf : OperandBuf} {m : MicroOp} {s t : State} (h : executeOp buf m s = .raised t)
    (hm : Memory.wf s.bus.mem = true) : Memory.wf t.bus.mem = true := by
  obtain rfl | ⟨a, -, rfl⟩ | ⟨a, v, -, -, rfl⟩ := MicroOps.executeOp_raised h
  · exact hm
  · simpa using hm
  · exact Ops.busWrite_wf s a v hm

theorem runOp_wf (buf : OperandBuf) (m : MicroOp) (s : State) :
    (∀ t, runOp buf m s = .suspend t → Memory.wf s.bus.mem = true → Memory.wf t.bus.mem = true) ∧
    (∀ t, runOp buf m s = .again t → Memory.wf s.bus.mem = true → Memory.wf t.bus.mem = true) :=
  MicroOps.runOp_keeps (P := fun s t => Memory.wf s.bus.mem = true → Memory.wf t.bus.mem = true)
    (refl := id)
    (trans := fun _ _ hst htu => htu ∘ hst)
    (inject := fun k => MicroOps.corruptBus_wf k)
    (ran := fun _ u h hm => by
      have hu := executeOp_ran_wf h hm
      rwa [MicroOps.fastForward_toggle])
    (raised := fun _ _ h => executeOp_raised_wf h)
    (skip := id)
    (flag := fun _ _ h => h)

theorem runGeneric_wf (buf : OperandBuf) {s : State} (h : Memory.wf s.bus.mem = true) :
    Memory.wf (runGeneric buf s).bus.mem = true := by
  unfold runGeneric
  split
  · exact h
  · exact MicroOps.walk_keeps (P := fun s t => Memory.wf s.bus.mem = true → Memory.wf t.bus.mem = true)
      (trans := fun _ _ _ hst htu => htu ∘ hst)
      (retired := fun _ => id)
      _
      (one := fun m _ s => runOp_wf buf m s)
      s h

/-! ## The index within the sequence, and one bus access -/

/-- What one run of a micro-operation does to the execution index and to the bus record: it leaves, advances or
fast-forwards the index, and adds to the record only when it declares an access (R191, R195, R197). -/
structure OpEffect (m : MicroOp) (s t : State) : Prop where
  ops : t.ops = s.ops
  busUsed : t.busUsed = s.busUsed
  index : t.execIdx = s.execIdx ∨ t.execIdx = s.execIdx + 1 ∨ t.execIdx = s.ops.length
  trace : t.busTrace = s.busTrace ∨
    (MicroOp.accesses m = true ∧ t.busTrace.length = s.busTrace.length + 1)

theorem fastForward_toggle_effect {m : MicroOp} {s t : State} (ho : t.ops = s.ops) (hb : t.busUsed = s.busUsed)
    (hi : t.execIdx = s.execIdx)
    (ht : t.busTrace = s.busTrace ∨ (MicroOp.accesses m = true ∧ t.busTrace.length = s.busTrace.length + 1)) :
    OpEffect m s (fastForward m (toggleAndAdvance m t)) := by
  rw [MicroOps.fastForward_toggle]
  refine ⟨ho, hb, ?_, ht⟩
  dsimp only
  split
  · exact .inr (.inl (congrArg (· + 1) hi))
  · exact .inr (.inr (congrArg List.length ho))

theorem accesses_of_reads {m : MicroOp} (h : MicroOp.readsMemory m = true) : MicroOp.accesses m = true := by
  simp [MicroOp.accesses, h]

theorem accesses_of_writes {m : MicroOp} (h : MicroOp.writesMemory m = true) : MicroOp.accesses m = true := by
  simp [MicroOp.accesses, h]

theorem performOp_effect {buf : OperandBuf} {m : MicroOp} {s t : State}
    (h : performOp buf m s = .ran t ∨ performOp buf m s = .raised t) : OpEffect m s t := by
  rcases h with h | h
  · obtain ⟨u, hu, rfl⟩ := MicroOps.performOp_ran h
    obtain ⟨regs, ctx, ⟨-, rfl⟩ | ⟨a, -, hr, -, rfl⟩ | ⟨a, v, -, hw, -, rfl⟩⟩ := MicroOps.executeOp_ran hu
    · exact fastForward_toggle_effect rfl rfl rfl (.inl rfl)
    · exact fastForward_toggle_effect rfl rfl rfl (.inr ⟨accesses_of_reads hr, by simp⟩)
    · exact fastForward_toggle_effect rfl rfl rfl (.inr ⟨accesses_of_writes hw, by simp⟩)
  · obtain rfl | ⟨a, hr, rfl⟩ | ⟨a, v, -, hw, rfl⟩ := MicroOps.executeOp_raised (MicroOps.performOp_raised h)
    · exact ⟨rfl, rfl, .inl rfl, .inl rfl⟩
    · exact ⟨rfl, rfl, .inl rfl, .inr ⟨accesses_of_reads hr, by simp⟩⟩
    · exact ⟨rfl, rfl, .inl rfl, .inr ⟨accesses_of_writes hw, by simp⟩⟩

/-- What one iteration of the walk can do: wait, skip, or run the micro-operation with the bus free for it, as it is or
after an injection, and then leave the cycle or go on with the bus flag (R191 to R200). -/
theorem runOp_cases (buf : OperandBuf) (m : MicroOp) (s : State) :
    runOp buf m s = .suspend s ∨ runOp buf m s = .suspend { s with execIdx := s.execIdx + 1 } ∨
    ((s.busUsed = false ∨ MicroOp.accesses m = false) ∧
      ∃ t u, (t = s ∨ ∃ k, t = injectCorruption k s) ∧
        (performOp buf m t = .ran u ∨ performOp buf m t = .raised u) ∧
        (runOp buf m s = .suspend u ∨
          runOp buf m s = .again { u with busUsed := u.busUsed || MicroOp.accesses m })) := by
  have complete : ∀ t, ∃ u, (performOp buf m t = .ran u ∨ performOp buf m t = .raised u) ∧
      (completeOp buf m t = .suspend u ∨
        completeOp buf m t = .again { u with busUsed := u.busUsed || MicroOp.accesses m }) := by
    intro t
    unfold completeOp
    cases performOp buf m t with
    | raised u => exact ⟨u, .inr rfl, .inl rfl⟩
    | ran u =>
      refine ⟨u, .inl rfl, ?_⟩
      dsimp only
      split
      · exact .inl rfl
      · exact .inr rfl
  unfold runOp
  split
  · exact .inl rfl
  next hfree =>
    have hfree : s.busUsed = false ∨ MicroOp.accesses m = false := by simpa [or_iff_not_imp_left] using hfree
    split
    · obtain ⟨u, hu⟩ := complete s
      exact .inr (.inr ⟨hfree, s, u, .inl rfl, hu⟩)
    next k _ =>
      split
      · split
        · obtain ⟨u, hu⟩ := complete (injectCorruption k s)
          exact .inr (.inr ⟨hfree, _, u, .inr ⟨k, rfl⟩, hu⟩)
        · obtain ⟨u, hu⟩ := complete s
          exact .inr (.inr ⟨hfree, s, u, .inl rfl, hu⟩)
      · unfold corruptionAbort
        split
        · exact .inl rfl
        · exact .inr (.inl rfl)
        · cases h : performOp buf m s with
          | raised u => exact .inr (.inr ⟨hfree, s, u, .inl rfl, .inr h, .inl rfl⟩)
          | ran u => exact .inr (.inr ⟨hfree, s, u, .inl rfl, .inl h, .inl rfl⟩)

/-- The bounds of a machine cycle: one bus access at most (R85), and the index within the sequence (R68). -/
structure Bounds (s : State) : Prop where
  oneAccess : s.busTrace.length ≤ 1
  execBound : s.execIdx ≤ s.ops.length

/-- The state in which the walk meets the first of `n` micro-operations left: with the bus free no access has been made, and
the sequence has room for all `n`. -/
structure WalkInv (n : Nat) (s : State) : Prop where
  oneAccess : s.busTrace.length ≤ 1
  free : s.busUsed = false → s.busTrace = []
  room : s.execIdx + n ≤ s.ops.length

theorem WalkInv.bounds {n : Nat} {s : State} (h : WalkInv n s) : Bounds s :=
  ⟨h.oneAccess, Nat.le_of_add_right_le h.room⟩

/-- One iteration leaves the bounds, and, short of the end of the sequence, the walk's invariant for the rest. -/
theorem runOp_bounds {buf : OperandBuf} {m : MicroOp} {n : Nat} {s : State} (h : WalkInv (n + 1) s) :
    (∀ t, runOp buf m s = .suspend t → Bounds t) ∧
    (∀ t, runOp buf m s = .again t → Bounds t ∧ (t.execIdx < t.ops.length → WalkInv n t)) := by
  obtain ⟨hone, hfree, hroom⟩ := h
  obtain e | e | ⟨hbus, t, u, ht, hu, e⟩ := runOp_cases buf m s
  · rw [e]
    exact ⟨fun t ht => by cases ht; exact ⟨hone, by omega⟩, fun t ht => by cases ht⟩
  · rw [e]
    exact ⟨fun t ht => by cases ht; exact ⟨hone, by dsimp only; omega⟩, fun t ht => by cases ht⟩
  · have hmu : OpEffect m s u := by
      rcases ht with rfl | ⟨k, rfl⟩
      · exact performOp_effect hu
      · obtain ⟨ho, hb, hi, hr⟩ := performOp_effect hu
        exact ⟨ho, hb, hi, hr⟩
    obtain ⟨hops, hused, hidx, htrace⟩ := hmu
    have hu : Bounds u := by
      refine ⟨?_, by rw [hops]; omega⟩
      rcases htrace with h | ⟨hacc, h⟩
      · rw [h]; exact hone
      · have hnil := hfree (hbus.resolve_right (by simp [hacc]))
        rw [h, hnil]
        exact Nat.le_refl 1
    have hagain : u.execIdx < u.ops.length →
        WalkInv n { u with busUsed := u.busUsed || MicroOp.accesses m } := by
      intro hlt
      rw [hops] at hlt
      refine ⟨hu.oneAccess, fun hf => ?_, by dsimp only; rw [hops]; omega⟩
      obtain ⟨hf, hacc⟩ := Bool.or_eq_false_iff.mp hf
      rcases htrace with h | ⟨h, -⟩
      · rw [h, hfree (hused ▸ hf)]
      · rw [hacc] at h; cases h
    rcases e with e | e <;> rw [e]
    · exact ⟨fun t ht => by cases ht; exact hu, fun t ht => by cases ht⟩
    · exact ⟨fun t ht => (by cases ht), fun t ht => by cases ht; exact ⟨⟨hu.oneAccess, hu.execBound⟩, hagain⟩⟩

theorem walk_bounds {buf : OperandBuf} {ms : List MicroOp} {s : State} (h : WalkInv ms.length s) :
    Bounds (walk buf ms s) := by
  induction ms generalizing s with
  | nil => exact ⟨h.oneAccess, h.bounds.execBound⟩
  | cons m rest ih =>
    obtain ⟨hsuspend, hagain⟩ := runOp_bounds (buf := buf) (m := m) h
    unfold walk
    split
    next t ht => exact hsuspend t ht
    next t ht =>
      obtain ⟨hb, hw⟩ := hagain t ht
      split
      · exact ⟨hb.oneAccess, hb.execBound⟩
      next hlt => exact ih (hw (Nat.not_le.mp hlt))

theorem runGeneric_bounds {buf : OperandBuf} {s : State} (h : Bounds s) (hf : s.busUsed = false → s.busTrace = []) :
    Bounds (runGeneric buf s) := by
  unfold runGeneric
  split
  · exact ⟨h.oneAccess, h.execBound⟩
  · refine walk_bounds ⟨h.oneAccess, hf, ?_⟩
    have := h.execBound
    rw [List.length_drop]
    omega

end Sys2Proof.Proofs.Cycle
end

section
/-! PROOF. Every step keeps the invariant (O60): the host's inputs, the dispatch states, the fetch states and the instructions,
one lemma each. Inside a machine cycle the invariant stands in the form of `CycleInv`. -/

namespace Sys2Proof.Proofs.Invariant

open Sys2Proof.Machine
open Sys2Proof.Laws

/-- The invariant inside a machine cycle, where the bus may be used: it holds of the state the tick would end in, the counter
is at 0, and with the bus free no access has been made. -/
structure CycleInv (s : State) : Prop where
  inv : State.Inv (endTick s)
  atZero : s.subCycle = 0
  free : s.busUsed = false → s.busTrace = []

/-! ## The halt bug, and the states between instructions -/

/-- A halt-bug flag masks preemption (R268). -/
theorem haltBug_of_ime {s : State} (h : State.Inv s) (hi : s.ic.ime = true) : s.haltBug = false := by
  cases hb : s.haltBug with
  | false => rfl
  | true => rw [(h.haltBugMasked hb).2] at hi; cases hi

theorem haltBug_of_state {s : State} (h : State.Inv s) (hs : s.state ≠ .opcode) : s.haltBug = false := by
  cases hb : s.haltBug with
  | false => rfl
  | true => exact absurd (h.haltBugMasked hb).1 hs

/-- In a cycle in RUNNING no halt-bug flag is set. -/
theorem CycleInv.haltBug_running {s : State} (h : CycleInv s) (hs : s.state = .running) : s.haltBug = false :=
  haltBug_of_state (s := endTick s) h.inv (by simp [hs])

/-- The states in which an instruction is partly fetched or run. -/
def inInstruction : SeqState → Bool
  | .extOpcode | .operand | .running => true
  | .opcode | .irqReadIF | .irqReadIE | .irqPush1 | .irqPush2 | .irqJump | .stopped | .halted => false

/-- Between instructions, with no halt-bug flag, the invariant is its clauses about every state and the one about the dispatch
past its selection. -/
theorem inv_of_between {s : State} (hq : inInstruction s.state = false) (hb : s.haltBug = false)
    (memWf : Memory.wf s.bus.mem = true) (divider : s.subCycle < ticksPerCycle s) (busFlag : s.busUsed = false)
    (oneAccess : s.busTrace.length ≤ 1) (execBound : s.execIdx ≤ s.ops.length)
    (operandBound : ∀ d, s.desc = some d → s.operandIdx ≤ d.length)
    (dispatchSelected : s.state = .irqPush1 ∨ s.state = .irqPush2 ∨ s.state = .irqJump →
      bothMasks s.ifSnap s.ieSnap ≠ 0 ∧ s.ic.ime = false ∧ s.ic.enableDelay = none) : State.Inv s where
  memWf := memWf
  divider := divider
  busFlag := busFlag
  oneAccess := oneAccess
  execBound := execBound
  operandBound := operandBound
  extEntry := fun e => by rw [e] at hq; cases hq
  resolved := fun e => by rcases e with e | e <;> rw [e] at hq <;> cases hq
  unfetched := fun e => by rcases e with e | e <;> rw [e] at hq <;> cases hq
  operandEntry := fun e => by rw [e] at hq; cases hq
  loaded := fun e => by rw [e] at hq; cases hq
  haltBugMasked := fun e => nomatch hb.symm.trans e
  dispatchSelected := dispatchSelected

/-- A move to a state between instructions, and not past the selection of a dispatch, keeps the invariant. -/
theorem moveTo_inv {s : State} {q : SeqState} (h : State.Inv s) (hb : s.haltBug = false)
    (hq : inInstruction q = false) (hsel : ¬ (q = .irqPush1 ∨ q = .irqPush2 ∨ q = .irqJump)) :
    State.Inv { s with state := q } :=
  inv_of_between hq hb h.memWf h.divider h.busFlag h.oneAccess h.execBound h.operandBound fun e => absurd e hsel

/-! ## Faults and host inputs -/

/-- A counter at 0 is below every threshold (R30). -/
theorem divider_of_zero {s : State} (h : s.subCycle = 0) : s.subCycle < ticksPerCycle s :=
  h.symm ▸ Ops.ticksPerCycle_pos s

theorem raiseFault_inv {s : State} (r : Fault) (h : State.Inv s) : State.Inv (raiseFault r s) := { h with }

theorem resetFields_inv {s : State} (h : State.Inv s) : State.Inv (resetFields s) :=
  inv_of_between rfl rfl h.memWf (divider_of_zero rfl) h.busFlag h.oneAccess (Nat.le_refl 0) nofun nofun

theorem withInputs_inv {s : State} (rest : List HostInput) (h : State.Inv s) :
    State.Inv { s with inputs := rest } := { h with }

theorem hostInput_inv {s : State} (e : HostInput) (h : State.Inv s) : State.Inv (hostInput e s) := by
  cases e with
  | busWrite a v => exact { h with memWf := Ops.busWrite_wf s a v h.memWf }
  | reset => exact resetFields_inv h
  | tick | pause | deviceChange | raiseIrq | writeIF | writeIE | armSwitch | videoChange => exact { h with }

/-! ## The start of a machine cycle -/

theorem beginCycle_inv {s : State} (h : State.Inv s) : State.Inv (beginCycle s) :=
  { h with divider := divider_of_zero rfl, oneAccess := Nat.zero_le 1 }

theorem preempt_inv {s : State} (h : State.Inv s) : State.Inv (preempt s) := by
  obtain ⟨-, e⟩ | ⟨-, -, hime, e⟩ := Ops.preempt_cases s <;> rw [e]
  · exact h
  · exact { moveTo_inv (q := .irqReadIF) h (haltBug_of_ime h hime) rfl nofun with }

theorem preempt_subCycle (s : State) : (preempt s).subCycle = s.subCycle := by
  obtain ⟨-, e⟩ | ⟨-, -, -, e⟩ := Ops.preempt_cases s <;> rw [e]

theorem preempt_busTrace (s : State) : (preempt s).busTrace = s.busTrace := by
  obtain ⟨-, e⟩ | ⟨-, -, -, e⟩ := Ops.preempt_cases s <;> rw [e]

/-! ## The dispatch states -/

/-- A push leaves a dispatch state for a later one, with one bus access in a cycle that had none. -/
theorem pushByte_inv {s : State} (v : Byte) (q : SeqState) (h : State.Inv s) (ht : s.busTrace = [])
    (hs : s.state = .irqPush1 ∨ s.state = .irqPush2) (hq : inInstruction q = false) :
    State.Inv { pushByte s v with state := q } := by
  have hb : s.haltBug = false := haltBug_of_state h (by rcases hs with e | e <;> simp [e])
  exact inv_of_between hq hb (Ops.busWrite_wf _ _ v h.memWf) h.divider h.busFlag (by simp [pushByte, ht]) h.execBound
    h.operandBound fun _ => h.dispatchSelected (hs.imp_right .inl)

theorem readIE_inv {s : State} (h : State.Inv s) (hs : s.state = .irqReadIE) : State.Inv (readIE s) := by
  have hb : s.haltBug = false := haltBug_of_state h (by simp [hs])
  obtain ⟨-, e⟩ | ⟨src, -, hsel, e⟩ := Ops.readIE_cases s <;> rw [e]
  · exact { moveTo_inv (q := .opcode) h hb rfl nofun with dispatchSelected := nofun }
  · exact inv_of_between rfl hb h.memWf h.divider h.busFlag h.oneAccess h.execBound h.operandBound
      fun _ => ⟨hsel, rfl, rfl⟩

theorem jump_inv {s : State} (h : State.Inv s) (hs : s.state = .irqJump) : State.Inv (jump s) := by
  obtain ⟨-, e⟩ | ⟨src, -, e⟩ := Ops.jump_cases s <;> rw [e]
  · exact raiseFault_inv _ h
  · exact { moveTo_inv (q := .opcode) h (haltBug_of_state h (by simp [hs])) rfl nofun with }

theorem dispatchCycle_inv {s : State} (h : State.Inv s) (ht : s.busTrace = []) : State.Inv (dispatchCycle s) := by
  unfold dispatchCycle
  split
  next hs =>
    exact { moveTo_inv (q := .irqReadIE) h (haltBug_of_state h (by simp [hs])) rfl nofun with
      dispatchSelected := nofun }
  next hs => exact readIE_inv h hs
  next hs => exact pushByte_inv _ .irqPush2 h ht (.inl hs) rfl
  next hs => exact pushByte_inv _ .irqJump h ht (.inr hs) rfl
  next hs => exact jump_inv h hs
  all_goals exact h

/-! ## Fetch and decode -/

/-- A tick up to RUNNING keeps the invariant: of the state it ends in, or in the form of the cycle of the state an instruction
is to run in, which for a legal one is RUNNING. -/
def ProgressInv : Progress → Prop
  | .done s => State.Inv s
  | .run i s => CycleInv s ∧ (isLegal i = true → s.state = .running)

theorem runInFlight_inv {s : State} (h : CycleInv s) (hs : s.state = .running) : ProgressInv (runInFlight s) :=
  ⟨h, fun _ => hs⟩

/-- The operand byte put at the index leaves the slots past it clear (R107). -/
theorem clearFrom_put {b : OperandBuf} {n : Nat} (v : Byte) (h : OperandBuf.clearFrom b n) :
    OperandBuf.clearFrom (OperandBuf.put b n v) (n + 1) := by
  refine ⟨nofun, fun hn => ?_⟩
  obtain rfl : n = 0 := by omega
  exact h.2 (Nat.zero_le 1)

/-- One operand byte more, in OPERAND with the bus free and a byte yet to come. -/
theorem fetchOperand_inv {s : State} {d : Descriptor} (h : CycleInv s) (hs : s.state = .operand)
    (hd : s.desc = some d) (hlt : s.operandIdx < d.length) (hb : s.busUsed = false) :
    CycleInv (fetchOperand s) where
  inv := { h.inv with
    memWf := (Ops.busRead_mem s s.regs.pc).symm ▸ h.inv.memWf
    oneAccess := by simp [fetchOperand, h.free hb]
    operandBound := fun d' hd' => by
      obtain rfl : d = d' := Option.some.inj (hd.symm.trans hd')
      exact hlt
    extEntry := fun e => nomatch hs.symm.trans e
    unfetched := fun _ => clearFrom_put _ (h.inv.unfetched (.inl hs))
    loaded := fun e => nomatch hs.symm.trans e }
  atZero := h.atZero
  free := nofun

/-- Completion of decode, with the operand bytes all fetched (R167). -/
theorem loadOps_inv {s : State} {d : Descriptor} (h : CycleInv s) (hs : s.state = .operand) (hd : s.desc = some d)
    (hl : d.length ≤ Config.operandSlots) (hi : s.operandIdx = d.length) : CycleInv (loadOps d s) where
  inv := { h.inv with
    execBound := (h.inv.operandEntry hs).symm ▸ Nat.zero_le _
    extEntry := nofun
    resolved := fun _ => h.inv.resolved (.inl hs)
    unfetched := fun _ => h.inv.unfetched (.inl hs)
    operandEntry := nofun
    loaded := fun _ d' hd' => by
      obtain rfl : d = d' := Option.some.inj (hd.symm.trans hd')
      exact ⟨hl, hi, rfl⟩
    haltBugMasked := fun hb => nomatch hs.symm.trans (h.inv.haltBugMasked hb).1
    dispatchSelected := nofun }
  atZero := h.atZero
  free := h.free

theorem collectOperands_inv {s : State} {d : Descriptor} (h : CycleInv s) (hs : s.state = .operand)
    (hd : s.desc = some d) (hl : d.length ≤ Config.operandSlots) : ProgressInv (collectOperands d s) := by
  have hbound : s.operandIdx ≤ d.length := h.inv.operandBound d hd
  obtain ⟨-, -, e⟩ | ⟨hlt, hb, e⟩ | ⟨hlast, hb, e⟩ | ⟨hge, e⟩ := Tick.collectOperands_cases d s <;> rw [e]
  · exact h.inv
  · exact (fetchOperand_inv h hs hd (by omega) hb).inv
  · exact runInFlight_inv (loadOps_inv (fetchOperand_inv h hs hd (by omega) hb) hs hd hl hlast) rfl
  · exact runInFlight_inv (loadOps_inv h hs hd hl (by omega)) rfl

theorem operandFetch_inv {s : State} (h : CycleInv s) (hs : s.state = .operand) : ProgressInv (operandFetch s) := by
  obtain ⟨-, e⟩ | ⟨d, -, -, e⟩ | ⟨d, hd, hl, e⟩ := Tick.operandFetch_cases s <;> rw [e]
  · exact raiseFault_inv _ h.inv
  · exact raiseFault_inv _ h.inv
  · exact collectOperands_inv h hs hd hl

/-- The second opcode byte latched, in EXT_OPCODE with the bus free. -/
theorem latchOp2_inv {s : State} (h : CycleInv s) (hs : s.state = .extOpcode) (hb : s.busUsed = false) :
    CycleInv (latchOp2 s) where
  inv := { h.inv with
    memWf := (Ops.busRead_mem s s.regs.pc).symm ▸ h.inv.memWf
    oneAccess := by simp [latchOp2, h.free hb]
    resolved := fun e => e.elim (nomatch hs.symm.trans ·) (nomatch hs.symm.trans ·) }
  atZero := h.atZero
  free := nofun

/-- The descriptor of the second opcode byte resolved (R163). -/
theorem resolveSecond_inv {s : State} {d : Descriptor} (h : CycleInv s) (hs : s.state = .extOpcode)
    (hl : s.params.registry.lookupExtended s.op2 = some d) :
    CycleInv (incPC { s with desc := some d, state := .operand }) := by
  obtain ⟨hneeds, hidx, hexec, hclear⟩ := h.inv.extEntry hs
  have hidx : s.operandIdx = 0 := hidx
  exact {
    inv := { h.inv with
      operandBound := fun d' _ => hidx.symm ▸ Nat.zero_le _
      extEntry := nofun
      resolved := fun _ => ⟨nofun, hl.symm.trans (if_pos hneeds).symm⟩
      unfetched := fun _ => hidx.symm ▸ hclear
      operandEntry := fun _ => hexec
      loaded := nofun
      haltBugMasked := fun hb => nomatch hs.symm.trans (h.inv.haltBugMasked hb).1
      dispatchSelected := nofun }
    atZero := h.atZero
    free := h.free }

theorem unresolvedSecond_inv {s : State} (h : CycleInv s) : ProgressInv (unresolvedSecond s) := by
  unfold unresolvedSecond
  split
  · exact ⟨h, nofun⟩
  · split
    · exact ⟨h, nofun⟩
    · exact raiseFault_inv _ h.inv

theorem extFetch_inv {s : State} (h : CycleInv s) (hs : s.state = .extOpcode) : ProgressInv (extFetch s) := by
  cases hb : s.busUsed with
  | true => rw [Tick.extFetch_wait hb]; exact h.inv
  | false =>
    have h2 := latchOp2_inv h hs hb
    cases hl : s.params.registry.lookupExtended (readByte s s.regs.pc) with
    | none => rw [Tick.extFetch_unresolved hb hl]; exact unresolvedSecond_inv h2
    | some d => rw [Tick.extFetch_resolved hb hl]; exact operandFetch_inv (resolveSecond_inv h2 hs hl) rfl

/-- The first opcode byte latched, in OPCODE with the bus free: nothing of an earlier instruction is left (R160, R162). -/
theorem latchOp1_inv {s : State} (h : CycleInv s) (hs : s.state = .opcode) (hb : s.busUsed = false) :
    CycleInv (latchOp1 s) where
  inv := { h.inv with
    memWf := (Ops.busRead_mem (clearTransient s) s.regs.pc).symm ▸ h.inv.memWf
    oneAccess := by simp [latchOp1, h.free hb]
    execBound := Nat.le_refl 0
    operandBound := nofun
    extEntry := fun e => nomatch hs.symm.trans e
    resolved := fun e => e.elim (nomatch hs.symm.trans ·) (nomatch hs.symm.trans ·)
    unfetched := fun _ => ⟨fun _ => rfl, fun _ => rfl⟩
    operandEntry := fun _ => rfl
    loaded := fun e => nomatch hs.symm.trans e
    dispatchSelected := fun e => by rcases e with e | e | e <;> nomatch hs.symm.trans e }
  atZero := h.atZero
  free := nofun

/-- A first byte that needs a second one: the move to EXT_OPCODE (R160). -/
theorem enterExtOpcode_inv {s : State} (h : CycleInv (latchOp1 s)) (hn : needsSecond (latchOp1 s).op1 = true) :
    CycleInv (advanceOpcodePC { latchOp1 s with state := .extOpcode }) := by
  rw [Tick.advanceOpcodePC_eq]
  exact {
    inv := { h.inv with
      extEntry := fun _ => ⟨hn, rfl, rfl, fun _ => rfl, fun _ => rfl⟩
      resolved := nofun, unfetched := nofun, operandEntry := nofun, loaded := nofun
      haltBugMasked := nofun, dispatchSelected := nofun }
    atZero := h.atZero
    free := nofun }

/-- A first byte with a descriptor: the move to OPERAND (R160). -/
theorem enterOperand_inv {s : State} {d : Descriptor} (h : CycleInv (latchOp1 s))
    (hd : resolvedDescriptor s.params.registry (latchOp1 s).op1 0x00 = some d) :
    CycleInv (advanceOpcodePC { latchOp1 s with desc := some d, state := .operand }) := by
  rw [Tick.advanceOpcodePC_eq]
  exact {
    inv := { h.inv with
      operandBound := fun d' _ => Nat.zero_le _
      extEntry := nofun
      resolved := fun _ => ⟨nofun, hd.symm⟩
      unfetched := fun _ => ⟨fun _ => rfl, fun _ => rfl⟩
      operandEntry := fun _ => rfl
      loaded := nofun, haltBugMasked := nofun, dispatchSelected := nofun }
    atZero := h.atZero
    free := nofun }

theorem opcodeFetch_inv {s : State} (h : CycleInv s) (hs : s.state = .opcode) (hb : s.busUsed = false) :
    ProgressInv (opcodeFetch s) := by
  have h1 := latchOp1_inv h hs hb
  cases hn : needsSecond (readByte s s.regs.pc) with
  | true =>
    rw [Tick.opcodeFetch_second hn]
    exact extFetch_inv (enterExtOpcode_inv h1 hn) (by rw [Tick.advanceOpcodePC_eq])
  | false =>
    cases hl : s.params.registry.lookup (readByte s s.regs.pc) with
    | none =>
      rw [Tick.opcodeFetch_illegal hn hl]
      exact ⟨h1, nofun⟩
    | some d =>
      rw [Tick.opcodeFetch_resolved hn hl]
      have hd : resolvedDescriptor s.params.registry (readByte s s.regs.pc) 0x00 = some d := by
        rw [resolvedDescriptor, hn]
        exact hl
      exact operandFetch_inv (enterOperand_inv h1 hd) (by rw [Tick.advanceOpcodePC_eq])

/-! ## The tick -/

theorem arbitrate_inv {s : State} (h : CycleInv s) (hb : s.busUsed = false) : ProgressInv (arbitrate s) := by
  unfold arbitrate
  split
  next hs => exact opcodeFetch_inv h hs hb
  next hs => exact extFetch_inv h hs
  next hs => exact operandFetch_inv h hs
  next hs => exact runInFlight_inv h hs
  all_goals exact raiseFault_inv _ h.inv

theorem endTick_inv {s : State} (h : State.Inv s) : State.Inv (endTick s) := { h with busFlag := rfl }

/-- The state in which the arbitration loop starts (R136). -/
theorem cycleInv_of_inv {s : State} (h : State.Inv s) (hz : s.subCycle = 0) (ht : s.busTrace = []) :
    CycleInv { s with busUsed := false } :=
  ⟨show State.Inv (endTick s) from endTick_inv h, hz, fun _ => ht⟩

theorem cycleBody_inv {s : State} (h : State.Inv s) (hz : s.subCycle = 0) (ht : s.busTrace = []) :
    ProgressInv (cycleBody s) := by
  obtain ⟨-, e⟩ | ⟨-, e⟩ | ⟨hs, -, e⟩ | ⟨-, -, -, e⟩ := Tick.cycleBody_cases s <;> rw [e]
  · exact endTick_inv (dispatchCycle_inv h ht)
  · exact endTick_inv h
  · have hw := moveTo_inv (q := .opcode) h (haltBug_of_state h (by simp [hs])) rfl nofun
    exact arbitrate_inv (cycleInv_of_inv hw hz ht) rfl
  · exact arbitrate_inv (cycleInv_of_inv h hz ht) rfl

theorem tickBody_inv {s : State} (h : State.Inv s) : ProgressInv (tickBody s) := by
  obtain ⟨-, e⟩ | ⟨-, hlt, e⟩ | ⟨-, -, e⟩ := Tick.tickBody_cases s <;> rw [e]
  · exact h
  · exact { h with divider := hlt }
  · exact cycleBody_inv (preempt_inv (beginCycle_inv h)) (by simp [preempt_subCycle]) (by simp [preempt_busTrace])

theorem advance_inv {s : State} (h : State.Inv s) : ProgressInv (advance s) := by
  unfold advance
  split
  · exact tickBody_inv h
  · exact tickBody_inv (withInputs_inv _ h)
  · exact hostInput_inv _ (withInputs_inv _ h)

/-! ## The meanings of the instructions -/

theorem stopIntercept_inv {s : State} (h : CycleInv s) (hs : s.state = .running) :
    State.Inv (endTick (stopIntercept s)) := by
  have hb := h.haltBug_running hs
  unfold stopIntercept
  split
  · exact { moveTo_inv (q := .opcode) h.inv hb rfl nofun with divider := divider_of_zero h.atZero }
  · exact { moveTo_inv (q := .stopped) h.inv hb rfl nofun with divider := divider_of_zero h.atZero }

theorem haltIntercept_inv {s : State} (h : CycleInv s) (hs : s.state = .running) :
    State.Inv (endTick (haltIntercept s)) := by
  have hb := h.haltBug_running hs
  unfold haltIntercept
  split
  next hbug =>
    have hime : s.ic.ime = false := by simpa using (Bool.and_eq_true_iff.mp hbug).1
    exact { moveTo_inv (q := .opcode) h.inv hb rfl nofun with haltBugMasked := fun _ => ⟨rfl, hime⟩ }
  · exact moveTo_inv (q := .halted) h.inv hb rfl nofun

/-- From RUNNING, the frame and the bounds of a machine cycle keep the invariant: what it says of RUNNING is in the frame, and
an instruction that retires is past it. -/
theorem inv_of_frame {s t : State} (h : CycleInv s) (hs : s.state = .running) (hframe : Cycle.Frame s t)
    (hbounds : Cycle.Bounds t) (hmem : Memory.wf t.bus.mem = true) : State.Inv (endTick t) := by
  obtain ⟨hk, hphase⟩ := hframe
  obtain ⟨hone, hexec⟩ := hbounds
  simp only [Cycle.kept, Prod.mk.injEq] at hk
  obtain ⟨hop1, hop2, hoperand, hdesc, hops, hbug, -, -, hsub, -, -, -, -, hparams, -⟩ := hk
  have hbug : t.haltBug = false := hbug.trans (h.haltBug_running hs)
  have hdivider : t.subCycle < ticksPerCycle t := divider_of_zero (hsub.trans h.atZero)
  rcases hphase with ⟨hst, hidx⟩ | ⟨hst, hidx⟩
  · have hrun : t.state = .running := hst.trans hs
    exact {
      memWf := hmem, divider := hdivider, busFlag := rfl, oneAccess := hone, execBound := hexec
      operandBound := by simpa [hdesc, hidx] using h.inv.operandBound
      extEntry := by simp [hrun]
      resolved := by simpa [hs, hrun, hdesc, hparams, hop1, hop2] using h.inv.resolved
      unfetched := by simpa [hs, hrun, hoperand, hidx] using h.inv.unfetched
      operandEntry := by simp [hrun]
      loaded := by simpa [hs, hrun, hdesc, hidx, hops] using h.inv.loaded
      haltBugMasked := by simp [hbug]
      dispatchSelected := by simp [hrun] }
  · refine inv_of_between ?_ hbug hmem hdivider rfl hone hexec (fun d _ => ?_) (by simp [hst])
    · rw [State.endTick_state, hst]; rfl
    · rw [State.endTick_operandIdx, hidx]; exact Nat.zero_le _

theorem runGeneric_inv {s : State} (buf : OperandBuf) (h : CycleInv s) (hs : s.state = .running) :
    State.Inv (endTick (runGeneric buf s)) :=
  inv_of_frame h hs (Cycle.runGeneric_frame buf s)
    (Cycle.runGeneric_bounds ⟨h.inv.oneAccess, h.inv.execBound⟩ h.free)
    (Cycle.runGeneric_wf buf h.inv.memWf)

theorem exec_inv {i : Instr} {s t : State} (h : CycleInv s) (hs : isLegal i = true → s.state = .running)
    (ht : exec i s = .next t) : State.Inv (endTick t) := by
  cases i with
  | halt => cases ht; exact haltIntercept_inv h (hs rfl)
  | stop => cases ht; exact stopIntercept_inv h (hs rfl)
  | ext | plain => cases ht; exact runGeneric_inv _ h (hs rfl)
  | illegal | illegalExt | illegalStop => cases ht; exact raiseFault_inv _ h.inv

/-- Settles O60: a step is a tick up to RUNNING and the instruction in flight, and both keep the invariant. -/
theorem stepKeepsTheInvariant : Obligations.StepKeepsTheInvariant := by
  intro s t h hst
  have ha := advance_inv h
  obtain ⟨u, hu, hs⟩ | ⟨i, u, v, hu, hv, hs⟩ := Tick.step_cases s
  · cases hs.symm.trans hst
    rwa [hu] at ha
  · cases hs.symm.trans hst
    rw [hu] at ha
    exact exec_inv ha.1 ha.2 hv

end Sys2Proof.Proofs.Invariant
end

section
/-! PROOF. The state's own operations: what a step answers (O3), the host's inputs (O10), the deferred enable (O18), the cycle
in RUNNING (O36), STOP (O41), and stores, alone (O47) and by a micro-operation (O46). -/

namespace Sys2Proof.Proofs.StateOps

open Sys2Proof.Machine
open Sys2Proof.Laws

/-! ## Steps and host inputs -/

/-- Settles O3: whether a step is over by itself or runs an instruction, it answers a next state. -/
theorem stepAlwaysAnswersNext : Obligations.StepAlwaysAnswersNext := by
  intro s
  obtain ⟨t, -, h⟩ | ⟨-, -, t, -, -, h⟩ := Tick.step_cases s
  · exact ⟨t, h⟩
  · exact ⟨endTick t, h⟩

/-- The end of a tick, with other inputs waiting. -/
theorem finishTick_withInputs {i : Instr} {u t : State} (rest : List HostInput)
    (h : finishTick (exec i u) = .next t) :
    finishTick (exec i { u with inputs := rest }) = .next { t with inputs := rest } := by
  obtain ⟨v, hv⟩ := Tick.exec_next i u
  rw [hv] at h
  cases h
  rw [Inputs.exec_withInputs rest hv]
  rfl

/-- A tick that waits as an input is the step with no input waiting (R65). -/
theorem step_tick {s t : State} {rest : List HostInput} (hi : s.inputs = .tick :: rest)
    (h : step { s with inputs := [] } = .next t) : step s = .next { t with inputs := rest } := by
  have htick : advance s = Inputs.progressWith rest (tickBody { s with inputs := [] }) :=
    (Run.advance_tick hi).trans (Inputs.tickBody_withInputs rest { s with inputs := [] })
  rw [step, Tick.advance_nil rfl] at h
  rw [step, htick]
  cases hp : tickBody { s with inputs := [] } with
  | done u =>
    rw [hp] at h
    cases h
    rfl
  | run i u =>
    rw [hp] at h
    exact finishTick_withInputs rest h

/-- Settles O10: an input other than a tick is its own step, and a tick is the step with no input waiting. -/
theorem hostInputsSetTheirRegisters : Obligations.HostInputsSetTheirRegisters := by
  intro s rest
  have input : ∀ e, e ≠ .tick → s.inputs = e :: rest → step s = .next (hostInput e { s with inputs := rest }) :=
    fun _ => Run.step_input
  exact ⟨fun src => input (.raiseIrq src) nofun, fun v => input (.writeIF v) nofun, fun v => input (.writeIE v) nofun,
    input .armSwitch nofun, fun a v => input (.busWrite a v) nofun, fun dev => input (.deviceChange dev) nofun,
    fun on tick search => input (.videoChange on tick search) nofun, input .pause nofun, fun hi _ => step_tick hi⟩

/-- Settles O36: a machine cycle in RUNNING meets no preemption and no fetch. -/
theorem runningCycleRunsTheInstruction : Obligations.RunningCycleRunsTheInstruction := by
  intro s hready hs
  refine Tick.step_run ?_
  rw [Run.advance_arbitrates hready (.inr (.inr (.inr hs))) (fun h => nomatch hs.symm.trans h)]
  exact Tick.arbitrate_running hs

/-! ## The interrupt controller and STOP -/

/-- Settles O18: the delay counts down from 1 over two retirements. -/
theorem deferredEnableTakesTwoRetirements : Obligations.DeferredEnableTakesTwoRetirements := by
  rintro ⟨ime, ie, ifl, delay⟩
  refine ⟨fun h => ?_, fun h => ?_, fun _ => rfl⟩
  · obtain rfl : delay = none := h
    exact ⟨rfl, rfl, rfl, rfl⟩
  · obtain ⟨k, rfl⟩ := Option.ne_none_iff_exists'.mp h
    rfl

/-- Settles O41: the two outcomes of STOP, by the armed flag. -/
theorem stopSwitchesSpeedOrStops : Obligations.StopSwitchesSpeedOrStops := by
  intro b operands s
  show Host.Outcome.next (stopIntercept s) = _
  unfold stopIntercept SpeedMode.onStop
  cases s.speed.armed <;> rfl

/-! ## Stores -/

/-- Settles O47: the flag register goes before the enable register, and the speed register stands beside them. -/
theorem storesReachTheMappedRegisters : Obligations.StoresReachTheMappedRegisters := by
  intro s a v
  refine ⟨fun hf => if_pos hf, fun hf he => (if_neg hf).trans (if_pos he), fun hf he => (if_neg hf).trans (if_neg he),
    fun hs => ?_, fun hs => if_neg fun h => hs h.1, ?_⟩
  · cases h : Config.speedStoreArms v <;> simp [speedAfterStore, hs, h, SpeedMode.armSwitch]
  · unfold speedAfterStore
    split
    · exact .inr rfl
    · exact .inl rfl

/-- An iteration that goes on, with the index advanced or at the end of the sequence, leaves the rest of the cycle to the walk
from the state it reached. -/
theorem runGeneric_again {buf : OperandBuf} {m : MicroOp} {s t : State} (hm : s.ops[s.execIdx]? = some m)
    (hrun : runOp buf m s = .again t) (hops : t.ops = s.ops)
    (hidx : t.execIdx = s.execIdx + 1 ∨ t.execIdx = s.ops.length) : runGeneric buf s = runGeneric buf t := by
  obtain ⟨hlt, -⟩ := List.getElem?_eq_some_iff.mp hm
  rw [MicroOps.runGeneric_cons hm, hrun]
  dsimp only
  rw [hops]
  split
  · exact (MicroOps.runGeneric_end (by rw [hops]; omega)).symm
  next hnot =>
    have hnext : t.execIdx = s.execIdx + 1 := by omega
    rw [runGeneric, if_neg (by rw [hops]; omega), hops, hnext]

/-- A micro-operation that runs to its end with the bus free: with a forced end the cycle is over in the state it leaves,
otherwise the walk goes on from there with the bus flag (R199, R200). -/
theorem runGeneric_completes {buf : OperandBuf} {m : MicroOp} {s u : State} (hm : s.ops[s.execIdx]? = some m)
    (hrun : runOp buf m s = completeOp buf m s) (hp : performOp buf m s = .ran u) (hops : u.ops = s.ops)
    (hidx : u.execIdx = s.execIdx + 1 ∨ u.execIdx = s.ops.length) :
    (MicroOp.forcesCycleEnd m = true → runGeneric buf s = u) ∧
    (MicroOp.forcesCycleEnd m = false →
      runGeneric buf s = runGeneric buf { u with busUsed := u.busUsed || MicroOp.accesses m }) := by
  rw [completeOp, hp] at hrun
  constructor <;> intro hforce
  · simp only [hforce, if_true] at hrun
    rw [MicroOps.runGeneric_cons hm, hrun]
  · simp only [hforce, Bool.false_eq_true, if_false] at hrun
    exact runGeneric_again hm hrun hops hidx

/-- Settles O46: the store is the one bus call of a micro-operation that keeps its contract, and the memory reads as the
laws of a bus write say. -/
theorem storingOpRuns : Obligations.StoringOpRuns := by
  intro i operands s m a v regs ctx hg hm hb hwf hcorr hstart hw hres u
  have hp : performOp (OperandBuf.load s.operand operands) m s = .ran u :=
    Tick.performOp_afterOp (MicroOps.executeOp_write hstart hw hres)
  have hidx : u.execIdx = s.execIdx + 1 ∨ u.execIdx = s.ops.length := by
    dsimp only [u]
    split
    · exact .inl rfl
    · exact .inr rfl
  obtain ⟨hend, hgo⟩ := runGeneric_completes hm (MicroOps.runOp_free (.inl hb) hcorr) hp rfl hidx
  refine ⟨fun hforce => ?_, fun hforce => ?_, fun b hne => Ops.read_busWrite_other v hwf hne,
    Ops.read_busWrite_same v hwf⟩
  · rw [Tick.exec_generic hg, hend hforce]
  · have hflag : (u.busUsed || MicroOp.accesses m) = true := by simp [MicroOp.accesses, hw]
    rw [Tick.exec_generic hg, Tick.exec_generic hg, hgo hforce, hflag]

end Sys2Proof.Proofs.StateOps
end

section
/-! PROOF. A corruption-eligible micro-operation inside the window: the injection, and the run after it (O50). -/

namespace Sys2Proof.Proofs.Corruption

open Sys2Proof.Machine
open Sys2Proof.Laws

/-- The window is open in the search phase below the limit on the line tick, if there is one (R194). -/
theorem inCorruptionWindow_of {s : State} (hsearch : s.video.searchPhase = true)
    (hlimit : ∀ limit, s.params.tickLimit = some limit → s.video.lineTick < limit) : inCorruptionWindow s = true := by
  unfold inCorruptionWindow
  rw [hsearch, Bool.true_and]
  split
  · rfl
  next limit h => exact decide_eq_true (hlimit limit h)

/-- Inside the window the corruption a micro-operation is eligible for is injected before it runs (R193). -/
theorem injectDue_window {m : MicroOp} {s : State} {k : CorruptionKind}
    (hk : MicroOp.corruption m s.regs s.ctx = some k) (hw : inCorruptionWindow s = true) :
    injectDue m s = injectCorruption k s := by
  simp only [injectDue, hk, hw, if_true]

/-- A micro-operation that runs to its end leaves the index advanced or at the end of the sequence (R191, R197). -/
theorem afterOp_execIdx (s : State) (m : MicroOp) (regs : RegFile) (ctx : Ctx) :
    (s.afterOp m regs ctx).execIdx = s.execIdx + 1 ∨ (s.afterOp m regs ctx).execIdx = s.ops.length := by
  unfold State.afterOp
  dsimp only
  split
  · exact .inl rfl
  · exact .inr rfl

/-- A micro-operation that runs to its end suspends the walk at a forced end, and otherwise sets the bus flag (R199, R200). -/
theorem completeOp_ran {buf : OperandBuf} {m : MicroOp} {v u : State} (hp : performOp buf m v = .ran u) :
    completeOp buf m v =
      if MicroOp.forcesCycleEnd m then .suspend u
      else .again { u with busUsed := u.busUsed || MicroOp.accesses m } := by
  rw [completeOp, hp]

/-- A micro-operation that runs to its end from the state `v` its start leaves: with a forced end the cycle is over, otherwise
the walk goes on with the bus flag (R199, R200). -/
theorem runGeneric_completes_from {buf : OperandBuf} {m : MicroOp} {s v u : State} (hm : s.ops[s.execIdx]? = some m)
    (hrun : runOp buf m s = completeOp buf m v) (hp : performOp buf m v = .ran u) (hops : u.ops = s.ops)
    (hidx : u.execIdx = s.execIdx + 1 ∨ u.execIdx = s.ops.length) :
    (MicroOp.forcesCycleEnd m = true → runGeneric buf s = u) ∧
    (MicroOp.forcesCycleEnd m = false →
      runGeneric buf s = runGeneric buf { u with busUsed := u.busUsed || MicroOp.accesses m }) := by
  rw [completeOp_ran hp] at hrun
  constructor <;> intro hforce
  · rw [MicroOps.runGeneric_cons hm, hrun, if_pos hforce]
  · rw [if_neg (by simp [hforce])] at hrun
    exact StateOps.runGeneric_again hm hrun hops hidx

/-- A micro-operation that runs to its end after an injection, with at most its bus call made on the way, ends the cycle or
leaves the rest of it to the walk with the bus flag. -/
theorem exec_injected {i : Instr} {operands : List Byte} {s : State} {m : MicroOp} {k : CorruptionKind} {regs : RegFile}
    {ctx : Ctx} (bus : Bus) (trace : List BusAccess) (ic : IntCtrl) (speed : SpeedMode)
    (hg : genericOperands i = some operands) (hm : s.ops[s.execIdx]? = some m)
    (hrun : runOp (OperandBuf.load s.operand operands) m s =
      completeOp (OperandBuf.load s.operand operands) m (injectCorruption k s))
    (hexec : executeOp (OperandBuf.load s.operand operands) m (injectCorruption k s) =
      .ran { injectCorruption k s with
        bus := bus, busTrace := trace, ic := ic, speed := speed, regs := regs, ctx := ctx }) :
    let u : State := { injectCorruption k s with bus := bus, busTrace := trace, ic := ic, speed := speed }
    (MicroOp.forcesCycleEnd m = true → exec i s = .next (u.afterOp m regs ctx)) ∧
    (MicroOp.forcesCycleEnd m = false →
      exec i s = exec i { u.afterOp m regs ctx with busUsed := s.busUsed || MicroOp.accesses m }) := by
  intro u
  have hp : performOp (OperandBuf.load s.operand operands) m (injectCorruption k s) = .ran (u.afterOp m regs ctx) :=
    Tick.performOp_afterOp hexec
  obtain ⟨hend, hgo⟩ := runGeneric_completes_from hm hrun hp rfl (afterOp_execIdx u m regs ctx)
  refine ⟨fun hforce => ?_, fun hforce => ?_⟩
  · rw [Tick.exec_generic hg, hend hforce]
  · rw [Tick.exec_generic hg, Tick.exec_generic hg, hgo hforce]
    rfl

/-- Settles O50: the injection comes first, then the micro-operation runs by the law of its kind of bus call. -/
theorem corruptionIsInjectedInTheWindow : Obligations.CorruptionIsInjectedInTheWindow := by
  intro i operands s m k regs ctx hg hm hbus hk hdisplay hsearch hlimit buf v runsTo
  have hrun : runOp buf m s = completeOp buf m v := by
    rw [Tick.runOp_injectDue hbus (.inl hdisplay), injectDue_window hk (inCorruptionWindow_of hsearch hlimit)]
    rfl
  refine ⟨fun hstart => ?_, fun a hstart hr hres => ?_, fun a b hstart hw hres => ?_,
    fun hwf a ha => MicroOps.read_corruptBus k hwf ha, MicroOps.corruptBus_plain k⟩
  · exact exec_injected v.bus v.busTrace v.ic v.speed hg hm hrun (MicroOps.executeOp_finish (s := v) hstart)
  · exact exec_injected (busRead v a).2 _ v.ic v.speed hg hm hrun (MicroOps.executeOp_read (s := v) hstart hr hres)
  · exact exec_injected (busWrite v a b) _ _ _ hg hm hrun (MicroOps.executeOp_write (s := v) hstart hw hres)

end Sys2Proof.Proofs.Corruption
end

section
/-! PROOF. The bus in a machine cycle: at most one access is made (O23), and memory changes by its write alone (O24). -/

namespace Sys2Proof.Proofs.BusCycle

open Sys2Proof.Machine
open Sys2Proof.Laws

/-! ## What an operation does to the bus -/

/-- What the statements about the bus read of a state. -/
def busView (s : State) := (s.bus.mem, s.video.injected, s.params, s.busTrace, s.busUsed)

/-- What the fetch states do to the bus: they leave it alone, or make one read with the bus free and mark it used. Memory and
the injections are as they were. -/
structure Fetched (s t : State) : Prop where
  mem : t.bus.mem = s.bus.mem
  injected : t.video.injected = s.video.injected
  params : t.params = s.params
  trace : (t.busTrace = s.busTrace ∧ t.busUsed = s.busUsed) ∨
    (s.busUsed = false ∧ t.busUsed = true ∧ ∃ a v, t.busTrace = s.busTrace ++ [.read a v])

/-- One write recorded, with the bus after it (R81). -/
structure Wrote (a : Word) (v : Byte) (s t : State) : Prop where
  bus : t.bus = busWrite s a v
  injected : t.video.injected = s.video.injected
  params : t.params = s.params
  trace : t.busTrace = s.busTrace ++ [.write a v]

/-- Work that leaves the bus alone. -/
theorem Fetched.idle {s t : State} (h : busView t = busView s) : Fetched s t := by
  simp only [busView, Prod.mk.injEq] at h
  obtain ⟨hmem, hinj, hparams, htrace, hused⟩ := h
  exact ⟨hmem, hinj, hparams, .inl ⟨htrace, hused⟩⟩

/-- The second of two reads would need the bus that the first one marked used. -/
theorem Fetched.trans {s t u : State} (hst : Fetched s t) (htu : Fetched t u) : Fetched s u where
  mem := htu.mem.trans hst.mem
  injected := htu.injected.trans hst.injected
  params := htu.params.trans hst.params
  trace := by
    rcases hst.trace with ⟨ht, hb⟩ | ⟨hfree, hused, hread⟩
    · rw [← ht, ← hb]; exact htu.trace
    · rcases htu.trace with ⟨ht, hb⟩ | ⟨hfree', -⟩
      · rw [ht, hb]; exact .inr ⟨hfree, hused, hread⟩
      · rw [hused] at hfree'; cases hfree'

/-! ## Fetch and decode -/

/-- A tick up to RUNNING is over, or has an instruction to run, in a state that fetches from `s` have reached. -/
def FetchedTo (s : State) : Progress → Prop
  | .done t => ∃ u, Fetched s u ∧ t = endTick u
  | .run _ u => Fetched s u

theorem fetchedTo_end {s u : State} (h : Fetched s u) : FetchedTo s (.done (endTick u)) := ⟨u, h, rfl⟩

theorem fetchOperand_fetched {s : State} (hb : s.busUsed = false) : Fetched s (fetchOperand s) :=
  ⟨Ops.busRead_mem s s.regs.pc, rfl, rfl, .inr ⟨hb, rfl, _, _, rfl⟩⟩

theorem latchOp1_fetched {s : State} (hb : s.busUsed = false) : Fetched s (latchOp1 s) :=
  ⟨Ops.busRead_mem (clearTransient s) s.regs.pc, rfl, rfl, .inr ⟨hb, rfl, _, _, rfl⟩⟩

theorem latchOp2_fetched {s : State} (hb : s.busUsed = false) : Fetched s (latchOp2 s) :=
  ⟨Ops.busRead_mem s s.regs.pc, rfl, rfl, .inr ⟨hb, rfl, _, _, rfl⟩⟩

theorem advanceOpcodePC_busView (s : State) : busView (advanceOpcodePC s) = busView s := by
  rw [Tick.advanceOpcodePC_eq]; rfl

theorem collectOperands_fetchedTo {s t : State} (d : Descriptor) (h : Fetched s t) :
    FetchedTo s (collectOperands d t) := by
  obtain ⟨-, -, e⟩ | ⟨-, hb, e⟩ | ⟨-, hb, e⟩ | ⟨-, e⟩ := Tick.collectOperands_cases d t <;> rw [e]
  · exact fetchedTo_end h
  · exact fetchedTo_end (h.trans (fetchOperand_fetched hb))
  · exact (h.trans (fetchOperand_fetched hb)).trans (.idle rfl)
  · exact h.trans (.idle rfl)

theorem operandFetch_fetchedTo {s t : State} (h : Fetched s t) : FetchedTo s (operandFetch t) := by
  obtain ⟨-, e⟩ | ⟨d, -, -, e⟩ | ⟨d, -, -, e⟩ := Tick.operandFetch_cases t <;> rw [e]
  · exact fetchedTo_end (h.trans (.idle rfl))
  · exact fetchedTo_end (h.trans (.idle rfl))
  · exact collectOperands_fetchedTo d h

theorem unresolvedSecond_fetchedTo {s t : State} (h : Fetched s t) : FetchedTo s (unresolvedSecond t) := by
  unfold unresolvedSecond
  split
  · exact h
  · split
    · exact h
    · exact fetchedTo_end (h.trans (.idle rfl))

theorem extFetch_fetchedTo {s t : State} (h : Fetched s t) : FetchedTo s (extFetch t) := by
  cases hb : t.busUsed with
  | true => rw [Tick.extFetch_wait hb]; exact fetchedTo_end h
  | false =>
    have h2 := h.trans (latchOp2_fetched hb)
    cases hl : t.params.registry.lookupExtended (readByte t t.regs.pc) with
    | none => rw [Tick.extFetch_unresolved hb hl]; exact unresolvedSecond_fetchedTo h2
    | some d => rw [Tick.extFetch_resolved hb hl]; exact operandFetch_fetchedTo (h2.trans (.idle rfl))

theorem opcodeFetch_fetchedTo {s : State} (hb : s.busUsed = false) : FetchedTo s (opcodeFetch s) := by
  have h1 := latchOp1_fetched hb
  unfold opcodeFetch
  split
  · exact extFetch_fetchedTo (h1.trans (.idle (advanceOpcodePC_busView { latchOp1 s with state := .extOpcode })))
  · exact h1
  next d _ =>
    exact operandFetch_fetchedTo
      (h1.trans (.idle (advanceOpcodePC_busView { latchOp1 s with desc := some d, state := .operand })))

theorem arbitrate_fetchedTo {s : State} (hb : s.busUsed = false) : FetchedTo s (arbitrate s) := by
  unfold arbitrate
  split
  · exact opcodeFetch_fetchedTo hb
  · exact extFetch_fetchedTo (.idle rfl)
  · exact operandFetch_fetchedTo (.idle rfl)
  · exact Fetched.idle rfl
  all_goals exact fetchedTo_end (.idle rfl)

/-! ## Dispatch and the instructions -/

theorem pushByte_wrote (s : State) (v : Byte) (q : SeqState) :
    Wrote (s.regs.sp - 1) v s { pushByte s v with state := q } := ⟨rfl, rfl, rfl, rfl⟩

theorem storeByte_wrote (s : State) (a : Word) (v : Byte) : Wrote a v s (storeByte s a v) := ⟨rfl, rfl, rfl, rfl⟩

theorem readIE_busView (s : State) : busView (readIE s) = busView s := by
  obtain ⟨-, e⟩ | ⟨src, -, -, e⟩ := Ops.readIE_cases s <;> rw [e] <;> rfl

theorem jump_busView (s : State) : busView (jump s) = busView s := by
  obtain ⟨-, e⟩ | ⟨src, -, e⟩ := Ops.jump_cases s <;> rw [e] <;> rfl

/-- A dispatch cycle leaves the bus alone, or pushes one byte (R261 to R266). -/
theorem dispatchCycle_cases (s : State) :
    busView (dispatchCycle s) = busView s ∨ ∃ a v, Wrote a v s (dispatchCycle s) := by
  unfold dispatchCycle
  split
  · exact .inl rfl
  · exact .inl (readIE_busView s)
  · exact .inr ⟨_, _, pushByte_wrote s (high s.regs.pc) .irqPush2⟩
  · exact .inr ⟨_, _, pushByte_wrote s (low s.regs.pc) .irqJump⟩
  · exact .inl (jump_busView s)
  all_goals exact .inl rfl

theorem stopIntercept_busView (s : State) : busView (stopIntercept s) = busView s := by
  unfold stopIntercept; split <;> rfl

theorem haltIntercept_busView (s : State) : busView (haltIntercept s) = busView s := by
  unfold haltIntercept; split <;> rfl

/-- Of the instructions only PLAIN and EXT touch the bus, by their walk (R202, R203). -/
theorem exec_cases {i : Instr} {s t : State} (h : exec i s = .next t) :
    busView t = busView s ∨ ∃ buf, t = runGeneric buf s := by
  cases i with
  | halt => cases h; exact .inl (haltIntercept_busView s)
  | stop => cases h; exact .inl (stopIntercept_busView s)
  | ext | plain => cases h; exact .inr ⟨_, rfl⟩
  | illegal | illegalExt | illegalStop => cases h; exact .inl rfl

theorem preempt_busView (s : State) : busView (preempt s) = busView s := by
  obtain ⟨-, e⟩ | ⟨-, -, -, e⟩ := Ops.preempt_cases s <;> rw [e]
  simp only [busView]
  split <;> rfl

/-! ## The shapes of a step -/

/-- A step that begins no machine cycle leaves the record of accesses; any other is the machine cycle (R131, R132, R322). -/
theorem advance_cases (s : State) :
    (∃ t, advance s = .done t ∧ t.busTrace = s.busTrace) ∨
    (∃ rest, advance s = cycleBody (preempt (beginCycle { s with inputs := rest }))) := by
  have tick : ∀ rest, (∃ t, tickBody { s with inputs := rest } = .done t ∧ t.busTrace = s.busTrace) ∨
      ∃ rest', tickBody { s with inputs := rest } = cycleBody (preempt (beginCycle { s with inputs := rest' })) := by
    intro rest
    obtain ⟨-, e⟩ | ⟨-, -, e⟩ | ⟨-, -, e⟩ := Tick.tickBody_cases { s with inputs := rest }
    · exact .inl ⟨_, e, rfl⟩
    · exact .inl ⟨_, e, rfl⟩
    · exact .inr ⟨rest, e⟩
  unfold advance
  split
  · exact tick s.inputs
  next rest _ => exact tick rest
  next e rest _ _ => exact .inl ⟨_, rfl, by cases e <;> rfl⟩

/-- How a machine cycle that begins in `w` ends in `t`: by a dispatch cycle, or after fetches, with the tick over or with the
instruction in flight run. -/
inductive CycleEnds (w t : State) : Prop where
  | dispatch (e : t = endTick (dispatchCycle w))
  | fetched (u : State) (hu : Fetched { w with busUsed := false } u) (e : t = endTick u)
  | executed (i : Instr) (u v : State) (hu : Fetched { w with busUsed := false } u) (hv : exec i u = .next v)
      (e : t = endTick v)

theorem cycleEnds_of_step {s t w : State} (ha : advance s = cycleBody w) (h : step s = .next t) : CycleEnds w t := by
  have ended : ∀ x, cycleBody w = .done x → t = x := fun x e => by
    rw [Tick.step_done (ha.trans e)] at h; cases h; rfl
  have fetches : ∀ x, cycleBody w = arbitrate x → Fetched { w with busUsed := false } x → x.busUsed = false →
      CycleEnds w t := by
    intro x e hx hfree
    have hf := arbitrate_fetchedTo hfree
    rw [← e] at hf
    cases hp : cycleBody w with
    | done y =>
      rw [hp] at hf
      obtain ⟨u, hu, rfl⟩ := hf
      exact .fetched u (hx.trans hu) (ended _ hp)
    | run i u =>
      rw [hp] at hf
      obtain ⟨v, hv⟩ := Tick.exec_next i u
      rw [Tick.step_run (ha.trans hp), hv] at h
      cases h
      exact .executed i u v (hx.trans hf) hv rfl
  obtain ⟨-, e⟩ | ⟨-, e⟩ | ⟨-, -, e⟩ | ⟨-, -, -, e⟩ := Tick.cycleBody_cases w
  · exact .dispatch (ended _ e)
  · exact .fetched { w with busUsed := false } (.idle rfl) (ended _ e)
  · exact fetches _ e (.idle rfl) rfl
  · exact fetches _ e (.idle rfl) rfl

/-! ## At most one access -/

/-- The accesses of a machine cycle so far: one at most, and none with the bus free. -/
structure Accounted (s : State) : Prop where
  oneAccess : s.busTrace.length ≤ 1
  free : s.busUsed = false → s.busTrace = []

theorem accounted_of_fetched {w u : State} (hw : w.busTrace = []) (h : Fetched w u) : Accounted u := by
  rcases h.trace with ⟨ht, -⟩ | ⟨-, hused, a, v, ht⟩ <;> rw [hw] at ht
  · exact ⟨by simp [ht], fun _ => ht⟩
  · exact ⟨by simp [ht], fun hf => nomatch hused.symm.trans hf⟩

theorem busView_trace {s t : State} (h : busView t = busView s) : t.busTrace = s.busTrace := by
  simp only [busView, Prod.mk.injEq] at h
  obtain ⟨-, -, -, htrace, -⟩ := h
  exact htrace

/-- An index past the sequence faults before any access; within it the walk keeps its bounds. -/
theorem runGeneric_oneAccess {s : State} (buf : OperandBuf) (h : Accounted s) :
    (runGeneric buf s).busTrace.length ≤ 1 := by
  rcases Nat.lt_or_ge s.ops.length s.execIdx with hpast | hle
  · rw [MicroOps.runGeneric_past hpast]; exact h.oneAccess
  · exact (Cycle.runGeneric_bounds ⟨h.oneAccess, hle⟩ h.free).oneAccess

theorem exec_oneAccess {i : Instr} {s t : State} (h : Accounted s) (ht : exec i s = .next t) :
    t.busTrace.length ≤ 1 := by
  obtain hv | ⟨buf, rfl⟩ := exec_cases ht
  · rw [busView_trace hv]; exact h.oneAccess
  · exact runGeneric_oneAccess buf h

theorem dispatchCycle_oneAccess {s : State} (h : s.busTrace = []) : (dispatchCycle s).busTrace.length ≤ 1 := by
  obtain hv | ⟨a, v, hw⟩ := dispatchCycle_cases s
  · simp [busView_trace hv, h]
  · simp [hw.trace, h]

/-- A machine cycle begins with no access made and makes at most one. -/
theorem cycle_oneAccess {w t : State} (hw : w.busTrace = []) (h : CycleEnds w t) : t.busTrace.length ≤ 1 := by
  cases h with
  | dispatch e => subst e; exact dispatchCycle_oneAccess hw
  | fetched u hu e => subst e; exact (accounted_of_fetched (w := { w with busUsed := false }) hw hu).oneAccess
  | executed i u v hu hv e =>
    rw [e, State.endTick_busTrace]
    exact exec_oneAccess (accounted_of_fetched (w := { w with busUsed := false }) hw hu) hv

theorem preempt_beginCycle_trace (s : State) : (preempt (beginCycle s)).busTrace = [] :=
  Invariant.preempt_busTrace (beginCycle s)

/-- Settles O23: a step makes no access, or is a machine cycle, which makes at most one. -/
theorem atMostOneBusAccessPerCycle : Obligations.AtMostOneBusAccessPerCycle := by
  intro s t h
  obtain ⟨u, hu, htrace⟩ | ⟨rest, ha⟩ := advance_cases s
  · rw [Tick.step_done hu] at h
    cases h
    exact .inl htrace
  · exact .inr (cycle_oneAccess (preempt_beginCycle_trace _) (cycleEnds_of_step ha h))

/-! ## Memory follows the accesses -/

/-- No corruption between the two states reaches the byte at `a` (C10). -/
def Spared (a : Word) (s t : State) : Prop := t.video.injected = s.video.injected ∨ showsVideo s.params a = false

/-- The byte at `a` after the accesses `made`: as it was, with no write to it among them, or, where no device is mapped, what
one of them wrote (R93). -/
def ByteFollows (made : List BusAccess) (a : Word) (s t : State) : Prop :=
  ((∀ v, .write a v ∉ made) ∧ Memory.read a.toNat t.bus.mem = Memory.read a.toNat s.bus.mem) ∨
  ∃ v, .write a v ∈ made ∧ (s.params.windows = [] → Memory.read a.toNat t.bus.mem = v)

/-- Memory changes from `s` to `t` by the accesses recorded between them, but for injected corruptions. -/
structure Follows (s t : State) : Prop where
  params : t.params = s.params
  injected : s.video.injected <+: t.video.injected
  wf : Memory.wf s.bus.mem = true → Memory.wf t.bus.mem = true
  bytes : ∃ made, t.busTrace = s.busTrace ++ made ∧
    (Memory.wf s.bus.mem = true → ∀ a, Spared a s t → ByteFollows made a s t)

theorem ByteFollows.trans {made made' : List BusAccess} {a : Word} {s t u : State} (hp : t.params = s.params)
    (hst : ByteFollows made a s t) (htu : ByteFollows made' a t u) : ByteFollows (made ++ made') a s u := by
  rcases htu with ⟨hno, hread⟩ | ⟨v, hv, hread⟩
  · rcases hst with ⟨hno', hread'⟩ | ⟨v, hv, hread'⟩
    · exact .inl ⟨fun v hv => (List.mem_append.mp hv).elim (hno' v) (hno v), hread.trans hread'⟩
    · exact .inr ⟨v, List.mem_append_left _ hv, fun hw => hread.trans (hread' hw)⟩
  · exact .inr ⟨v, List.mem_append_right _ hv, fun hw => hread (hp.symm ▸ hw)⟩

/-- With the injections only growing, a byte spared from `s` to `u` is spared in between. -/
theorem Spared.split {a : Word} {s t u : State} (hp : t.params = s.params)
    (hst : s.video.injected <+: t.video.injected) (htu : t.video.injected <+: u.video.injected) (h : Spared a s u) :
    Spared a s t ∧ Spared a t u := by
  rcases h with h | h
  · have hs : t.video.injected = s.video.injected :=
      (hst.eq_of_length_le (h ▸ htu.length_le)).symm
    exact ⟨.inl hs, .inl (h.trans hs.symm)⟩
  · exact ⟨.inr h, .inr (hp.symm ▸ h)⟩

theorem Follows.trans {s t u : State} (hst : Follows s t) (htu : Follows t u) : Follows s u where
  params := htu.params.trans hst.params
  injected := hst.injected.trans htu.injected
  wf := htu.wf ∘ hst.wf
  bytes := by
    obtain ⟨made, htrace, hbytes⟩ := hst.bytes
    obtain ⟨made', htrace', hbytes'⟩ := htu.bytes
    refine ⟨made ++ made', by rw [htrace', htrace, List.append_assoc], fun hwf a ha => ?_⟩
    obtain ⟨h1, h2⟩ := ha.split hst.params hst.injected htu.injected
    exact (hbytes hwf a h1).trans hst.params (hbytes' (hst.wf hwf) a h2)

/-- Accesses that write nothing, over the same memory. -/
theorem follows_of_mem {s t : State} (made : List BusAccess) (hno : ∀ a v, .write a v ∉ made)
    (hmem : t.bus.mem = s.bus.mem) (hinj : t.video.injected = s.video.injected) (hparams : t.params = s.params)
    (htrace : t.busTrace = s.busTrace ++ made) : Follows s t where
  params := hparams
  injected := hinj ▸ List.prefix_rfl
  wf := fun h => hmem.symm ▸ h
  bytes := ⟨made, htrace, fun _ a _ => .inl ⟨hno a, by rw [hmem]⟩⟩

theorem follows_of_fetched {s t : State} (h : Fetched s t) : Follows s t := by
  rcases h.trace with ⟨ht, -⟩ | ⟨-, -, a, v, ht⟩
  · exact follows_of_mem [] nofun h.mem h.injected h.params (by rw [ht, List.append_nil])
  · exact follows_of_mem [.read a v] (by simp) h.mem h.injected h.params ht

theorem follows_of_busView {s t : State} (h : busView t = busView s) : Follows s t := follows_of_fetched (.idle h)

/-- The bus flag is no part of what memory follows. -/
theorem setBusUsed_follows (s : State) (b : Bool) : Follows s { s with busUsed := b } :=
  follows_of_mem [] nofun rfl rfl rfl (List.append_nil _).symm

theorem endTick_follows (s : State) : Follows s (endTick s) := setBusUsed_follows s false

theorem afterRead_follows (s : State) (a : Word) : Follows s (afterRead s a) :=
  follows_of_mem [.read a (readByte s a)] (by simp) (Ops.busRead_mem s a) rfl rfl rfl

theorem follows_of_wrote {a : Word} {v : Byte} {s t : State} (h : Wrote a v s t) : Follows s t where
  params := h.params
  injected := h.injected ▸ List.prefix_rfl
  wf := fun hwf => h.bus ▸ Ops.busWrite_wf s a v hwf
  bytes := by
    refine ⟨[.write a v], h.trace, fun hwf b _ => ?_⟩
    unfold ByteFollows
    rw [h.bus]
    by_cases hb : b = a
    · subst hb
      exact .inr ⟨v, List.mem_singleton_self _, Ops.read_busWrite_same v hwf⟩
    · exact .inl ⟨fun w => by simp [hb], Ops.read_busWrite_other v hwf hb⟩

theorem injectCorruption_follows (k : CorruptionKind) (s : State) : Follows s (injectCorruption k s) where
  params := rfl
  injected := List.prefix_append ..
  wf := MicroOps.corruptBus_wf k
  bytes := by
    refine ⟨[], (List.append_nil _).symm, fun hwf a ha => .inl ⟨nofun, MicroOps.read_corruptBus k hwf ?_⟩⟩
    exact ha.resolve_left (by simp [injectCorruption])

theorem executeOp_ran_follows {buf : OperandBuf} {m : MicroOp} {s t : State} (h : executeOp buf m s = .ran t) :
    Follows s (fastForward m (toggleAndAdvance m t)) := by
  rw [MicroOps.fastForward_toggle]
  obtain ⟨regs, ctx, ⟨-, rfl⟩ | ⟨a, -, -, -, rfl⟩ | ⟨a, v, -, -, -, rfl⟩⟩ := MicroOps.executeOp_ran h
  · exact follows_of_busView rfl
  · exact (afterRead_follows s a).trans (follows_of_busView rfl)
  · exact (follows_of_wrote (storeByte_wrote s a v)).trans (follows_of_busView rfl)

theorem executeOp_raised_follows {buf : OperandBuf} {m : MicroOp} {s t : State} (h : executeOp buf m s = .raised t) :
    Follows s t := by
  obtain rfl | ⟨a, -, rfl⟩ | ⟨a, v, -, -, rfl⟩ := MicroOps.executeOp_raised h
  · exact follows_of_busView rfl
  · exact (afterRead_follows s a).trans (follows_of_busView rfl)
  · exact (follows_of_wrote (storeByte_wrote s a v)).trans (follows_of_busView rfl)

theorem runOp_follows (buf : OperandBuf) (m : MicroOp) (s : State) :
    (∀ t, runOp buf m s = .suspend t → Follows s t) ∧ (∀ t, runOp buf m s = .again t → Follows s t) :=
  MicroOps.runOp_keeps (P := Follows)
    (refl := follows_of_busView rfl)
    (trans := fun _ _ => Follows.trans)
    (inject := fun k => injectCorruption_follows k s)
    (ran := fun _ _ => executeOp_ran_follows)
    (raised := fun _ _ => executeOp_raised_follows)
    (skip := follows_of_busView rfl)
    (flag := fun _ _ h => h.trans (setBusUsed_follows _ _))

theorem runGeneric_follows (buf : OperandBuf) (s : State) : Follows s (runGeneric buf s) := by
  unfold runGeneric
  split
  · exact follows_of_busView rfl
  · exact MicroOps.walk_keeps (P := Follows)
      (trans := fun _ _ _ => Follows.trans)
      (retired := fun _ => follows_of_busView rfl)
      _
      (one := fun m _ s => runOp_follows buf m s)
      s

theorem exec_follows {i : Instr} {s t : State} (h : exec i s = .next t) : Follows s t := by
  obtain hv | ⟨buf, rfl⟩ := exec_cases h
  · exact follows_of_busView hv
  · exact runGeneric_follows buf s

theorem dispatchCycle_follows (s : State) : Follows s (dispatchCycle s) := by
  obtain hv | ⟨a, v, hw⟩ := dispatchCycle_cases s
  · exact follows_of_busView hv
  · exact follows_of_wrote hw

theorem cycle_follows {w t : State} (h : CycleEnds w t) : Follows w t := by
  have start : Follows w { w with busUsed := false } := setBusUsed_follows w false
  cases h with
  | dispatch e => subst e; exact (dispatchCycle_follows w).trans (endTick_follows _)
  | fetched u hu e => subst e; exact (start.trans (follows_of_fetched hu)).trans (endTick_follows u)
  | executed i u v hu hv e =>
    subst e; exact ((start.trans (follows_of_fetched hu)).trans (exec_follows hv)).trans (endTick_follows v)

/-- Settles O24: memory follows the record of the cycle, which begins empty and holds one access at most. -/
theorem memoryChangesOnlyByTheCyclesWrite : Obligations.MemoryChangesOnlyByTheCyclesWrite := by
  intro s t hready hwf h a hspared
  have hcycle : CycleEnds (preempt (beginCycle s)) t := cycleEnds_of_step (Run.advance_cycleReady hready) h
  have hone : t.busTrace.length ≤ 1 := cycle_oneAccess (preempt_beginCycle_trace s) hcycle
  have hfollows : Follows (beginCycle s) t :=
    (follows_of_busView (preempt_busView (beginCycle s))).trans (cycle_follows hcycle)
  obtain ⟨made, htrace, hbytes⟩ := hfollows.bytes
  obtain rfl : t.busTrace = made := htrace
  rcases hbytes hwf a hspared with ⟨hno, hread⟩ | ⟨v, hv, hread⟩
  · exact ⟨fun _ => hread, fun v _ hv => absurd hv (hno v)⟩
  · refine ⟨fun hno => absurd hv (hno v), fun v' hw hv' => ?_⟩
    obtain ⟨access, hsingle⟩ := List.length_eq_one_iff.mp (Nat.le_antisymm hone (List.length_pos_of_mem hv))
    rw [hsingle, List.mem_singleton] at hv hv'
    cases hv.trans hv'.symm
    exact hread hw

end Sys2Proof.Proofs.BusCycle
end

section
/-! PROOF. The decoder and the encoder are inverse to each other (O33 to O35): each shape of a decode as an equation, the
operand bytes of a descriptor, and the two round trips. -/

namespace Sys2Proof.Proofs.RoundTrip

open Sys2Proof.Laws

/-- The operand bytes taken for a descriptor are those that fit it, at the head of the bytes (R100, R105). -/
theorem takeOperands_ok_iff {d : Descriptor} {bs os rest : List Byte} :
    takeOperands d bs = .ok (os, rest) ↔ operandsFit (some d) os = true ∧ os ++ rest = bs := by
  simp only [operandsFit, Bool.and_eq_true, decide_eq_true_eq]
  constructor
  · intro h
    obtain ⟨hslots, hlen, -, happ⟩ := Decode.takeOperands_ok h
    exact ⟨⟨hslots, hlen⟩, happ⟩
  · rintro ⟨⟨hslots, hlen⟩, rfl⟩
    unfold takeOperands
    rw [if_neg (Nat.not_lt.mpr hslots), if_neg (by simp [hlen]), ← hlen, List.take_left, List.drop_left]

/-- Operand bytes that fit what a lookup answers fit a descriptor, by which they are taken whole, whatever follows. -/
theorem exists_takeOperands {o : Option Descriptor} {os : List Byte} (rest : List Byte) (h : operandsFit o os = true) :
    ∃ d, o = some d ∧ takeOperands d (os ++ rest) = .ok (os, rest) := by
  cases o with
  | none => cases h
  | some d => exact ⟨d, rfl, takeOperands_ok_iff.mpr ⟨h, rfl⟩⟩

/-! ## Decode, an equation per shape (R108) -/

section
variable {r : Registry} {b c : Byte} {d : Descriptor} {bs os rest : List Byte}

theorem decode_illegal (hn : needsSecond b = false) (hl : r.lookup b = none) :
    decode r (b :: bs) = .ok (.illegal b, bs) := by
  simp [decode, decodeFirst, hn, hl]

theorem decode_oneByte (hn : needsSecond b = false) (hl : r.lookup b = some d)
    (ht : takeOperands d bs = .ok (os, rest)) :
    decode r (b :: bs) = .ok (if b = Config.haltByte then .halt os else .plain b os, rest) := by
  simp [decode, decodeFirst, hn, hl, ht]

theorem decode_illegalSecond (hn : needsSecond b = true) (hl : r.lookupExtended c = none) :
    decode r (b :: c :: bs) = .ok (if b = Config.stopByte then .illegalStop c else .illegalExt c, bs) := by
  simp [decode, decodeFirst, decodeSecond, hn, hl]

theorem decode_twoByte (hn : needsSecond b = true) (hl : r.lookupExtended c = some d)
    (ht : takeOperands d bs = .ok (os, rest)) :
    decode r (b :: c :: bs) = .ok (if b = Config.stopByte then .stop c os else .ext c os, rest) := by
  simp [decode, decodeFirst, decodeSecond, hn, hl, ht]

end

/-! ## The round trips -/

/-- Settles O33: the first byte of each class leads to its shape of decode, which takes the operand bytes whole. -/
theorem decodeOfEncode : Obligations.DecodeOfEncode := by
  intro r i rest hwf
  cases i with
  | halt os =>
    obtain ⟨d, hl, ht⟩ := exists_takeOperands rest hwf
    exact decode_oneByte rfl hl ht
  | stop c os | ext c os =>
    obtain ⟨d, hl, ht⟩ := exists_takeOperands rest hwf
    exact decode_twoByte rfl hl ht
  | plain b os =>
    simp only [Instr.wellFormed, Bool.and_eq_true, Bool.not_eq_true', decide_eq_false_iff_not] at hwf
    obtain ⟨⟨hn, hhalt⟩, hfit⟩ := hwf
    obtain ⟨d, hl, ht⟩ := exists_takeOperands rest hfit
    exact (decode_oneByte hn hl ht).trans (by rw [if_neg hhalt])
  | illegal b =>
    simp only [Instr.wellFormed, Bool.and_eq_true, Bool.not_eq_true', Option.isNone_iff_eq_none] at hwf
    obtain ⟨hn, hl⟩ := hwf
    exact decode_illegal hn hl
  | illegalExt c | illegalStop c => exact decode_illegalSecond rfl (Option.isNone_iff_eq_none.mp hwf)

/-- Settles O34: in each shape of a decode the instruction's class is the one its first byte names, and its bytes are those
read. -/
theorem encodeOfDecode : Obligations.EncodeOfDecode := by
  intro r bytes rest i h
  obtain ⟨b, rfl, rfl, hn, hl⟩ | ⟨b, d, bs, os, rfl, hn, hl, ht, rfl⟩ | ⟨b, c, rfl, hn, hl, rfl⟩ |
    ⟨b, c, d, cs, os, rfl, hn, hl, ht, rfl⟩ := Decode.decode_cases h
  · exact ⟨by simp [Instr.wellFormed, hn, hl], rfl⟩
  · obtain ⟨hfit, rfl⟩ := takeOperands_ok_iff.mp ht
    rw [← hl] at hfit
    by_cases hb : b = Config.haltByte
    · subst hb
      exact ⟨hfit, rfl⟩
    · rw [if_neg hb]
      exact ⟨by simp [Instr.wellFormed, hn, hb, hfit], rfl⟩
  · obtain rfl | rfl := (Decode.needsSecond_iff _).mp hn <;> exact ⟨Option.isNone_iff_eq_none.mpr hl, rfl⟩
  · obtain ⟨hfit, rfl⟩ := takeOperands_ok_iff.mp ht
    rw [← hl] at hfit
    obtain rfl | rfl := (Decode.needsSecond_iff _).mp hn <;> exact ⟨hfit, rfl⟩

/-- Settles O35: the decoder evaluates on each word of the fixture registry. -/
theorem wordsOfEachClassDecode : Obligations.WordsOfEachClassDecode :=
  ⟨rfl, rfl, rfl, rfl, rfl, rfl, rfl⟩

end Sys2Proof.Proofs.RoundTrip
end

section
/-! PROOF. The tick: the absorbing fault (O4), the divider (O5), the ticks between two machine cycles (O6), and the HALTED wake
(O20); for the divider, what no fetch and no machine cycle changes. -/

namespace Sys2Proof.Proofs.Divider

open Sys2Proof.Machine
open Sys2Proof.Laws

/-! ## Ticks that begin no machine cycle -/

/-- A tick on a faulted state leaves it (R131). -/
theorem step_faulted {s : State} {r : Fault} (hi : s.inputs = []) (hf : s.fault = some r) : step s = .next s :=
  Tick.step_done ((Tick.advance_nil hi).trans (Run.tickBody_faulted hf))

/-- A tick below the threshold only counts (R132). -/
theorem step_counts {s : State} (hi : s.inputs = []) (hf : s.fault = none) (h : s.subCycle + 1 < ticksPerCycle s) :
    step s = .next { s with subCycle := s.subCycle + 1 } :=
  Tick.step_done ((Tick.advance_nil hi).trans (Run.tickBody_count hf h))

/-- Settles O4: one tick leaves the state, so any number does. -/
theorem faultAbsorbsEveryTick : Obligations.FaultAbsorbsEveryTick := by
  intro s r n hi hf
  induction n with
  | zero => rfl
  | succ n ih => rw [Run.runSteps_succ n (step_faulted hi hf), ih]

/-- Ticks that stay below the threshold only count. -/
theorem runSteps_counts (k : Nat) {s : State} (hi : s.inputs = []) (hf : s.fault = none)
    (h : s.subCycle + k < ticksPerCycle s) : runSteps k s = .next { s with subCycle := s.subCycle + k } := by
  induction k generalizing s with
  | zero => rfl
  | succ k ih =>
    rw [Run.runSteps_succ k (step_counts hi hf (by omega)),
      ih (s := { s with subCycle := s.subCycle + 1 }) hi hf (show s.subCycle + 1 + k < ticksPerCycle s by omega)]
    simp only [Nat.add_comm k 1, Nat.add_assoc]

/-- Settles O6: after a machine cycle the counter starts from 0. -/
theorem ticksBetweenCyclesOnlyCount : Obligations.TicksBetweenCyclesOnlyCount := by
  rintro s k ⟨hi, hf, hz⟩ hk
  have h := runSteps_counts k hi hf (by omega)
  rwa [hz, Nat.zero_add] at h

/-! ## What fetch and decode leave unchanged -/

/-- What the fetch and decode states do not change (41_fetch_decode.md): the divider, the collaborators but for the bus and the
registers, and the inputs waiting. -/
def fetchKept (s : State) := (s.subCycle, s.speed, s.ic, s.video, s.inputs)

/-- A tick that has got as far as `p` from `s` has changed nothing of `fetchKept`. -/
def KeptBy (s : State) (p : Progress) : Prop := fetchKept (Params.reached p) = fetchKept s

theorem advanceOpcodePC_kept (s : State) : fetchKept (advanceOpcodePC s) = fetchKept s := by
  rw [Tick.advanceOpcodePC_eq]; rfl

theorem collectOperands_kept (d : Descriptor) (s : State) : KeptBy s (collectOperands d s) := by
  obtain ⟨-, -, e⟩ | ⟨-, -, e⟩ | ⟨-, -, e⟩ | ⟨-, e⟩ := Tick.collectOperands_cases d s <;> rw [e] <;> rfl

theorem operandFetch_kept (s : State) : KeptBy s (operandFetch s) := by
  obtain ⟨-, e⟩ | ⟨d, -, -, e⟩ | ⟨d, -, -, e⟩ := Tick.operandFetch_cases s <;> rw [e]
  · rfl
  · rfl
  · exact collectOperands_kept d s

theorem unresolvedSecond_kept (s : State) : KeptBy s (unresolvedSecond s) := by
  unfold unresolvedSecond
  split
  · rfl
  · split <;> rfl

theorem extFetch_kept (s : State) : KeptBy s (extFetch s) := by
  unfold extFetch
  split
  · rfl
  · split
    · exact unresolvedSecond_kept (latchOp2 s)
    · exact operandFetch_kept _

theorem opcodeFetch_kept (s : State) : KeptBy s (opcodeFetch s) := by
  unfold opcodeFetch
  split
  · exact (extFetch_kept _).trans (advanceOpcodePC_kept _)
  · rfl
  · exact (operandFetch_kept _).trans (advanceOpcodePC_kept _)

theorem arbitrate_kept (s : State) : KeptBy s (arbitrate s) := by
  unfold arbitrate
  split
  · exact opcodeFetch_kept s
  · exact extFetch_kept s
  · exact operandFetch_kept s
  all_goals rfl

/-! ## The counter along a machine cycle -/

theorem arbitrate_subCycle (s : State) : (Params.reached (arbitrate s)).subCycle = s.subCycle :=
  congrArg Prod.fst (arbitrate_kept s)

theorem dispatchCycle_subCycle (s : State) : (dispatchCycle s).subCycle = s.subCycle := by
  unfold dispatchCycle
  split
  case h_2 => obtain ⟨-, e⟩ | ⟨src, -, -, e⟩ := Ops.readIE_cases s <;> rw [e]
  case h_5 => obtain ⟨-, e⟩ | ⟨src, -, e⟩ := Ops.jump_cases s <;> rw [e]; rfl
  all_goals rfl

theorem cycleBody_subCycle (s : State) : (Params.reached (cycleBody s)).subCycle = s.subCycle := by
  obtain ⟨-, e⟩ | ⟨-, e⟩ | ⟨-, -, e⟩ | ⟨-, -, -, e⟩ := Tick.cycleBody_cases s <;> rw [e]
  · exact dispatchCycle_subCycle s
  · rfl
  · exact arbitrate_subCycle _
  · exact arbitrate_subCycle _

theorem runGeneric_subCycle (buf : OperandBuf) (s : State) : (runGeneric buf s).subCycle = s.subCycle := by
  have h := (Cycle.runGeneric_frame buf s).kept
  simp only [Cycle.kept, Prod.mk.injEq] at h
  simp only [h]

theorem exec_subCycle {i : Instr} {s t : State} (h : exec i s = .next t) : t.subCycle = s.subCycle := by
  cases i with
  | halt => cases h; unfold haltIntercept; split <;> rfl
  | stop => cases h; unfold stopIntercept; split <;> rfl
  | ext | plain => cases h; exact runGeneric_subCycle _ s
  | illegal | illegalExt | illegalStop => cases h; rfl

/-- A machine cycle ends with the counter at 0 (R132). -/
theorem step_cycle_subCycle {s t : State} (hc : s.cycleReady) (h : step s = .next t) : t.subCycle = 0 := by
  have hz : (Params.reached (advance s)).subCycle = 0 := by
    rw [Run.advance_cycleReady hc, cycleBody_subCycle, Invariant.preempt_subCycle, State.beginCycle_subCycle]
  obtain ⟨u, hu, hs⟩ | ⟨i, u, v, hu, hv, hs⟩ := Tick.step_cases s
  · cases hs.symm.trans h
    rwa [hu] at hz
  · cases hs.symm.trans h
    rw [hu] at hz
    exact (exec_subCycle hv).trans hz

/-- Settles O5: a tick counts below the threshold, and at the threshold it is a machine cycle. -/
theorem dividerCountsToTheThreshold : Obligations.DividerCountsToTheThreshold := by
  intro s hi hf
  rw [← Ops.ticksPerCycle_eq]
  refine ⟨step_counts hi hf, fun h => ?_⟩
  obtain ⟨t, ht⟩ := StateOps.stepAlwaysAnswersNext s
  exact ⟨t, ht, step_cycle_subCycle ⟨hi, hf, h⟩ ht⟩

/-! ## The HALTED wake -/

/-- The wake of HALTED with interrupts masked goes on to the arbitration loop, in OPCODE (R135). -/
theorem advance_haltedWake {s : State} (hc : s.cycleReady) (hs : s.state = .halted) (hm : s.ic.ime = false)
    (hr : IntCtrl.requested s.ic = true) : advance s = arbitrate (Tick.cycleStart { s with state := .opcode }) := by
  rw [Run.advance_cycleReady hc, Run.preempt_masked (s := beginCycle s) (.inl hm)]
  simp [cycleBody, haltWake, hs, hr, SeqState.isDispatch, beginCycle, Tick.cycleStart]

/-- Settles O20: both cycles are the arbitration loop from the same state. -/
theorem haltedWakeFetchesInTheSameCycle : Obligations.HaltedWakeFetchesInTheSameCycle := by
  intro s hc hs hm hr
  have hwake := advance_haltedWake hc hs hm ((Ops.requested_iff_masks s.ic).mpr hr)
  have hopcode : advance { s with state := .opcode } = arbitrate (Tick.cycleStart { s with state := .opcode }) :=
    Run.advance_arbitrates hc (.inl rfl) fun _ => .inl hm
  rw [step, step, hwake, hopcode]

end Sys2Proof.Proofs.Divider
end

section
/-! PROOF. Taking an interrupt (O17): runs by whole machine cycles, the five cycles of dispatch (44_interrupt_dispatch.md) one
rule each, and the two bytes they push. -/

namespace Sys2Proof.Proofs.DispatchRun

open Sys2Proof.Machine
open Sys2Proof.Laws

/-! ## Runs by machine cycles -/

/-- The ticks up to a machine cycle, and the cycle, from just after the one before. -/
theorem runSteps_cycle {n T : Nat} {s t : State} (h : s.cycleEnded) (hT : ticksPerCycle s = T)
    (hc : cycleBody (preempt (beginCycle s)) = .done t) : runSteps ((n + 1) * T) s = runSteps (n * T) t := by
  obtain ⟨hi, hf, hz⟩ := h
  have hpos := Ops.ticksPerCycle_pos s
  have hcount : runSteps (T - 1) s = .next { s with subCycle := T - 1 } := by
    have hrun := Divider.runSteps_counts (T - 1) hi hf (by omega)
    rwa [hz, Nat.zero_add] at hrun
  have hready : State.cycleReady { s with subCycle := T - 1 } :=
    ⟨hi, hf, show ticksPerCycle s ≤ T - 1 + 1 by omega⟩
  have hstep : step { s with subCycle := T - 1 } = .next t :=
    Tick.step_done ((Run.advance_cycleReady hready).trans hc)
  rw [show (n + 1) * T = (T - 1) + (n * T + 1) by rw [Nat.succ_mul]; omega, Run.runSteps_add _ _ hcount,
    Run.runSteps_succ _ hstep]

/-! ## The cycles of dispatch -/

theorem isPreemptible_of_isDispatch {q : SeqState} (h : SeqState.isDispatch q = true) :
    SeqState.isPreemptible q = false := by
  revert h
  cases q <;> decide

section
variable {s : State} {src : IrqSource}

/-- A machine cycle in a dispatch state is that state's work: nothing preempts it (R133, R134). -/
theorem cycle_dispatch (hd : SeqState.isDispatch s.state = true) :
    cycleBody (preempt (beginCycle s)) = .done (endTick (dispatchCycle (beginCycle s))) := by
  have hp : preempts (beginCycle s) = false := by simp [preempts, isPreemptible_of_isDispatch hd]
  rw [preempt, hp, cycleBody]
  exact if_pos hd

/-- The preempting cycle does the work of `IRQ_READ_IF` (R133, R261). -/
theorem cycle_preempted (hq : SeqState.isPreemptible s.state = true) (hi : s.ic.ime = true)
    (hr : IntCtrl.requested s.ic = true) :
    cycleBody (preempt (beginCycle s)) = .done { s with
      state := .irqReadIE, ifSnap := s.ic.ifl, subCycle := 0, busUsed := false, busTrace := [],
      video := if s.state = .stopped then { s.video with displayEnabled := true } else s.video } := by
  have hp : preempts (beginCycle s) = true := by simp [preempts, hq, hi, hr]
  rw [preempt, hp]
  rfl

/-- `IRQ_READ_IE` with a source in both masks (R262). -/
theorem cycle_readIE (hs : s.state = .irqReadIE) (hsel : lowestSource (bothMasks s.ifSnap s.ic.ie) = some src) :
    cycleBody (preempt (beginCycle s)) = .done { s with
      state := .irqPush1, ieSnap := s.ic.ie, subCycle := 0, busUsed := false, busTrace := [],
      ic := IntCtrl.setMasterEnabled (IntCtrl.clearPending s.ic src) false } := by
  rw [cycle_dispatch (by rw [hs]; rfl), dispatchCycle, State.beginCycle_state, hs]
  simp only [readIE, State.beginCycle_ifSnap, State.beginCycle_ic, hsel]
  rfl

/-- `IRQ_PUSH_1` (R264). -/
theorem cycle_push1 (hs : s.state = .irqPush1) :
    cycleBody (preempt (beginCycle s)) = .done { s with
      state := .irqPush2, subCycle := 0, busUsed := false, regs := { s.regs with sp := s.regs.sp - 1 },
      bus := busWrite s (s.regs.sp - 1) (high s.regs.pc),
      busTrace := [.write (s.regs.sp - 1) (high s.regs.pc)] } := by
  rw [cycle_dispatch (by rw [hs]; rfl), dispatchCycle, State.beginCycle_state, hs]
  rfl

/-- `IRQ_PUSH_2` (R265). -/
theorem cycle_push2 (hs : s.state = .irqPush2) :
    cycleBody (preempt (beginCycle s)) = .done { s with
      state := .irqJump, subCycle := 0, busUsed := false, regs := { s.regs with sp := s.regs.sp - 1 },
      bus := busWrite s (s.regs.sp - 1) (low s.regs.pc),
      busTrace := [.write (s.regs.sp - 1) (low s.regs.pc)] } := by
  rw [cycle_dispatch (by rw [hs]; rfl), dispatchCycle, State.beginCycle_state, hs]
  rfl

/-- `IRQ_JUMP` with a source in both snapshots (R266). -/
theorem cycle_jump (hs : s.state = .irqJump) (hsel : lowestSource (bothMasks s.ifSnap s.ieSnap) = some src) :
    cycleBody (preempt (beginCycle s)) = .done { s with
      state := .opcode, subCycle := 0, busUsed := false, busTrace := [],
      regs := { s.regs with pc := s.params.vectors.get src } } := by
  rw [cycle_dispatch (by rw [hs]; rfl), dispatchCycle, State.beginCycle_state, hs]
  simp only [jump, State.beginCycle_ifSnap, State.beginCycle_ieSnap, hsel]
  rfl

end

/-! ## The saved program counter -/

/-- The bus after the two pushes from `s` (R264, R265). -/
def pushedBus (s : State) : Bus :=
  busWrite { s with bus := busWrite s (s.regs.sp - 1) (high s.regs.pc) } (s.regs.sp - 2) (low s.regs.pc)

/-- The two pushes change no byte but those below the stack pointer. -/
theorem read_pushedBus_other {s : State} {a : Word} (hwf : Memory.wf s.bus.mem = true) (h1 : a ≠ s.regs.sp - 1)
    (h2 : a ≠ s.regs.sp - 2) : Memory.read a.toNat (pushedBus s).mem = Memory.read a.toNat s.bus.mem :=
  (Ops.read_busWrite_other _ (Ops.busWrite_wf s _ _ hwf) h2).trans (Ops.read_busWrite_other _ hwf h1)

/-- Where no device is mapped a write leaves the devices alone (R81). -/
theorem busWrite_dev {s : State} (a : Word) (v : Byte) (hw : s.params.windows = []) :
    (busWrite s a v).dev = s.bus.dev := by
  simp [busWrite, mapsDevice, hw]

/-- Where no device is mapped the program counter stands below the old stack pointer, low byte at the lower address (R269). -/
theorem read_pushedBus_saved {s : State} (hwf : Memory.wf s.bus.mem = true) (hw : s.params.windows = []) :
    Memory.read (s.regs.sp - 1).toNat (pushedBus s).mem = high s.regs.pc ∧
    Memory.read (s.regs.sp - 2).toNat (pushedBus s).mem = low s.regs.pc ∧ (pushedBus s).dev = s.bus.dev := by
  have hwf' := Ops.busWrite_wf s (s.regs.sp - 1) (high s.regs.pc) hwf
  have hne : s.regs.sp - 1 ≠ s.regs.sp - 2 := by bv_omega
  refine ⟨?_, Ops.read_busWrite_same _ hwf' hw, ?_⟩
  · exact (Ops.read_busWrite_other _ hwf' hne).trans (Ops.read_busWrite_same _ hwf hw)
  · exact Eq.trans (busWrite_dev _ _ hw) (busWrite_dev _ _ hw)

/-! ## The five cycles -/

/-- The source selected from the controller's masks makes a request (R307). -/
theorem requested_of_lowestSource {ic : IntCtrl} {src : IrqSource}
    (hsel : lowestSource (bothMasks ic.ifl ic.ie) = some src) : IntCtrl.requested ic = true := by
  rw [Ops.requested_iff, Ne, ← Ops.lowestSource_eq_none, hsel]
  simp

/-- Five machine cycles after a request is seen control is at the vector of its source (R272). -/
theorem runSteps_dispatch {s : State} {src : IrqSource} (h : s.cycleEnded)
    (hq : SeqState.isPreemptible s.state = true) (hi : s.ic.ime = true)
    (hsel : lowestSource (bothMasks s.ic.ifl s.ic.ie) = some src) :
    runSteps (5 * ticksPerCycle s) s = .next { s with
      state := .opcode, subCycle := 0, ifSnap := s.ic.ifl, ieSnap := s.ic.ie,
      ic := IntCtrl.setMasterEnabled (IntCtrl.clearPending s.ic src) false,
      regs := { s.regs with pc := s.params.vectors.get src, sp := s.regs.sp - 2 }, bus := pushedBus s,
      video := if s.state = .stopped then { s.video with displayEnabled := true } else s.video,
      busUsed := false, busTrace := [] } := by
  have hsp : s.regs.sp - 1 - 1 = s.regs.sp - 2 := by bv_omega
  have ⟨hin, hf, _⟩ := h
  refine Eq.trans (runSteps_cycle h rfl (cycle_preempted hq hi (requested_of_lowestSource hsel))) ?_
  refine Eq.trans (runSteps_cycle ⟨hin, hf, rfl⟩ rfl (cycle_readIE rfl hsel)) ?_
  refine Eq.trans (runSteps_cycle ⟨hin, hf, rfl⟩ rfl (cycle_push1 rfl)) ?_
  refine Eq.trans (runSteps_cycle ⟨hin, hf, rfl⟩ rfl (cycle_push2 rfl)) ?_
  refine Eq.trans (runSteps_cycle ⟨hin, hf, rfl⟩ rfl (cycle_jump rfl hsel)) ?_
  simp only [Nat.zero_mul, Run.runSteps_zero, hsp]
  rfl

/-- Settles O17: the five cycles run one after another, and their two writes are the saved program counter. -/
theorem dispatchEntersTheHandler : Obligations.DispatchEntersTheHandler := by
  intro s src h hs hi hsrc hlow
  have hq : SeqState.isPreemptible s.state = true := by rcases hs with e | e | e <;> rw [e] <;> rfl
  have hsel : lowestSource (bothMasks s.ic.ifl s.ic.ie) = some src := Ops.lowestSource_eq_some _ src hsrc hlow
  exact ⟨runSteps_dispatch h hq hi hsel,
    fun hwf => ⟨read_pushedBus_saved hwf, fun _ => read_pushedBus_other hwf⟩⟩

end Sys2Proof.Proofs.DispatchRun
end

section
/-! PROOF. The fetch states (O25 to O31): the state each of them leaves in the machine cycle that fetches its byte, what that
cycle goes on to, and the one-byte instruction that runs in it (O37). -/

namespace Sys2Proof.Proofs.Fetch

open Sys2Proof.Machine
open Sys2Proof.Laws

/-! ## The state a fetch leaves, in the machine cycle that made it -/

/-- The first opcode byte fetched, with the sequencer gone on to state `q` and descriptor `o` (R160 to R162). -/
def firstLatched (s : State) (q : SeqState) (o : Option Descriptor) : State :=
  { s with
    subCycle := 0, state := q, op1 := readByte s s.regs.pc, op2 := 0x00, operand := OperandBuf.clear, operandIdx := 0,
    desc := o, ops := [], execIdx := 0, ctx := s.params.ctx0, haltBug := false, ifSnap := 0x00, ieSnap := 0x00,
    regs := if s.haltBug then s.regs else { s.regs with pc := s.regs.pc + 1 },
    bus := (busRead s s.regs.pc).2, busUsed := true, busTrace := [.read s.regs.pc (readByte s s.regs.pc)] }

/-- The second opcode byte fetched and resolved as `d` (R163). -/
def secondLatched (s : State) (d : Descriptor) : State :=
  { s with
    subCycle := 0, state := .operand, op2 := readByte s s.regs.pc, desc := some d,
    regs := { s.regs with pc := s.regs.pc + 1 },
    bus := (busRead s s.regs.pc).2, busUsed := true, busTrace := [.read s.regs.pc (readByte s s.regs.pc)] }

/-- An operand byte fetched into its slot (R165). -/
def operandLatched (s : State) : State :=
  { s with
    subCycle := 0, operand := OperandBuf.put s.operand s.operandIdx (readByte s s.regs.pc),
    operandIdx := s.operandIdx + 1, regs := { s.regs with pc := s.regs.pc + 1 },
    bus := (busRead s s.regs.pc).2, busUsed := true, busTrace := [.read s.regs.pc (readByte s s.regs.pc)] }

/-! ## Each fetch cycle -/

section
variable {s : State} {d : Descriptor}

theorem needsSecond_eq_false {b : Byte} (hext : b ≠ 0xCB) (hstop : b ≠ 0x10) : needsSecond b = false := by
  rw [← Bool.not_eq_true, Decode.needsSecond_iff]
  exact fun h => h.elim hext hstop

/-- An OPCODE cycle with no preemption is the opcode fetch. -/
theorem advance_opcode (hc : s.cycleReady) (hs : s.state = .opcode)
    (hm : s.ic.ime = false ∨ s.ic.ifl &&& s.ic.ie &&& 0x1F = 0) : advance s = opcodeFetch (Tick.cycleStart s) :=
  (Run.advance_arbitrates hc (.inl hs) fun _ => hm).trans (Tick.arbitrate_opcode hs)

/-- An EXT_OPCODE cycle is the fetch of the second byte. -/
theorem advance_extOpcode (hc : s.cycleReady) (hs : s.state = .extOpcode) :
    advance s = extFetch (Tick.cycleStart s) :=
  (Run.advance_arbitrates hc (.inr (.inl hs)) fun h => nomatch hs.symm.trans h).trans (Tick.arbitrate_ext hs)

/-- An OPERAND cycle is the operand fetch. -/
theorem advance_operand (hc : s.cycleReady) (hs : s.state = .operand) :
    advance s = operandFetch (Tick.cycleStart s) :=
  (Run.advance_arbitrates hc (.inr (.inr (.inl hs))) fun h => nomatch hs.symm.trans h).trans (Tick.arbitrate_operand hs)

theorem advanceOpcodePC_latched (s : State) (q : SeqState) (o : Option Descriptor) :
    advanceOpcodePC { latchOp1 (Tick.cycleStart s) with state := q, desc := o } = firstLatched s q o := by
  rw [Tick.advanceOpcodePC_eq]; rfl

/-- The fetch of `0xCB` or `0x10` ends its cycle, since the bus is then in use (R160, R164). -/
theorem advance_firstOfTwo (hc : s.cycleReady) (hs : s.state = .opcode)
    (hm : s.ic.ime = false ∨ s.ic.ifl &&& s.ic.ie &&& 0x1F = 0) (hn : needsSecond (readByte s s.regs.pc) = true) :
    advance s = .done (endTick (firstLatched s .extOpcode none)) := by
  rw [advance_opcode hc hs hm, Tick.opcodeFetch_second (w := Tick.cycleStart s) hn]
  exact (congrArg extFetch (advanceOpcodePC_latched s .extOpcode none)).trans (Tick.extFetch_wait rfl)

/-- The fetch of any other registered byte goes on to OPERAND in its cycle (R160, R165). -/
theorem advance_firstResolved (hc : s.cycleReady) (hs : s.state = .opcode)
    (hm : s.ic.ime = false ∨ s.ic.ifl &&& s.ic.ie &&& 0x1F = 0) (hn : needsSecond (readByte s s.regs.pc) = false)
    (hl : s.params.registry.lookup (readByte s s.regs.pc) = some d) :
    advance s = operandFetch (firstLatched s .operand (some d)) := by
  rw [advance_opcode hc hs hm, Tick.opcodeFetch_resolved (w := Tick.cycleStart s) hn hl]
  exact congrArg operandFetch (advanceOpcodePC_latched s .operand (some d))

/-- The fetch of an unregistered first byte runs the illegal instruction (R160). -/
theorem advance_firstIllegal (hc : s.cycleReady) (hs : s.state = .opcode)
    (hm : s.ic.ime = false ∨ s.ic.ifl &&& s.ic.ie &&& 0x1F = 0) (hn : needsSecond (readByte s s.regs.pc) = false)
    (hl : s.params.registry.lookup (readByte s s.regs.pc) = none) :
    advance s = .run (.illegal (readByte s s.regs.pc)) (latchOp1 (Tick.cycleStart s)) :=
  (advance_opcode hc hs hm).trans (Tick.opcodeFetch_illegal hn hl)

/-- The fetch of a registered second byte goes on to OPERAND in its cycle (R163, R165). -/
theorem advance_secondResolved (hc : s.cycleReady) (hs : s.state = .extOpcode)
    (hl : s.params.registry.lookupExtended (readByte s s.regs.pc) = some d) :
    advance s = operandFetch (secondLatched s d) :=
  (advance_extOpcode hc hs).trans (Tick.extFetch_resolved rfl hl)

/-- The fetch of an unregistered second byte (R163). -/
theorem advance_secondUnresolved (hc : s.cycleReady) (hs : s.state = .extOpcode)
    (hl : s.params.registry.lookupExtended (readByte s s.regs.pc) = none) :
    advance s = unresolvedSecond (latchOp2 (Tick.cycleStart s)) :=
  (advance_extOpcode hc hs).trans (Tick.extFetch_unresolved rfl hl)

/-! ## What OPERAND goes on to -/

theorem operandFetch_tooLong (hd : s.desc = some d) (hl : 2 < d.length) :
    operandFetch s = .done (endTick (raiseFault .operandLengthExceeded s)) := by
  rw [operandFetch, hd]; exact if_pos hl

/-- With the bus used, an operand byte to come waits for the next machine cycle (R165). -/
theorem operandFetch_waits (hd : s.desc = some d) (hl : d.length ≤ 2) (hb : s.busUsed = true)
    (hi : s.operandIdx < d.length) : operandFetch s = .done (endTick s) := by
  rw [Tick.operandFetch_fits hd hl, collectOperands, if_pos hi, if_pos hb]

/-- With no operand byte to come the instruction runs in the same cycle (R167). -/
theorem operandFetch_complete (hd : s.desc = some d) (hl : d.length ≤ 2) (hi : d.length ≤ s.operandIdx) :
    operandFetch s = runInFlight (loadOps d s) := by
  rw [Tick.operandFetch_fits hd hl, collectOperands, if_neg (Nat.not_lt.mpr hi)]

/-- With the bus free and more than one operand byte to come, one is fetched and the rest wait (R165). -/
theorem operandFetch_more (hd : s.desc = some d) (hl : d.length ≤ 2) (hb : s.busUsed = false)
    (hi : s.operandIdx + 1 < d.length) : operandFetch s = .done (endTick (fetchOperand s)) := by
  rw [Tick.operandFetch_fits hd hl, collectOperands, if_pos (by omega), if_neg (by simp [hb]), if_pos hi]

/-- With the bus free and one operand byte to come, it is fetched and the instruction runs (R165, R167). -/
theorem operandFetch_last (hd : s.desc = some d) (hl : d.length ≤ 2) (hb : s.busUsed = false)
    (hi : s.operandIdx + 1 = d.length) : operandFetch s = runInFlight (loadOps d (fetchOperand s)) := by
  rw [Tick.operandFetch_fits hd hl, collectOperands, if_pos (by omega), if_neg (by simp [hb]), if_neg (by omega)]

/-- The cycle that fetches an operand byte which is not the last. -/
theorem advance_operandMore (hc : s.cycleReady) (hs : s.state = .operand) (hd : s.desc = some d) (hl : d.length ≤ 2)
    (hi : s.operandIdx + 1 < d.length) : advance s = .done (endTick (operandLatched s)) :=
  (advance_operand hc hs).trans (operandFetch_more (s := Tick.cycleStart s) hd hl rfl hi)

/-- The cycle that fetches the last operand byte. -/
theorem advance_operandLast (hc : s.cycleReady) (hs : s.state = .operand) (hd : s.desc = some d) (hl : d.length ≤ 2)
    (hi : s.operandIdx + 1 = d.length) : advance s = runInFlight (loadOps d (operandLatched s)) :=
  (advance_operand hc hs).trans (operandFetch_last (s := Tick.cycleStart s) hd hl rfl hi)

end

/-! ## The statements -/

/-- Settles O25: the fetch uses the bus, so the second byte waits. -/
theorem opcodeFetchDefersTheSecondByte : Obligations.OpcodeFetchDefersTheSecondByte := by
  intro s hc hs hm hb
  exact Tick.step_done (advance_firstOfTwo hc hs hm ((Decode.needsSecond_iff _).mpr hb))

/-- Settles O26: the fetch uses the bus, so the operand bytes wait. -/
theorem opcodeFetchResolvesTheDescriptor : Obligations.OpcodeFetchResolvesTheDescriptor := by
  intro s d hc hs hm hext hstop hl hpos hlen
  have hfetch := advance_firstResolved hc hs hm (needsSecond_eq_false hext hstop) hl
  exact Tick.step_done (hfetch.trans (operandFetch_waits rfl hlen rfl hpos))

/-- Settles O27: the fetch uses the bus, so operand bytes wait; with none left the sequence is loaded at once. -/
theorem secondByteFetchResolvesTheDescriptor : Obligations.SecondByteFetchResolvesTheDescriptor := by
  intro s d hc hs hl hlen
  have hfetch := advance_secondResolved hc hs hl
  constructor
  · intro hi
    exact Tick.step_done (hfetch.trans (operandFetch_waits rfl hlen rfl hi))
  · intro hi
    exact Tick.step_run (hfetch.trans (operandFetch_complete rfl hlen hi))

/-- The slot an operand byte goes into is chosen by its index (R33, R165). -/
theorem put_of_lt_two {k : Nat} (hk : k < 2) (b : OperandBuf) (v : Byte) :
    OperandBuf.put b k v = if k = 0 then { b with slot0 := v } else { b with slot1 := v } := by
  match k, hk with
  | 0, _ | 1, _ => rfl

/-- Settles O28: the first of two operand bytes ends its cycle, and the last is followed by the instruction. -/
theorem operandBytesFillTheirSlots : Obligations.OperandBytesFillTheirSlots := by
  intro s d hc hs hd
  constructor
  · intro hlen hi
    rw [Tick.step_done (advance_operandMore hc hs hd (by omega) (by omega)), operandLatched, hi]
    rfl
  · intro hlen hi
    rw [← hi, ← put_of_lt_two (by omega)]
    exact Tick.step_run (advance_operandLast hc hs hd hlen hi)

/-- Settles O29: OPERAND checks its descriptor before any byte, in the cycle of the opcode byte that resolved it or in one of
its own. -/
theorem operandStateChecksTheDescriptor : Obligations.OperandStateChecksTheDescriptor := by
  intro s hc
  refine ⟨fun hs hd => ?_, fun d hs hd hlen => ?_, fun d hs hm hext hstop hl hlen => ?_, fun d hs hl hlen => ?_⟩
  · refine Tick.step_done ((advance_operand hc hs).trans ?_)
    rw [operandFetch, show (Tick.cycleStart s).desc = none from hd]
    rfl
  · exact Tick.step_done ((advance_operand hc hs).trans (operandFetch_tooLong hd hlen))
  · have hfetch := advance_firstResolved hc hs hm (needsSecond_eq_false hext hstop) hl
    exact Tick.step_done (hfetch.trans (operandFetch_tooLong rfl hlen))
  · exact Tick.step_done ((advance_secondResolved hc hs hl).trans (operandFetch_tooLong rfl hlen))

/-- Settles O30: the fetch runs the illegal instruction, which records the fault and no more. -/
theorem unregisteredFirstByteFaults : Obligations.UnregisteredFirstByteFaults := by
  intro s hc hs hm hext hstop hl
  have hstep := Tick.step_run (advance_firstIllegal hc hs hm (needsSecond_eq_false hext hstop) hl)
  exact ⟨_, hstep, rfl, rfl, hs, rfl, rfl⟩

/-- Settles O31: whichever first byte was latched, the fetch records the fault of both bytes and no more. -/
theorem unregisteredSecondByteFaults : Obligations.UnregisteredSecondByteFaults := by
  intro s hc hs hl
  have hstep : step s = .next (endTick (raiseFault (.extDecodeFailure s.op1 (readByte s s.regs.pc))
      (latchOp2 (Tick.cycleStart s)))) := by
    rw [step, advance_secondUnresolved hc hs hl, unresolvedSecond, show (latchOp2 (Tick.cycleStart s)).op1 = s.op1 from rfl]
    by_cases hext : s.op1 = Config.extByte
    · rw [if_pos hext, hext]; rfl
    · rw [if_neg hext]
      by_cases hstop : s.op1 = Config.stopByte
      · rw [if_pos hstop, hstop]; rfl
      · rw [if_neg hstop]; rfl
  exact ⟨_, hstep, rfl, rfl, hs, rfl, rfl⟩

/-! ## The instruction in flight -/

section
variable {r : Registry} {i : Instr} {d : Descriptor}

/-- The opcode bytes of an instruction, as many as its format has (R100, R101). -/
def opcodeList (i : Instr) : List Byte :=
  if needsSecond (opcodeBytes i).1 then [(opcodeBytes i).1, (opcodeBytes i).2] else [(opcodeBytes i).1]

/-- The bytes of an instruction are its opcode bytes and then its operand bytes (R100). -/
theorem encode_eq_append (hwf : i.wellFormed r = true) : encode i = opcodeList i ++ operandBytes i := by
  cases i with
  | plain b os =>
    simp only [Instr.wellFormed, Bool.and_eq_true, Bool.not_eq_true'] at hwf
    simp [encode, opcodeList, opcodeBytes, operandBytes, hwf.1.1]
  | illegal b =>
    simp only [Instr.wellFormed, Bool.and_eq_true, Bool.not_eq_true'] at hwf
    simp [encode, opcodeList, opcodeBytes, operandBytes, hwf.1]
  | halt | stop | ext | illegalExt | illegalStop => rfl

/-- In format P there is no second opcode byte (R32, R101). -/
theorem second_eq_zero (hn : needsSecond (opcodeBytes i).1 = false) : (opcodeBytes i).2 = 0x00 := by
  cases i with
  | stop | ext | illegalExt | illegalStop => cases hn
  | halt | plain | illegal => rfl

/-- What the decode of a legal instruction fixes: its descriptor in the registry (R108, R112). -/
structure Resolves (r : Registry) (i : Instr) (d : Descriptor) : Prop where
  legal : isLegal i = true
  wf    : i.wellFormed r = true
  desc  : resolvedDescriptor r (opcodeBytes i).1 (opcodeBytes i).2 = some d

/-- The operand bytes of a legal instruction fit the descriptor of its opcode bytes (R105). -/
theorem operandsFit_resolved (hlegal : isLegal i = true) (hwf : i.wellFormed r = true) :
    operandsFit (resolvedDescriptor r (opcodeBytes i).1 (opcodeBytes i).2) (operandBytes i) = true := by
  cases i with
  | illegal | illegalExt | illegalStop => cases hlegal
  | halt | stop | ext => exact hwf
  | plain b os =>
    simp only [Instr.wellFormed, Bool.and_eq_true, Bool.not_eq_true'] at hwf
    simp [resolvedDescriptor, opcodeBytes, operandBytes, hwf.1.1, hwf.2]

theorem Resolves.operandBytes_length (h : Resolves r i d) :
    (operandBytes i).length = d.length ∧ d.length ≤ 2 := by
  have hfit := operandsFit_resolved h.legal h.wf
  rw [h.desc] at hfit
  simp only [operandsFit, Bool.and_eq_true, decide_eq_true_eq] at hfit
  exact hfit.symm

/-- A legal instruction has its opcode bytes and as many operand bytes as its descriptor says (R100). -/
theorem Resolves.encode_length (h : Resolves r i d) : (encode i).length = (opcodeList i).length + d.length := by
  rw [encode_eq_append h.wf, List.length_append, h.operandBytes_length.1]

/-- The buffer gives back the operand bytes it was loaded with (R33, R107). -/
theorem firstBytes_load {os : List Byte} (h : os.length ≤ 2) :
    OperandBuf.firstBytes (OperandBuf.load OperandBuf.clear os) os.length = os := by
  match os, h with
  | [], _ | [_], _ | [_, _], _ => rfl

/-- With the bytes of a legal instruction latched, it is the instruction in flight (R191). -/
theorem Resolves.inFlight_eq (h : Resolves r i d) {u : State} (h1 : u.op1 = (opcodeBytes i).1)
    (h2 : u.op2 = (opcodeBytes i).2) (hb : u.operand = OperandBuf.load OperandBuf.clear (operandBytes i))
    (hi : u.operandIdx = d.length) : inFlight u = i := by
  obtain ⟨hlen, hle⟩ := h.operandBytes_length
  rw [inFlight, h1, h2, hb, hi, ← hlen, firstBytes_load (by omega)]
  have hlegal := h.legal
  have hwf := h.wf
  cases i with
  | illegal | illegalExt | illegalStop => cases hlegal
  | halt | stop | ext => rfl
  | plain b os =>
    simp only [Instr.wellFormed, needsSecond, Bool.and_eq_true, Bool.not_eq_true', Bool.or_eq_false_iff,
      decide_eq_false_iff_not] at hwf
    obtain ⟨⟨⟨hext, hstop⟩, hhalt⟩, -⟩ := hwf
    exact (if_neg hstop).trans ((if_neg hhalt).trans (if_neg hext))

/-- The first opcode byte decides the format of the whole decode (R100, R108). -/
theorem Resolves.cases (h : Resolves r i d) :
    (needsSecond (opcodeBytes i).1 = false ∧ r.lookup (opcodeBytes i).1 = some d ∧
      (opcodeBytes i).2 = 0x00 ∧ opcodeList i = [(opcodeBytes i).1]) ∨
    (needsSecond (opcodeBytes i).1 = true ∧ r.lookupExtended (opcodeBytes i).2 = some d ∧
      opcodeList i = [(opcodeBytes i).1, (opcodeBytes i).2]) := by
  have hd := h.desc
  unfold resolvedDescriptor at hd
  cases hn : needsSecond (opcodeBytes i).1 with
  | false => exact .inl ⟨rfl, by simpa [hn] using hd, second_eq_zero hn, by simp [opcodeList, hn]⟩
  | true => exact .inr ⟨rfl, by simpa [hn] using hd, by simp [opcodeList, hn]⟩

end

/-- Settles O37: the byte alone decodes to the instruction, so it has no operand byte, and its sequence is loaded in the
cycle of the fetch. -/
theorem opcodeCycleRunsAOneByteInstruction : Obligations.OpcodeCycleRunsAOneByteInstruction := by
  intro s i rest d hc hs hm hdec hlegal hd
  obtain ⟨hwf, hbytes⟩ := RoundTrip.encodeOfDecode _ _ _ _ hdec
  have h : Resolves s.params.registry i d := ⟨hlegal, hwf, hd⟩
  rw [encode_eq_append hwf] at hbytes
  obtain ⟨hn, hl, hop2, hops⟩ | ⟨-, -, hops⟩ := h.cases
  · rw [hops] at hbytes
    obtain ⟨hop1, hnil⟩ := List.cons.inj hbytes
    have hnone : operandBytes i = [] := (List.append_eq_nil_iff.mp hnil).1
    have hlen : d.length = 0 := by rw [← h.operandBytes_length.1, hnone]; rfl
    rw [hop1] at hn hl
    have hadv := (advance_firstResolved hc hs hm hn hl).trans (operandFetch_complete rfl (by omega) (by omega))
    have hi : inFlight (loadOps d (firstLatched s .operand (some d))) = i :=
      h.inFlight_eq hop1.symm hop2.symm (by rw [hnone]; rfl) hlen.symm
    rw [runInFlight, hi] at hadv
    exact Tick.step_run hadv
  · rw [hops] at hbytes
    exact absurd (congrArg List.length hbytes) (by simp)

end Sys2Proof.Proofs.Fetch
end

section
/-! PROOF. Whole instructions: as many machine cycles as an instruction has bytes decode it and run it (O38), and the state
prepared for a word runs the word's instruction (O39). Both go through the states `fetched`, one for each count of operand
bytes fetched. -/

namespace Sys2Proof.Proofs.DecodeRun

open Sys2Proof.Machine
open Sys2Proof.Laws
open Sys2Proof.Proofs.Fetch

/-! ## The state after each byte -/

/-- The bytes are those the sequencer fetches from `s` on, and to read them changes nothing (R81). -/
def Stands (s : State) (bytes : List Byte) : Prop :=
  ∀ k b, bytes[k]? = some b → busRead s (s.fetchAddress k) = (b, s.bus)

/-- In OPERAND, the opcode bytes of `i` and `j` operand bytes fetched from `s` on, in the machine cycle that fetched the last
of them (R165). -/
def fetched (s : State) (i : Instr) (d : Descriptor) (j : Nat) : State :=
  { s with
    subCycle := 0, state := .operand, op1 := (opcodeBytes i).1, op2 := (opcodeBytes i).2,
    operand := OperandBuf.load OperandBuf.clear ((operandBytes i).take j), operandIdx := j,
    desc := some d, ops := [], execIdx := 0, ctx := s.params.ctx0, haltBug := false, ifSnap := 0x00, ieSnap := 0x00,
    regs := { s.regs with pc := s.fetchAddress ((opcodeList i).length + j) }, busUsed := true,
    busTrace := [.read (s.fetchAddress ((opcodeList i).length + j - 1))
      ((encode i)[(opcodeList i).length + j - 1]?.getD 0x00)] }

section
variable {s v : State} {i : Instr} {d : Descriptor} {j : Nat}

theorem encode_first (i : Instr) : (encode i)[0]? = some (opcodeBytes i).1 := by
  cases i <;> rfl

/-- The first opcode byte stands at the program counter. -/
theorem Stands.first (h : Stands s (encode i)) : busRead s s.regs.pc = ((opcodeBytes i).1, s.bus) := by
  rw [← Tick.fetchAddress_zero]; exact h 0 _ (encode_first i)

/-- The second opcode byte stands after it. -/
theorem Stands.second {r : Registry} (h : Stands s (encode i)) (hwf : i.wellFormed r = true)
    (hn : needsSecond (opcodeBytes i).1 = true) : busRead s (s.fetchAddress 1) = ((opcodeBytes i).2, s.bus) :=
  h 1 _ (by simp [encode_eq_append hwf, opcodeList, hn])

/-- The first opcode byte latched, by the byte read (R160, R161). -/
theorem firstLatched_of_read {b : Byte} {bus : Bus} (h : busRead s s.regs.pc = (b, bus)) (q : SeqState)
    (o : Option Descriptor) :
    firstLatched s q o = { clearTransient s with
      subCycle := 0, state := q, op1 := b, desc := o, haltBug := false,
      regs := { s.regs with pc := s.fetchAddress 1 }, bus := bus, busUsed := true,
      busTrace := [.read (s.fetchAddress 0) b] } := by
  have hregs : (if s.haltBug then s.regs else { s.regs with pc := s.regs.pc + 1 }) =
      { s.regs with pc := s.fetchAddress 1 } := by
    unfold State.fetchAddress
    cases s.haltBug <;> simp
  simp only [firstLatched, Machine.readByte, h, hregs, Tick.fetchAddress_zero]
  rfl

/-- The second opcode byte latched, by the byte read (R163). -/
theorem secondLatched_of_read {b : Byte} {bus : Bus} (h : busRead s s.regs.pc = (b, bus)) (d : Descriptor) :
    secondLatched s d = { s with
      subCycle := 0, state := .operand, op2 := b, desc := some d, regs := { s.regs with pc := s.regs.pc + 1 },
      bus := bus, busUsed := true, busTrace := [.read s.regs.pc b] } := by
  simp only [secondLatched, Machine.readByte, h]

/-- An operand byte latched, by the byte read (R165). -/
theorem operandLatched_of_read {b : Byte} {bus : Bus} (h : busRead s s.regs.pc = (b, bus)) :
    operandLatched s = { s with
      subCycle := 0, operand := OperandBuf.put s.operand s.operandIdx b, operandIdx := s.operandIdx + 1,
      regs := { s.regs with pc := s.regs.pc + 1 }, bus := bus, busUsed := true,
      busTrace := [.read s.regs.pc b] } := by
  simp only [operandLatched, Machine.readByte, h]

/-- The operand buffer after one byte more (R33). -/
theorem put_load_take {os : List Byte} {b : Byte} (hlen : os.length ≤ 2) (hb : os[j]? = some b) :
    OperandBuf.put (OperandBuf.load OperandBuf.clear (os.take j)) j b =
      OperandBuf.load OperandBuf.clear (os.take (j + 1)) := by
  match os, hlen, j with
  | [_], _, 0 | [_, _], _, 0 | [_, _], _, 1 => cases hb; rfl
  | [], _, _ | [_], _, _ + 1 | [_, _], _, _ + 2 => simp at hb

/-- The opcode byte of format P leaves `fetched` with no operand byte. -/
theorem firstLatched_eq_fetched (hb : Stands s (encode i)) (hn : needsSecond (opcodeBytes i).1 = false) :
    firstLatched s .operand (some d) = fetched s i d 0 := by
  have hops : opcodeList i = [(opcodeBytes i).1] := by simp [opcodeList, hn]
  rw [firstLatched_of_read hb.first, fetched, hops, second_eq_zero hn]
  simp only [List.length_singleton, Nat.add_zero, Nat.sub_self, encode_first]
  rfl

/-- The state at the start of the machine cycle that fetches the second opcode byte of `i`, the first one from `s`. -/
def awaitsSecond (s : State) (i : Instr) : State :=
  Tick.cycleStart { clearTransient s with
    state := .extOpcode, op1 := (opcodeBytes i).1, haltBug := false,
    regs := { s.regs with pc := s.fetchAddress 1 } }

theorem cycleStart_firstLatched (hb : Stands s (encode i)) :
    Tick.cycleStart (firstLatched s .extOpcode none) = awaitsSecond s i := by
  rw [firstLatched_of_read hb.first]; rfl

/-- The second opcode byte leaves `fetched` with no operand byte. -/
theorem secondLatched_eq_fetched (hwf : i.wellFormed s.params.registry = true) (hb : Stands s (encode i))
    (hn : needsSecond (opcodeBytes i).1 = true) : secondLatched (awaitsSecond s i) d = fetched s i d 0 := by
  have hops : opcodeList i = [(opcodeBytes i).1, (opcodeBytes i).2] := by simp [opcodeList, hn]
  have hread : busRead (awaitsSecond s i) (s.fetchAddress 1) = ((opcodeBytes i).2, s.bus) := hb.second hwf hn
  have hpc : s.fetchAddress 1 + 1 = s.fetchAddress 2 := Tick.fetchAddress_succ s 0
  rw [secondLatched_of_read (s := awaitsSecond s i) hread, fetched, encode_eq_append hwf, hops]
  simp only [awaitsSecond, Tick.cycleStart, hpc]
  rfl

/-- After the first byte each comes from the next address (R161). -/
theorem fetchAddress_add_one (s : State) {k : Nat} (hk : 0 < k) : s.fetchAddress k + 1 = s.fetchAddress (k + 1) := by
  cases k with
  | zero => cases hk
  | succ k => exact Tick.fetchAddress_succ s k

theorem opcodeList_length_pos (i : Instr) : 0 < (opcodeList i).length := by
  unfold opcodeList; split <;> simp

/-- Each operand byte adds itself to `fetched`. -/
theorem operandLatched_eq_fetched (h : Resolves s.params.registry i d) (hb : Stands s (encode i))
    (hj : j < d.length) (hv : Tick.cycleStart v = Tick.cycleStart (fetched s i d j)) :
    operandLatched v = fetched s i d (j + 1) := by
  obtain ⟨hlen, hle⟩ := h.operandBytes_length
  obtain ⟨b, hbyte⟩ : ∃ b, (operandBytes i)[j]? = some b := ⟨_, List.getElem?_eq_getElem (by omega)⟩
  have hat : (encode i)[(opcodeList i).length + j]? = some b := by
    rw [encode_eq_append h.wf, List.getElem?_append_right (by omega), Nat.add_sub_cancel_left, hbyte]
  have hpc := fetchAddress_add_one s (Nat.add_pos_left (opcodeList_length_pos i) j)
  have hput := put_load_take (by omega) hbyte
  calc operandLatched v = operandLatched (Tick.cycleStart (fetched s i d j)) := by rw [← hv]; rfl
    _ = fetched s i d (j + 1) := by
      rw [operandLatched_of_read (s := Tick.cycleStart (fetched s i d j)) (hb _ _ hat)]
      simp only [fetched, Tick.cycleStart, hput, hpc, ← Nat.add_assoc, Nat.add_sub_cancel, hat, Option.getD_some]

/-- With every byte fetched and the sequence loaded, RUNNING begins as the statements say (R167). -/
theorem loadOps_fetched (h : Resolves s.params.registry i d) :
    loadOps d (fetched s i d d.length) = s.decoded i d := by
  obtain ⟨hlen, -⟩ := h.operandBytes_length
  simp only [loadOps, fetched, State.decoded, h.encode_length, hlen, List.take_of_length_le hlen.le,
    List.getLastD_eq_getLast?, List.getLast?_eq_getElem?]

/-! ## The cycle of each byte -/

/-- The cycle of the opcode byte of format P goes on to OPERAND with it fetched. -/
theorem advance_first (hb : Stands s (encode i)) (hc : s.cycleReady)
    (hs : s.state = .opcode) (hm : s.ic.ime = false ∨ s.ic.ifl &&& s.ic.ie &&& 0x1F = 0)
    (hn : needsSecond (opcodeBytes i).1 = false) (hl : s.params.registry.lookup (opcodeBytes i).1 = some d) :
    advance s = operandFetch (fetched s i d 0) := by
  have hread : readByte s s.regs.pc = (opcodeBytes i).1 := congrArg Prod.fst hb.first
  rw [advance_firstResolved hc hs hm (by rw [hread, hn]) (by rw [hread, hl]), firstLatched_eq_fetched hb hn]

/-- What the cycle of a second opcode byte reads, and the registry it looks in. -/
theorem readByte_second (hwf : i.wellFormed s.params.registry = true) (hb : Stands s (encode i))
    (hn : needsSecond (opcodeBytes i).1 = true) (hv : Tick.cycleStart v = awaitsSecond s i) :
    readByte v v.regs.pc = (opcodeBytes i).2 ∧ v.params = s.params := by
  have hread : readByte (awaitsSecond s i) (awaitsSecond s i).regs.pc = (opcodeBytes i).2 :=
    congrArg Prod.fst (hb.second hwf hn)
  have hparams : (awaitsSecond s i).params = s.params := rfl
  rw [← hv] at hread hparams
  exact ⟨hread, hparams⟩

/-- The cycle of a second opcode byte goes on to OPERAND with both fetched. -/
theorem advance_second (hwf : i.wellFormed s.params.registry = true) (hb : Stands s (encode i)) (hc : v.cycleReady)
    (hv : Tick.cycleStart v = awaitsSecond s i) (hn : needsSecond (opcodeBytes i).1 = true)
    (hl : s.params.registry.lookupExtended (opcodeBytes i).2 = some d) :
    advance v = operandFetch (fetched s i d 0) := by
  obtain ⟨hread, hparams⟩ := readByte_second hwf hb hn hv
  have hlatch : secondLatched v d = secondLatched (Tick.cycleStart v) d := rfl
  rw [advance_secondResolved hc (congrArg State.state hv) (by rw [hread, hparams, hl]), hlatch, hv,
    secondLatched_eq_fetched hwf hb hn]

/-- From the bytes of the instruction, RUNNING runs it (R191). -/
theorem runInFlight_fetched (h : Resolves s.params.registry i d) :
    runInFlight (loadOps d (fetched s i d d.length)) = .run i (s.decoded i d) := by
  obtain ⟨hlen, -⟩ := h.operandBytes_length
  rw [runInFlight, loadOps_fetched h, h.inFlight_eq (u := s.decoded i d) rfl rfl rfl hlen]

/-- The last opcode byte, when there is no operand byte, is followed by the instruction in its cycle (R167). -/
theorem operandFetch_fetched_whole (h : Resolves s.params.registry i d) (h0 : d.length = 0) :
    operandFetch (fetched s i d 0) = .run i (s.decoded i d) := by
  rw [operandFetch_complete (s := fetched s i d 0) rfl (by omega) (by rw [h0]; rfl), ← runInFlight_fetched h, h0]

/-- The last opcode byte, when there are operand bytes, ends its cycle (R165). -/
theorem operandFetch_fetched_waits (h : Resolves s.params.registry i d) (hpos : 0 < d.length) :
    operandFetch (fetched s i d 0) = .done (endTick (fetched s i d 0)) :=
  operandFetch_waits rfl h.operandBytes_length.2 rfl hpos

/-- The cycle of an operand byte that is not the last. -/
theorem advance_fetched_more (h : Resolves s.params.registry i d) (hb : Stands s (encode i)) (hj : j + 1 < d.length)
    (hc : v.cycleReady) (hv : Tick.cycleStart v = Tick.cycleStart (fetched s i d j)) :
    advance v = .done (endTick (fetched s i d (j + 1))) := by
  have hidx : v.operandIdx = j := congrArg State.operandIdx hv
  rw [advance_operandMore hc (congrArg State.state hv) (congrArg State.desc hv) h.operandBytes_length.2 (by omega),
    operandLatched_eq_fetched h hb (by omega) hv]

/-- The cycle of the last operand byte runs the instruction (R167). -/
theorem advance_fetched_last (h : Resolves s.params.registry i d) (hb : Stands s (encode i)) (hj : j + 1 = d.length)
    (hc : v.cycleReady) (hv : Tick.cycleStart v = Tick.cycleStart (fetched s i d j)) :
    advance v = .run i (s.decoded i d) := by
  have hidx : v.operandIdx = j := congrArg State.operandIdx hv
  rw [advance_operandLast hc (congrArg State.state hv) (congrArg State.desc hv) h.operandBytes_length.2 (by omega),
    operandLatched_eq_fetched h hb (by omega) hv, hj, runInFlight_fetched h]

end

/-! ## Runs by machine cycles -/

section
variable {s v t u : State} {i : Instr} {d : Descriptor}

/-- The state at the tick that begins the next machine cycle. -/
def atThreshold (s : State) : State := { s with subCycle := ticksPerCycle s - 1 }

theorem atThreshold_cycleReady (h : s.cycleEnded) : (atThreshold s).cycleReady := by
  obtain ⟨hi, hf, -⟩ := h
  exact ⟨hi, hf, show ticksPerCycle s ≤ ticksPerCycle s - 1 + 1 by omega⟩

/-- The ticks up to a machine cycle, and a cycle that is over by itself. -/
theorem runSteps_done {n T : Nat} (h : s.cycleEnded) (hT : ticksPerCycle s = T) (ha : advance (atThreshold s) = .done t) :
    runSteps ((n + 1) * T) s = runSteps (n * T) t :=
  DispatchRun.runSteps_cycle h hT ((Run.advance_cycleReady (atThreshold_cycleReady h)).symm.trans ha)

/-- The ticks up to a machine cycle, and a cycle in which an instruction runs. -/
theorem runSteps_run (h : s.cycleEnded) (ha : advance (atThreshold s) = .run i u) :
    runSteps (ticksPerCycle s) s = finishTick (exec i u) := by
  have hpos := Ops.ticksPerCycle_pos s
  have hcount : runSteps (ticksPerCycle s - 1) s = .next (atThreshold s) :=
    Divider.ticksBetweenCyclesOnlyCount s _ h (by omega)
  obtain ⟨t, ht⟩ := StateOps.stepAlwaysAnswersNext (atThreshold s)
  rw [show ticksPerCycle s = (ticksPerCycle s - 1) + 1 by omega, Run.runSteps_add _ _ hcount, Run.runSteps_one ht, ← ht,
    Tick.step_run ha]

/-- The machine cycles of the operand bytes still to come. -/
theorem runSteps_fetched (h : Resolves s.params.registry i d) (hb : Stands s (encode i)) (he : s.cycleEnded) (m j : Nat)
    (hj : j + (m + 1) = d.length) :
    runSteps ((m + 1) * ticksPerCycle s) (endTick (fetched s i d j)) = finishTick (exec i (s.decoded i d)) := by
  have ⟨hi, hf, _⟩ := he
  have hended : ∀ j, (endTick (fetched s i d j)).cycleEnded := fun _ => ⟨hi, hf, rfl⟩
  have hready := fun j => atThreshold_cycleReady (hended j)
  induction m generalizing j with
  | zero =>
    rw [Nat.zero_add, Nat.one_mul]
    exact runSteps_run (hended j) (advance_fetched_last h hb hj (hready j) rfl)
  | succ m ih =>
    rw [runSteps_done (T := ticksPerCycle s) (hended j) rfl (advance_fetched_more h hb (by omega) (hready j) rfl)]
    exact ih (j + 1) (by omega)

/-- The machine cycles from the last opcode byte on. -/
theorem runSteps_lastOpcode (h : Resolves s.params.registry i d) (hb : Stands s (encode i)) (he : s.cycleEnded)
    (hv : v.cycleEnded) (hT : ticksPerCycle v = ticksPerCycle s)
    (ha : advance (atThreshold v) = operandFetch (fetched s i d 0)) :
    runSteps ((d.length + 1) * ticksPerCycle s) v = finishTick (exec i (s.decoded i d)) := by
  cases hlen : d.length with
  | zero =>
    rw [Nat.zero_add, Nat.one_mul, ← hT]
    exact runSteps_run hv (ha.trans (operandFetch_fetched_whole h hlen))
  | succ m =>
    rw [runSteps_done hv hT (ha.trans (operandFetch_fetched_waits h (by omega)))]
    exact runSteps_fetched h hb he m 0 (by omega)

/-- The bytes fetched from the flat array stand, where the bus maps nothing (R81). -/
theorem stands_of_fetchedBytes {bytes rest : List Byte} {n : Nat} (hbytes : bytes ++ rest = s.fetchedBytes n)
    (harray : s.fetchesFromArray bytes.length) : Stands s bytes := by
  intro k b hk
  obtain ⟨hlt, -⟩ := List.getElem?_eq_some_iff.mp hk
  obtain ⟨hcontrol, hdevice⟩ := harray k hlt
  have hfetched : (s.fetchedBytes n)[k]? = some b := by rw [← hbytes, List.getElem?_append_left hlt, hk]
  obtain ⟨_, hread⟩ := List.getElem?_eq_some_iff.mp hfetched
  rw [Ops.busRead_array hcontrol hdevice, ← hread]
  simp [State.fetchedBytes]

end

/-- Settles O38: the cycles of the opcode bytes, one or two, and then those of the operand bytes. -/
theorem decodedInstructionRuns : Obligations.DecodedInstructionRuns := by
  intro s i rest d he hs hm hdec harray hlegal hd
  obtain ⟨hwf, hbytes⟩ := RoundTrip.encodeOfDecode _ _ _ _ hdec
  have h : Resolves s.params.registry i d := ⟨hlegal, hwf, hd⟩
  have hb : Stands s (encode i) := stands_of_fetchedBytes hbytes harray
  have hready := atThreshold_cycleReady he
  have ⟨hi, hf, _⟩ := he
  rw [Nat.mul_comm, h.encode_length, Nat.add_comm]
  obtain ⟨hn, hl, -, hops⟩ | ⟨hn, hl, hops⟩ := h.cases
  · rw [hops]
    exact runSteps_lastOpcode h hb he he rfl (advance_first (s := atThreshold s) hb hready hs hm hn hl)
  · have hread : readByte s s.regs.pc = (opcodeBytes i).1 := congrArg Prod.fst hb.first
    have hfirst : advance (atThreshold s) = .done (endTick (firstLatched s .extOpcode none)) :=
      advance_firstOfTwo hready hs hm ((congrArg needsSecond hread).trans hn)
    have hended : (endTick (firstLatched s .extOpcode none)).cycleEnded := ⟨hi, hf, rfl⟩
    rw [hops, List.length_cons, List.length_singleton, ← Nat.add_assoc, runSteps_done he rfl hfirst]
    exact runSteps_lastOpcode h hb he hended rfl
      (advance_second hwf hb (atThreshold_cycleReady hended) (cycleStart_firstLatched hb) hn hl)

/-! ## The state prepared for a word (log entry 25) -/

section
variable {s : State} {i : Instr} {d : Descriptor} {rest : List Byte}

/-- The state with the bytes stored at its program counter, an interrupt controller, and nothing that holds up a tick. -/
def stored (s : State) (bytes : List Byte) (ic : IntCtrl) : State :=
  { s with
    inputs := [], fault := none, haltBug := false,
    bus := { s.bus with mem := storeBytes s.regs.pc bytes s.bus.mem }, ic := ic }

/-- The controller with a request masked that would preempt (R133). -/
def maskedIc (ic : IntCtrl) : IntCtrl := { ic with ime := ic.ime && !IntCtrl.requested ic }

theorem maskedIc_masked (ic : IntCtrl) :
    (maskedIc ic).ime = false ∨ (maskedIc ic).ifl &&& (maskedIc ic).ie &&& 0x1F = 0 := by
  cases hr : IntCtrl.requested ic with
  | true => exact .inl (by simp [maskedIc, hr])
  | false => exact .inr (not_not.mp fun h => Bool.false_ne_true (hr.symm.trans ((Ops.requested_iff_masks ic).mpr h)))

/-- On the reference bus the bytes stored stand, and so do those they begin with. -/
theorem stands_stored {bytes : List Byte} (hplain : s.plainBus) (hmem : Memory.wf s.bus.mem = true)
    (hlen : (bytes ++ rest).length ≤ 2 ^ 16) (ic : IntCtrl) : Stands (stored s (bytes ++ rest) ic) bytes := by
  intro k b hk
  obtain ⟨hflag, henable, hspeed, hwindows⟩ := hplain
  obtain ⟨hlt, rfl⟩ := List.getElem?_eq_some_iff.mp hk
  have hlt' : k < (bytes ++ rest).length := by rw [List.length_append]; omega
  have hread := Memory.read_storeBytes (a := s.regs.pc) (bytes ++ rest) (Bool.and_eq_true _ _ ▸ hmem).1 hlen k hlt'
  rw [List.getElem_append_left hlt] at hread
  rw [← hread]
  exact Ops.busRead_plain (s := stored s (bytes ++ rest) ic) hflag henable hspeed hwindows _

/-- The next tick of a prepared state begins a machine cycle. -/
theorem prepareFetch_cycleReady (bytes : List Byte) (s : State) : (prepareFetch bytes s).cycleReady := by
  have hpos := Ops.ticksPerCycle_pos s
  have hcount : ticksPerCycle s ≤ ticksPerCycle s - 1 + 1 := by omega
  unfold prepareFetch
  repeat' split
  all_goals exact ⟨rfl, rfl, hcount⟩

@[simp] theorem atOpcode_regs (bytes : List Byte) (s : State) : (atOpcode bytes s).regs = s.regs := rfl

/-- A word whose first byte ends its instruction is prepared in OPCODE. -/
theorem prepareFetch_opcode (hwf : i.wellFormed s.params.registry = true) (hn : needsSecond (opcodeBytes i).1 = false)
    (h : s.params.registry.lookup (opcodeBytes i).1 = none ∨
      ∃ d, s.params.registry.lookup (opcodeBytes i).1 = some d ∧ d.length = 0) :
    prepareFetch (encode i ++ rest) s = atOpcode (encode i ++ rest) s := by
  have henc : encode i = (opcodeBytes i).1 :: operandBytes i := by rw [encode_eq_append hwf, opcodeList, hn]; rfl
  rw [henc]
  obtain hl | ⟨d, hl, h0⟩ := h
  · simp [prepareFetch, decodeFirst, hn, hl]
  · simp [prepareFetch, decodeFirst, hn, hl, h0]

/-- A word whose second byte ends its instruction is prepared in EXT_OPCODE, as the cycle of its first byte leaves it. -/
theorem cycleStart_prepareFetch_extOpcode (hwf : i.wellFormed s.params.registry = true)
    (hn : needsSecond (opcodeBytes i).1 = true)
    (h : s.params.registry.lookupExtended (opcodeBytes i).2 = none ∨
      ∃ d, s.params.registry.lookupExtended (opcodeBytes i).2 = some d ∧ d.length = 0) :
    Tick.cycleStart (prepareFetch (encode i ++ rest) s) = awaitsSecond (stored s (encode i ++ rest) s.ic) i := by
  have henc : encode i = (opcodeBytes i).1 :: (opcodeBytes i).2 :: operandBytes i := by
    rw [encode_eq_append hwf, opcodeList, hn]; rfl
  have hprepared : prepareFetch (encode i ++ rest) s = { atOpcode (encode i ++ rest) s with
      op1 := (opcodeBytes i).1, state := .extOpcode, ic := s.ic, regs := { s.regs with pc := s.regs.pc + 1 } } := by
    rw [henc]
    obtain hl | ⟨d, hl, h0⟩ := h
    · simp [prepareFetch, decodeFirst, hn, hl]
    · simp [prepareFetch, decodeFirst, hn, hl, h0]
  rw [hprepared]
  rfl

/-- A word with operand bytes is prepared in OPERAND, before the last of them. -/
theorem prepareFetch_operand (h : Resolves s.params.registry i d) (hpos : 0 < d.length) :
    prepareFetch (encode i ++ rest) s = { beforeLastOperand (opcodeList i).length d (encode i ++ rest)
        (atOpcode (encode i ++ rest) s) with op1 := (opcodeBytes i).1, op2 := (opcodeBytes i).2, ic := s.ic } := by
  have hfits : ¬ (d.length = 0 ∨ d.length > Config.operandSlots) := by
    have := h.operandBytes_length.2
    show ¬ (d.length = 0 ∨ d.length > 2)
    omega
  obtain ⟨hn, hl, hop2, hops⟩ | ⟨hn, hl, hops⟩ := h.cases
  · rw [encode_eq_append h.wf, hops, hop2]
    simp [prepareFetch, decodeFirst, hn, hl, hfits]
    rfl
  · rw [encode_eq_append h.wf, hops]
    simp [prepareFetch, decodeFirst, hn, hl, hfits]

/-- The state prepared before the last operand byte is the one the cycles before it leave. -/
theorem cycleStart_prepareFetch_operand (h : Resolves s.params.registry i d) (hpos : 0 < d.length) :
    Tick.cycleStart (prepareFetch (encode i ++ rest) s) =
      Tick.cycleStart (fetched (stored s (encode i ++ rest) s.ic) i d (d.length - 1)) := by
  obtain ⟨hlen, -⟩ := h.operandBytes_length
  have hoperands : ((encode i ++ rest).drop (opcodeList i).length).take (d.length - 1) =
      (operandBytes i).take (d.length - 1) := by
    rw [encode_eq_append h.wf, List.append_assoc, List.drop_left, List.take_append_of_le_length (by omega)]
  rw [prepareFetch_operand h hpos, beforeLastOperand, hoperands]
  rfl

/-! ## The step of a prepared state -/

/-- The controller a word is prepared with: masked for an instruction of one byte. -/
def preparedIc (i : Instr) (ic : IntCtrl) : IntCtrl := if (encode i).length = 1 then maskedIc ic else ic

/-- A legal word's next step is its instruction, from the state its decode leaves. -/
theorem step_prepareFetch_legal (h : Resolves s.params.registry i d)
    (hb : ∀ ic, Stands (stored s (encode i ++ rest) ic) (encode i)) :
    step (prepareFetch (encode i ++ rest) s) =
      finishTick (exec i ((stored s (encode i ++ rest) (preparedIc i s.ic)).decoded i d)) := by
  have hready := prepareFetch_cycleReady (encode i ++ rest) s
  have hlen := h.encode_length
  by_cases hpos : 0 < d.length
  · have hic : preparedIc i s.ic = s.ic := if_neg (by have := opcodeList_length_pos i; omega)
    rw [hic]
    exact Tick.step_run (advance_fetched_last (s := stored s (encode i ++ rest) s.ic) h (hb s.ic) (by omega) hready
      (cycleStart_prepareFetch_operand h hpos))
  · have h0 : d.length = 0 := by omega
    obtain ⟨hn, hl, -, hops⟩ | ⟨hn, hl, hops⟩ := h.cases
    · have hic : preparedIc i s.ic = maskedIc s.ic := if_pos (by rw [hlen, h0, hops]; rfl)
      rw [prepareFetch_opcode h.wf hn (.inr ⟨d, hl, h0⟩)] at hready ⊢
      rw [hic]
      have hfetch := advance_first (s := atOpcode (encode i ++ rest) s) (hb (maskedIc s.ic)) hready rfl
        (maskedIc_masked s.ic) hn hl
      exact Tick.step_run (hfetch.trans (operandFetch_fetched_whole h h0))
    · have hic : preparedIc i s.ic = s.ic := if_neg (by rw [hlen, h0, hops]; simp)
      have hv := cycleStart_prepareFetch_extOpcode (rest := rest) h.wf hn (.inr ⟨d, hl, h0⟩)
      rw [hic]
      have hfetch := advance_second (s := stored s (encode i ++ rest) s.ic) h.wf (hb s.ic) hready hv hn hl
      exact Tick.step_run (hfetch.trans (operandFetch_fetched_whole h h0))

/-- An illegal instruction has no descriptor, and its bytes are its opcode bytes (R112). -/
theorem illegal_resolved {r : Registry} (hillegal : isLegal i = false) (hwf : i.wellFormed r = true) :
    resolvedDescriptor r (opcodeBytes i).1 (opcodeBytes i).2 = none ∧ operandBytes i = [] := by
  cases i with
  | halt | stop | ext | plain => cases hillegal
  | illegalExt | illegalStop => exact ⟨Option.isNone_iff_eq_none.mp hwf, rfl⟩
  | illegal b =>
    simp only [Instr.wellFormed, Bool.and_eq_true, Bool.not_eq_true', Option.isNone_iff_eq_none] at hwf
    exact ⟨by simp [resolvedDescriptor, opcodeBytes, hwf.1, hwf.2], rfl⟩

/-- The illegal instruction of one opcode byte. -/
theorem eq_illegal (hillegal : isLegal i = false) (hn : needsSecond (opcodeBytes i).1 = false) :
    i = .illegal (opcodeBytes i).1 := by
  cases i with
  | halt | stop | ext | plain => cases hillegal
  | illegalExt | illegalStop => cases hn
  | illegal => rfl

/-- An unregistered second byte, latched after its first, is the illegal instruction of both (R163). -/
theorem unresolvedSecond_eq {r : Registry} {u : State} (hillegal : isLegal i = false) (hwf : i.wellFormed r = true)
    (hn : needsSecond (opcodeBytes i).1 = true) (h1 : u.op1 = (opcodeBytes i).1) (h2 : u.op2 = (opcodeBytes i).2) :
    unresolvedSecond u = .run i u := by
  rw [unresolvedSecond, h1, h2]
  cases i with
  | halt | stop | ext | plain => cases hillegal
  | illegalExt | illegalStop => rfl
  | illegal b =>
    have hn : needsSecond b = true := hn
    simp [Instr.wellFormed, hn] at hwf

/-- An illegal word's next step is its instruction, in the state that fetches the last of its opcode bytes. -/
theorem step_prepareFetch_illegal (hillegal : isLegal i = false) (hwf : i.wellFormed s.params.registry = true)
    (hb : ∀ ic, Stands (stored s (encode i ++ rest) ic) (encode i)) :
    ∃ u, step (prepareFetch (encode i ++ rest) s) = finishTick (exec i u) ∧ u.fault = none ∧
      u.op1 = (opcodeBytes i).1 ∧ u.op2 = (opcodeBytes i).2 ∧
      u.state = (if (encode i).length = 1 then .opcode else .extOpcode) ∧
      u.regs = (if (encode i).length = 1 then s.regs else { s.regs with pc := s.regs.pc + 1 }) ∧
      u.bus = (stored s (encode i ++ rest) s.ic).bus ∧ u.ic = preparedIc i s.ic := by
  obtain ⟨hnone, hoperands⟩ := illegal_resolved hillegal hwf
  have hready := prepareFetch_cycleReady (encode i ++ rest) s
  have henc : encode i = opcodeList i := by rw [encode_eq_append hwf, hoperands, List.append_nil]
  unfold resolvedDescriptor at hnone
  cases hn : needsSecond (opcodeBytes i).1 with
  | false =>
    have hone : (encode i).length = 1 := by rw [henc, opcodeList, hn]; rfl
    have hl : s.params.registry.lookup (opcodeBytes i).1 = none := by simpa [hn] using hnone
    rw [prepareFetch_opcode hwf hn (.inl hl)] at hready ⊢
    have hfirst := (hb (maskedIc s.ic)).first
    have hread : readByte (atOpcode (encode i ++ rest) s) s.regs.pc = (opcodeBytes i).1 := congrArg Prod.fst hfirst
    have hadv := advance_firstIllegal hready rfl (maskedIc_masked s.ic) ((congrArg needsSecond hread).trans hn)
      ((congrArg _ hread).trans hl)
    rw [atOpcode_regs, hread, ← eq_illegal hillegal hn] at hadv
    rw [preparedIc, if_pos hone, if_pos hone, if_pos hone]
    exact ⟨_, Tick.step_run hadv, rfl, hread, (second_eq_zero hn).symm, rfl, rfl, congrArg Prod.snd hfirst, rfl⟩
  | true =>
    have htwo : (encode i).length ≠ 1 := by rw [henc, opcodeList, hn]; simp
    have hl : s.params.registry.lookupExtended (opcodeBytes i).2 = none := by simpa [hn] using hnone
    have hv := cycleStart_prepareFetch_extOpcode (rest := rest) hwf hn (.inl hl)
    have hsecond := (hb s.ic).second hwf hn
    obtain ⟨hread, hparams⟩ := readByte_second (s := stored s (encode i ++ rest) s.ic) hwf (hb s.ic) hn hv
    have hadv := advance_secondUnresolved hready (congrArg State.state hv) (by rw [hread, hparams]; exact hl)
    have hop2 : (latchOp2 (Tick.cycleStart (prepareFetch (encode i ++ rest) s))).op2 = (opcodeBytes i).2 := hread
    rw [hv] at hadv hop2
    rw [unresolvedSecond_eq hillegal hwf hn rfl hop2] at hadv
    rw [preparedIc, if_neg htwo, if_neg htwo, if_neg htwo]
    exact ⟨_, Tick.step_run hadv, rfl, rfl, hop2, rfl, rfl, congrArg Prod.snd hsecond, rfl⟩

end

/-- Settles O39: a legal word by its last byte's cycle, an illegal one by the cycle of its last opcode byte. -/
theorem preparedStateRunsItsWord : Obligations.PreparedStateRunsItsWord := by
  intro s nbits w i rest hplain hmem hn hdec
  obtain ⟨hwf, hbytes⟩ := RoundTrip.encodeOfDecode _ _ _ _ hdec
  have hlen := Decode.tableWordBytes_length w hn
  rw [State.withFetchWord, ← hbytes]
  rw [← hbytes] at hlen
  have hb := fun ic => stands_stored hplain hmem (by omega) ic (bytes := encode i) (rest := rest)
  constructor
  · intro hlegal
    obtain ⟨d, hd⟩ : ∃ d, resolvedDescriptor s.params.registry (opcodeBytes i).1 (opcodeBytes i).2 = some d := by
      obtain ⟨d, hd, -⟩ := RoundTrip.exists_takeOperands [] (operandsFit_resolved hlegal hwf)
      exact ⟨d, hd⟩
    exact ⟨d, hd, step_prepareFetch_legal ⟨hlegal, hwf, hd⟩ hb⟩
  · intro hillegal
    exact step_prepareFetch_illegal hillegal hwf hb

end Sys2Proof.Proofs.DecodeRun
end

section
/-! PROOF. A machine cycle of PLAIN and EXT, by what its next micro-operation does: none is left (O43, O52), it waits (O48), it
runs (O44, O45), it breaks its bus contract (O51), the corruption abort ends the cycle (O49); and the sequence of register-only
micro-operations (O53). -/

namespace Sys2Proof.Proofs.Execute

open Sys2Proof.Machine
open Sys2Proof.Laws

/-! ## The ends of the sequence -/

/-- Retirement moves a deferred enable one step (R51). -/
theorem onInstructionRetired_eq (ic : IntCtrl) :
    IntCtrl.onInstructionRetired ic =
      if ic.enableDelay = some 0 then { ic with ime := true, enableDelay := none }
      else if ic.enableDelay = some 1 then { ic with enableDelay := some 0 } else ic := by
  obtain ⟨ime, ie, ifl, delay⟩ := ic
  match delay with
  | none | some 0 | some 1 => rfl

section
variable {i : Instr} {operands : List Byte} {s t u : State} {m : MicroOp} {buf : OperandBuf} {a : Word} {v : Byte}
  {regs : RegFile} {ctx : Ctx}

/-- With no micro-operation left PLAIN and EXT retire (R198). -/
theorem exec_end (hg : genericOperands i = some operands) (h : s.execIdx = s.ops.length) : exec i s = .next (retire s) := by
  rw [Tick.exec_generic hg, MicroOps.runGeneric_end h]

/-! ## The next micro-operation -/

/-- A micro-operation that leaves the tick ends the machine cycle in the state it leaves (R23). -/
theorem exec_suspended (hg : genericOperands i = some operands) (hm : s.ops[s.execIdx]? = some m)
    (hrun : runOp (OperandBuf.load s.operand operands) m s = .suspend t) : exec i s = .next t := by
  rw [Tick.exec_generic hg, MicroOps.runGeneric_cons hm, hrun]

/-- A micro-operation that declares an access waits while the bus is used (R192). -/
theorem runOp_waits (hb : s.busUsed = true) (hacc : MicroOp.accesses m = true) : runOp buf m s = .suspend s := by
  rw [runOp, if_pos (by rw [hb, hacc]; rfl)]

/-- With the display disabled the abort mode decides about an eligible micro-operation (R194). -/
theorem runOp_aborts {k : CorruptionKind} (hb : s.busUsed = false ∨ MicroOp.accesses m = false)
    (hk : MicroOp.corruption m s.regs s.ctx = some k) (hd : s.video.displayEnabled = false) :
    runOp buf m s = .suspend (corruptionAbort buf m s) := by
  rw [runOp, if_neg (by rcases hb with h | h <;> simp [h]), hk]
  exact if_neg (by simp [hd])

/-- A micro-operation that runs to its end from `s`, its bus call leaving `u`: with a forced end the cycle is over, otherwise `exec`
goes on with the bus flag (R199, R200). -/
theorem exec_ran (hg : genericOperands i = some operands) (hm : s.ops[s.execIdx]? = some m)
    (hrun : runOp (OperandBuf.load s.operand operands) m s = completeOp (OperandBuf.load s.operand operands) m s)
    (hexec : executeOp (OperandBuf.load s.operand operands) m s = .ran { u with regs := regs, ctx := ctx })
    (hops : u.ops = s.ops) (hidx : u.execIdx = s.execIdx) (hoperand : u.operand = s.operand) :
    (MicroOp.forcesCycleEnd m = true → exec i s = .next (u.afterOp m regs ctx)) ∧
    (MicroOp.forcesCycleEnd m = false →
      exec i s = exec i { u.afterOp m regs ctx with busUsed := u.busUsed || MicroOp.accesses m }) := by
  have hnext : (u.afterOp m regs ctx).execIdx = s.execIdx + 1 ∨ (u.afterOp m regs ctx).execIdx = s.ops.length := by
    rw [← hidx, ← hops]; exact Corruption.afterOp_execIdx u m regs ctx
  obtain ⟨hend, hgo⟩ := StateOps.runGeneric_completes hm hrun (Tick.performOp_afterOp hexec) hops hnext
  refine ⟨fun hforce => ?_, fun hforce => ?_⟩
  · rw [Tick.exec_generic hg, hend hforce]
  · rw [Tick.exec_generic hg, Tick.exec_generic hg, hgo hforce, ← hoperand]
    rfl

/-- A micro-operation whose bus calls break its contract ends the cycle in the state with the fault (R195). -/
theorem exec_raised (hg : genericOperands i = some operands) (hm : s.ops[s.execIdx]? = some m)
    (hrun : runOp (OperandBuf.load s.operand operands) m s = completeOp (OperandBuf.load s.operand operands) m s)
    (hexec : executeOp (OperandBuf.load s.operand operands) m s = .raised t) : exec i s = .next t :=
  exec_suspended hg hm (by rw [hrun, completeOp, performOp, hexec])

/-! ## Broken bus contracts -/

/-- A second bus call faults, whatever it is (R195). -/
theorem finishExecute_raised (h : ∀ r c, MicroOp.resume m s.regs buf s.ctx v ≠ .finish r c) :
    finishExecute buf m s v t = .raised (raiseFault .opBusContract t) := by
  unfold finishExecute
  split
  · next r c hr => exact absurd hr (h r c)
  all_goals rfl

theorem executeOp_read_undeclared (h : MicroOp.start m s.regs buf s.ctx = .read a) (hr : MicroOp.readsMemory m = false) :
    executeOp buf m s = .raised (raiseFault .opBusContract s) := by
  rw [executeOp, h]
  exact if_neg (by simp [hr])

theorem executeOp_write_undeclared (h : MicroOp.start m s.regs buf s.ctx = .write a v)
    (hw : MicroOp.writesMemory m = false) : executeOp buf m s = .raised (raiseFault .opBusContract s) := by
  rw [executeOp, h]
  exact if_neg (by simp [hw])

theorem executeOp_read_again (h : MicroOp.start m s.regs buf s.ctx = .read a) (hr : MicroOp.readsMemory m = true)
    (hres : ∀ r c, MicroOp.resume m s.regs buf s.ctx (readByte s a) ≠ .finish r c) :
    executeOp buf m s = .raised (raiseFault .opBusContract (afterRead s a)) := by
  rw [executeOp, h]
  exact (if_pos hr).trans (finishExecute_raised hres)

theorem executeOp_write_again (h : MicroOp.start m s.regs buf s.ctx = .write a v) (hw : MicroOp.writesMemory m = true)
    (hres : ∀ r c, MicroOp.resume m s.regs buf s.ctx v ≠ .finish r c) :
    executeOp buf m s = .raised (raiseFault .opBusContract (storeByte s a v)) := by
  rw [executeOp, h]
  exact (if_pos hw).trans (finishExecute_raised hres)

/-! ## The abort that runs to the end -/

/-- Under RUN_THEN_END an eligible micro-operation runs to its end, from its bus call's state `u`, without corruption (R194). -/
theorem corruptionAbort_runThenEnd (hmode : s.params.abortMode = .runThenEnd)
    (hexec : executeOp buf m s = .ran { u with regs := regs, ctx := ctx }) :
    corruptionAbort buf m s = u.afterOp m regs ctx := by
  rw [corruptionAbort, hmode, Tick.performOp_afterOp hexec]

end

/-! ## The obligations -/

/-- Settles O43: the walk retires, and the deferred enable moves as R51 says. -/
theorem exhaustedSequenceRetires : Obligations.ExhaustedSequenceRetires := by
  intro i operands s hg h
  rw [exec_end hg h, retire, onInstructionRetired_eq]

/-- Settles O52: the protocol check comes before the walk. -/
theorem indexPastTheSequenceFaults : Obligations.IndexPastTheSequenceFaults := by
  intro i operands s hg h
  rw [Tick.exec_generic hg, MicroOps.runGeneric_past h]
  rfl

/-- Settles O48: the conflict check comes before everything else of the iteration. -/
theorem busConflictWaits : Obligations.BusConflictWaits :=
  fun _ _ _ _ hg hm hb hacc => exec_suspended hg hm (runOp_waits hb hacc)

/-- Settles O44: the micro-operation runs to its end without a bus call. -/
theorem opWithoutBusCallRuns : Obligations.OpWithoutBusCallRuns := by
  intro i operands s m regs ctx hg hm hb hcorr hstart
  exact exec_ran hg hm (MicroOps.runOp_free hb hcorr) (MicroOps.executeOp_finish hstart) rfl rfl rfl

/-- Settles O45: the read is the one bus call of a micro-operation that keeps its contract. -/
theorem readingOpRuns : Obligations.ReadingOpRuns := by
  intro i operands s m a regs ctx hg hm hb hcorr hstart hr hres u
  obtain ⟨hend, hgo⟩ := exec_ran hg hm (MicroOps.runOp_free (.inl hb) hcorr) (MicroOps.executeOp_read hstart hr hres)
    rfl rfl rfl
  refine ⟨hend, fun hforce => ?_, Ops.busRead_mem s a⟩
  rw [hgo hforce, Cycle.accesses_of_reads hr, Bool.or_true]
  rfl

/-- Settles O51: each of the four ways to break the contract raises the fault in the state its allowed bus call leaves. -/
theorem brokenBusContractFaults : Obligations.BrokenBusContractFaults := by
  intro i operands s m hg hm hb hcorr buf
  have hrun : runOp buf m s = completeOp buf m s := MicroOps.runOp_free hb hcorr
  exact ⟨fun a hstart hr => exec_raised hg hm hrun (executeOp_read_undeclared hstart hr),
    fun a v hstart hw => exec_raised hg hm hrun (executeOp_write_undeclared hstart hw),
    fun a hstart hr hres => exec_raised hg hm hrun (executeOp_read_again hstart hr hres),
    fun a v hstart hw hres => exec_raised hg hm hrun (executeOp_write_again hstart hw hres)⟩

/-- Settles O49: the cycle ends in what the abort mode leaves; RUN_THEN_END runs the micro-operation by the law of its kind of
bus call. -/
theorem corruptionAbortEndsTheCycle : Obligations.CorruptionAbortEndsTheCycle := by
  intro i operands s m k hg hm hb hk hd buf
  have hexec : exec i s = .next (corruptionAbort buf m s) := exec_suspended hg hm (runOp_aborts hb hk hd)
  refine ⟨fun hmode => ?_, fun hmode => ?_, fun hmode regs ctx => ⟨fun hstart => ?_, fun a hstart hr hres => ?_,
    fun a v hstart hw hres => ?_⟩⟩
  · rw [hexec, corruptionAbort, hmode]
  · rw [hexec, corruptionAbort, hmode]
  · rw [hexec, corruptionAbort_runThenEnd hmode (MicroOps.executeOp_finish hstart)]
  · rw [hexec, corruptionAbort_runThenEnd hmode (MicroOps.executeOp_read hstart hr hres)]
    rfl
  · rw [hexec, corruptionAbort_runThenEnd hmode (MicroOps.executeOp_write hstart hw hres)]
    rfl

/-! ## Register-only sequences -/

/-- What a register-only sequence leaves as it was. -/
def untouched (s : State) := (s.ops, s.bus, s.busTrace, s.speed, s.video, s.fault)

/-- A register-only micro-operation leaves the rest of the cycle to `exec`, from a state further on in the sequence (R199). -/
theorem exec_registerOp {i : Instr} {operands : List Byte} {s : State} {m : MicroOp}
    (hg : genericOperands i = some operands) (hm : s.ops[s.execIdx]? = some m) (h : registerOp m) :
    ∃ t, exec i s = exec i t ∧ untouched t = untouched s ∧
      (t.execIdx = s.execIdx + 1 ∨ t.execIdx = s.ops.length) := by
  obtain ⟨hacc, hforce, h⟩ := h
  obtain ⟨hcorr, regs, ctx, hstart⟩ := h s.regs (OperandBuf.load s.operand operands) s.ctx
  exact ⟨_, (opWithoutBusCallRuns i operands s m regs ctx hg hm (.inr hacc) (.inl hcorr) hstart).2 hforce, rfl,
    Corruption.afterOp_execIdx s m regs ctx⟩

/-- With only register-only micro-operations left `exec` answers the retirement of a state at the end of the sequence. -/
theorem exec_registerOps {i : Instr} {operands : List Byte} {s : State} (hg : genericOperands i = some operands)
    (hle : s.execIdx ≤ s.ops.length) (h : ∀ m ∈ s.ops.drop s.execIdx, registerOp m) :
    ∃ t, exec i s = .next (retire t) ∧ untouched t = untouched s ∧ t.execIdx = s.ops.length := by
  induction hn : s.ops.length - s.execIdx using Nat.strongRecOn generalizing s with
  | ind left ih =>
    rcases Nat.eq_or_lt_of_le hle with hend | hlt
    · exact ⟨s, exec_end hg hend, rfl, hend⟩
    · rw [List.drop_eq_getElem_cons hlt] at h
      obtain ⟨t, hexec, hsame, hidx⟩ :=
        exec_registerOp hg (List.getElem?_eq_getElem hlt) (h _ (List.mem_cons_self ..))
      have hops : t.ops = s.ops := congrArg Prod.fst hsame
      have hrest : ∀ m ∈ t.ops.drop t.execIdx, registerOp m := by
        rw [hops]
        rcases hidx with e | e <;> rw [e]
        · exact fun m hm => h m (List.mem_cons_of_mem _ hm)
        · simp
      obtain ⟨u, hu, hsame', hidx'⟩ :=
        ih (t.ops.length - t.execIdx) (by rw [hops]; omega) (by rw [hops]; omega) hrest rfl
      exact ⟨u, hexec.trans hu, hsame'.trans hsame, by rw [hidx', hops]⟩

/-- Settles O53: the sequence runs to its end and retires, and retirement leaves the bus, the speed and the video state. -/
theorem registerSequenceRetiresInOneCycle : Obligations.RegisterSequenceRetiresInOneCycle := by
  intro i operands s hg hle h
  obtain ⟨t, hexec, hsame, hidx⟩ := exec_registerOps hg hle h
  simp only [untouched, Prod.mk.injEq] at hsame
  obtain ⟨-, hbus, htrace, hspeed, hvideo, hfault⟩ := hsame
  exact ⟨retire t, hexec, rfl, rfl, hidx, hbus, htrace, hspeed, hvideo, hfault⟩

end Sys2Proof.Proofs.Execute
end

section
/-! PROOF. Memory along a sequence that declares no write: what changes is the video subsystem's, and only by an injected
corruption (O55). -/

namespace Sys2Proof.Proofs.NonStoring

open Sys2Proof.Machine
open Sys2Proof.Laws

/-- From `s` to `t` memory changes by writes of corruptions alone: bytes of memory the video subsystem owns, and none with no
corruption injected (C10). -/
def CorruptsOnly (s t : State) : Prop :=
  t.params = s.params ∧ ∃ injected writes,
    t.video.injected = s.video.injected ++ injected ∧ t.bus.mem = Memory.writeAll writes s.bus.mem ∧
    (∀ w ∈ writes, showsVideo s.params w.1 = true) ∧ (injected = [] → writes = [])

theorem corruptsOnly_of_eq {s t : State} (hparams : t.params = s.params) (hinj : t.video.injected = s.video.injected)
    (hmem : t.bus.mem = s.bus.mem) : CorruptsOnly s t :=
  ⟨hparams, [], [], by rw [hinj, List.append_nil], hmem, nofun, fun _ => rfl⟩

theorem CorruptsOnly.trans {s t u : State} (hst : CorruptsOnly s t) (htu : CorruptsOnly t u) : CorruptsOnly s u := by
  obtain ⟨hparams, ks, ws, hinj, hmem, hshow, hnil⟩ := hst
  obtain ⟨hparams', ks', ws', hinj', hmem', hshow', hnil'⟩ := htu
  rw [hparams] at hshow'
  refine ⟨hparams'.trans hparams, ks ++ ks', ws ++ ws', by rw [hinj', hinj, List.append_assoc], ?_, fun w hw => ?_,
    fun h => ?_⟩
  · rw [hmem', hmem, Memory.writeAll, Memory.writeAll, Memory.writeAll, List.foldl_append]
  · exact (List.mem_append.mp hw).elim (hshow w) (hshow' w)
  · obtain ⟨h1, h2⟩ := List.append_eq_nil_iff.mp h
    rw [hnil h1, hnil' h2, List.append_nil]

theorem injectCorruption_corruptsOnly (k : CorruptionKind) (s : State) : CorruptsOnly s (injectCorruption k s) :=
  ⟨rfl, [(k, s.video.lineTick)], _, rfl, rfl, fun _ hw => (List.mem_filter.mp hw).2, nofun⟩

theorem afterRead_corruptsOnly (s : State) (a : Word) : CorruptsOnly s (afterRead s a) :=
  corruptsOnly_of_eq rfl rfl (Ops.busRead_mem s a)

section
variable {buf : OperandBuf} {m : MicroOp} (hw : MicroOp.writesMemory m = false)
include hw

theorem executeOp_ran_corruptsOnly {s t : State} (h : executeOp buf m s = .ran t) :
    CorruptsOnly s (fastForward m (toggleAndAdvance m t)) := by
  rw [MicroOps.fastForward_toggle]
  obtain ⟨regs, ctx, ⟨-, rfl⟩ | ⟨a, -, -, -, rfl⟩ | ⟨a, v, -, hw', -, rfl⟩⟩ := MicroOps.executeOp_ran h
  · exact corruptsOnly_of_eq rfl rfl rfl
  · exact (afterRead_corruptsOnly s a).trans (corruptsOnly_of_eq rfl rfl rfl)
  · exact nomatch hw.symm.trans hw'

theorem executeOp_raised_corruptsOnly {s t : State} (h : executeOp buf m s = .raised t) : CorruptsOnly s t := by
  obtain rfl | ⟨a, -, rfl⟩ | ⟨a, v, -, hw', rfl⟩ := MicroOps.executeOp_raised h
  · exact corruptsOnly_of_eq rfl rfl rfl
  · exact (afterRead_corruptsOnly s a).trans (corruptsOnly_of_eq rfl rfl rfl)
  · exact nomatch hw.symm.trans hw'

theorem runOp_corruptsOnly (s : State) :
    (∀ t, runOp buf m s = .suspend t → CorruptsOnly s t) ∧ (∀ t, runOp buf m s = .again t → CorruptsOnly s t) :=
  MicroOps.runOp_keeps (P := CorruptsOnly)
    (refl := corruptsOnly_of_eq rfl rfl rfl)
    (trans := fun _ _ => CorruptsOnly.trans)
    (inject := fun k => injectCorruption_corruptsOnly k s)
    (ran := fun _ _ => executeOp_ran_corruptsOnly hw)
    (raised := fun _ _ => executeOp_raised_corruptsOnly hw)
    (skip := corruptsOnly_of_eq rfl rfl rfl)
    (flag := fun _ _ h => h.trans (corruptsOnly_of_eq rfl rfl rfl))

end

theorem runGeneric_corruptsOnly (buf : OperandBuf) {s : State}
    (h : ∀ m ∈ s.ops.drop s.execIdx, MicroOp.writesMemory m = false) : CorruptsOnly s (runGeneric buf s) := by
  unfold runGeneric
  split
  · exact corruptsOnly_of_eq rfl rfl rfl
  · exact MicroOps.walk_keeps (P := CorruptsOnly)
      (trans := fun _ _ _ => CorruptsOnly.trans)
      (retired := fun _ => corruptsOnly_of_eq rfl rfl rfl)
      _
      (one := fun m hm s => runOp_corruptsOnly (h m hm) s)
      s

/-- Settles O55: the writes are those of corruptions, and there are none, or none of them reaches the byte. -/
theorem nonStoringSequenceLeavesMemory : Obligations.NonStoringSequenceLeavesMemory := by
  intro i operands s t hg ht hops a hspared
  rw [Tick.exec_generic hg] at ht
  cases ht
  obtain ⟨-, injected, writes, hinj, hmem, hshow, hnil⟩ :=
    runGeneric_corruptsOnly (OperandBuf.load s.operand operands) hops
  rw [hmem]
  rcases hspared with hsame | ⟨hwf, hnotVideo⟩
  · rw [hnil (List.append_right_eq_self.mp (hinj.symm.trans hsame))]
    rfl
  · refine Memory.read_writeAll_other writes hwf fun w hw e => ?_
    have hvideo := hshow w hw
    rw [e, hnotVideo] at hvideo
    cases hvideo

end Sys2Proof.Proofs.NonStoring
end

section
/-! PROOF. The micro-operations of the fixture registry (O56): their operators, and a rule for each way they run. -/

namespace Sys2Proof.Proofs.Fixture

open Sys2Proof.Machine
open Sys2Proof.Laws

/-! ## The operators of the micro-operations -/

/-- Sign extension is the byte read as a signed number (R21, R25). -/
theorem signExtend_eq_toInt (b : Byte) : signExtend b = b.toInt := by
  rw [signExtend, bitTest, BitVec.toInt_eq_msb_cond, BitVec.msb_eq_getLsbD_last]
  rfl

/-- Adding a displacement is adding the byte extended by its sign, modulo 2^16 (R10). -/
theorem displace_signExtend (a : Word) (b : Byte) : displace a (signExtend b) = a + b.signExtend 16 := by
  rw [displace, signExtend_eq_toInt, BitVec.ofInt_add, BitVec.ofInt_natCast, BitVec.ofNat_toNat, BitVec.setWidth_eq,
    BitVec.signExtend]

/-- Exchanging the halves of a byte is a rotation by four places. -/
theorem swap_eq_rotateLeft (b : Byte) : (b <<< 4) ||| (b >>> 4) = b.rotateLeft 4 := rfl

/-- Outside 0xFE00 to 0xFEFF INC HL corrupts nothing. -/
theorem corruption_incHL {regs : RegFile} {ctx : Ctx} (h : regs.hl < 0xFE00 ∨ 0xFEFF < regs.hl) :
    MicroOp.corruption .incHL regs ctx = none := by
  refine if_neg fun ⟨hlow, hhigh⟩ => ?_
  rcases h with h | h <;> bv_omega

/-! ## The fixture's micro-operations -/

section
variable {i : Instr} {operands : List Byte} {s : State} {m : MicroOp} {regs : RegFile}

/-- A micro-operation without a bus call, a corruption check or a forced end, met with the bus free, leaves the bus free. -/
theorem exec_register (hg : genericOperands i = some operands) (hb : s.busUsed = false) (hm : s.ops[s.execIdx]? = some m)
    (hacc : MicroOp.accesses m = false) (hforce : MicroOp.forcesCycleEnd m = false)
    (hcorr : MicroOp.corruption m s.regs s.ctx = none)
    (hstart : MicroOp.start m s.regs (OperandBuf.load s.operand operands) s.ctx = .finish regs s.ctx) :
    exec i s = exec i (s.afterOp m regs s.ctx) := by
  rw [(Execute.opWithoutBusCallRuns i operands s m regs s.ctx hg hm (.inl hb) (.inl hcorr) hstart).2 hforce, hb, hacc,
    Bool.or_false, ← hb]
  rfl

/-- A micro-operation without a bus call or a corruption to apply, met with the bus free, ends the cycle where it forces the end
(R200). -/
theorem exec_forcedEnd (hg : genericOperands i = some operands) (hb : s.busUsed = false) (hm : s.ops[s.execIdx]? = some m)
    (hforce : MicroOp.forcesCycleEnd m = true) (hcorr : MicroOp.corruption m s.regs s.ctx = none)
    (hstart : MicroOp.start m s.regs (OperandBuf.load s.operand operands) s.ctx = .finish regs s.ctx) :
    exec i s = .next (s.afterOp m regs s.ctx) :=
  (Execute.opWithoutBusCallRuns i operands s m regs s.ctx hg hm (.inl hb) (.inl hcorr) hstart).1 hforce

/-- A micro-operation that stores and computes nothing, with no corruption check, toggles or forced end, marks the bus used. -/
theorem exec_store {a : Word} {v : Byte} (hg : genericOperands i = some operands) (hb : s.busUsed = false)
    (hm : s.ops[s.execIdx]? = some m) (hw : MicroOp.writesMemory m = true) (hforce : MicroOp.forcesCycleEnd m = false)
    (hcorr : MicroOp.corruption m s.regs s.ctx = none) (htoggles : ∀ ic, MicroOp.toggles m ic = [])
    (hproceed : MicroOp.shouldProceed m s.regs = true)
    (hstart : MicroOp.start m s.regs (OperandBuf.load s.operand operands) s.ctx = .write a v)
    (hres : MicroOp.resume m s.regs (OperandBuf.load s.operand operands) s.ctx v = .finish s.regs s.ctx) :
    exec i s = exec i { storeByte s a v with busUsed := true, execIdx := s.execIdx + 1 } := by
  rw [(Execute.exec_ran hg hm (MicroOps.runOp_free (.inl hb) (.inl hcorr)) (MicroOps.executeOp_write hstart hw hres)
    rfl rfl rfl).2 hforce, Cycle.accesses_of_writes hw, Bool.or_true, State.afterOp, htoggles, if_pos hproceed]
  rfl

end

/-- A conditional advance, by the register it tests (R197). -/
theorem afterOp_proceedIfANZ (s : State) :
    s.afterOp .proceedIfANZ s.regs s.ctx =
      { s with execIdx := if s.regs.a = 0 then s.ops.length else s.execIdx + 1 } := by
  by_cases h : s.regs.a = 0 <;> simp [State.afterOp, MicroOp.shouldProceed, MicroOp.toggles, IntCtrl.calls, h]

/-- A deferred enable is requested where none is under way (R50). -/
theorem requestEnableDeferred_eq (ic : IntCtrl) :
    IntCtrl.requestEnableDeferred ic =
      if ic.enableDelay = none then { ic with enableDelay := some 1 } else ic := by
  obtain ⟨ime, ie, ifl, delay⟩ := ic
  cases delay <;> rfl

/-- Settles O56: each micro-operation runs by the rule for its kind, whose premises are its capabilities in the fixture's table, and
its operators are those of the table. -/
theorem fixtureOperationsCompute : Obligations.FixtureOperationsCompute := by
  intro i operands s hg hb buf address
  refine ⟨fun hm => ?ldAImm, fun hm => ?decA, fun hm => ?swapA, fun hm => ?ldAAbs, fun hm => ?stAAbs, fun hm => ?stAHL,
    fun hm h => ?incHL, fun hm => ?addPC, fun hm => ?proceedIfANZ, fun hm => ?eiOp, fun hm => ?diOp⟩
  case ldAImm => exact exec_register hg hb hm rfl rfl rfl rfl
  case decA => exact exec_register hg hb hm rfl rfl rfl rfl
  case swapA =>
    rw [← swap_eq_rotateLeft]
    exact exec_register hg hb hm rfl rfl rfl rfl
  case ldAAbs =>
    exact (Execute.readingOpRuns i operands s _ address _ _ hg hm hb (.inl rfl) rfl rfl rfl).2.1 rfl
  case stAAbs => exact exec_store hg hb hm rfl rfl rfl (fun _ => rfl) rfl rfl rfl
  case stAHL => exact exec_store hg hb hm rfl rfl rfl (fun _ => rfl) rfl rfl rfl
  case incHL =>
    exact exec_forcedEnd hg hb hm rfl (corruption_incHL h) rfl
  case addPC =>
    rw [← displace_signExtend]
    exact exec_forcedEnd hg hb hm rfl rfl rfl
  case proceedIfANZ =>
    rw [← afterOp_proceedIfANZ]
    exact exec_register hg hb hm rfl rfl rfl rfl
  case eiOp =>
    rw [← requestEnableDeferred_eq]
    exact exec_register hg hb hm rfl rfl rfl rfl
  case diOp => exact exec_register hg hb hm rfl rfl rfl rfl

end Sys2Proof.Proofs.Fixture
end

section
/-! PROOF. The livelock of RETRY while the display is off (O57): a machine cycle in RUNNING that changes nothing, repeated. -/

namespace Sys2Proof.Proofs.Livelock

open Sys2Proof.Machine
open Sys2Proof.Laws

/-- The ticks up to a machine cycle, and the cycle's step, from just after the cycle before. -/
theorem runSteps_cycleStep {n : Nat} {s t : State} (h : s.cycleEnded)
    (hstep : ∀ c, State.cycleReady { s with subCycle := c } → step { s with subCycle := c } = .next t) :
    runSteps ((n + 1) * ticksPerCycle s) s = runSteps (n * ticksPerCycle s) t := by
  obtain ⟨hi, hf, hz⟩ := h
  have hpos := Ops.ticksPerCycle_pos s
  have hcount := Divider.runSteps_counts (ticksPerCycle s - 1) hi hf (by omega)
  rw [hz, Nat.zero_add] at hcount
  have hready : State.cycleReady { s with subCycle := ticksPerCycle s - 1 } :=
    ⟨hi, hf, show ticksPerCycle s ≤ ticksPerCycle s - 1 + 1 by omega⟩
  rw [show (n + 1) * ticksPerCycle s = (ticksPerCycle s - 1) + (n * ticksPerCycle s + 1) by rw [Nat.succ_mul]; omega,
    Run.runSteps_add _ _ hcount, Run.runSteps_succ _ (hstep _ hready)]

/-- An instruction in flight that is neither STOP nor HALT is PLAIN or EXT (R191). -/
theorem genericOperands_inFlight {s : State} (hstop : s.op1 ≠ Config.stopByte) (hhalt : s.op1 ≠ Config.haltByte) :
    genericOperands (inFlight s) = some (OperandBuf.firstBytes s.operand s.operandIdx) := by
  rw [inFlight, if_neg hstop, if_neg hhalt]
  split <;> rfl

/-- A machine cycle in RUNNING whose instruction leaves the state it starts from (R191). -/
theorem step_running_idle {s : State} (hready : s.cycleReady) (hs : s.state = .running)
    (hexec : exec (inFlight s) (Tick.cycleStart s) = .next (Tick.cycleStart s)) :
    step s = .next (Tick.cycleStart s) := by
  rw [StateOps.runningCycleRunsTheInstruction s hready hs]
  exact congrArg finishTick hexec

/-- Settles O57: RETRY leaves the state a machine cycle starts from, so every cycle after it starts from there again. -/
theorem retryLivelocksWhileTheDisplayIsOff : Obligations.RetryLivelocksWhileTheDisplayIsOff := by
  intro n s m k hended hs hstop hhalt hm hk hd hmode
  induction n generalizing s with
  | zero =>
    obtain ⟨-, hf, -⟩ := hended
    rw [Nat.zero_mul]
    exact ⟨s, rfl, hs, rfl, rfl, rfl, rfl, rfl, rfl, hf⟩
  | succ n ih =>
    have hexec : exec (inFlight s) (Tick.cycleStart s) = .next (Tick.cycleStart s) :=
      (Execute.corruptionAbortEndsTheCycle _ _ (Tick.cycleStart s) m k (genericOperands_inFlight hstop hhalt) hm
        (.inl rfl) hk hd).1 hmode
    have ⟨hi, hf, _⟩ := hended
    rw [runSteps_cycleStep (t := Tick.cycleStart s) hended fun c hready => step_running_idle hready hs hexec]
    exact ih (Tick.cycleStart s) ⟨hi, hf, rfl⟩ hs hstop hhalt hm hk hd hmode

end Sys2Proof.Proofs.Livelock
end

section
/-! PROOF. HALT (O40), and the states that last with nothing to end them (R323): HALTED or STOPPED with no wake (O21), STOPPED
with interrupts masked, whatever the host does (O22), and the halt bug before a HALT (O42). Each is an invariant of repeated
steps. -/

namespace Sys2Proof.Proofs.StopHalt

open Sys2Proof.Machine
open Sys2Proof.Laws

/-! ## Repeated blocks of steps -/

/-- A property that `T` steps keep holds after any number of times `T` steps. -/
theorem runSteps_keeps {P : State → Prop} {T : Nat} (hkeep : ∀ s, P s → ∃ t, runSteps T s = .next t ∧ P t) (n : Nat)
    {s : State} (h : P s) : ∃ t, runSteps (n * T) s = .next t ∧ P t := by
  induction n generalizing s with
  | zero => exact ⟨s, by rw [Nat.zero_mul, Run.runSteps_zero], h⟩
  | succ n ih =>
    obtain ⟨t, hrun, ht⟩ := hkeep s h
    rw [Nat.succ_mul, Nat.add_comm, Run.runSteps_add T _ hrun]
    exact ih ht

/-- A property that every step keeps holds after any number of steps. -/
theorem runSteps_keeps_of_step {P : State → Prop} (hkeep : ∀ s, P s → ∃ t, step s = .next t ∧ P t) (n : Nat)
    {s : State} (h : P s) : ∃ t, runSteps n s = .next t ∧ P t := by
  have hone : ∀ s, P s → ∃ t, runSteps 1 s = .next t ∧ P t := fun s hs =>
    let ⟨t, hstep, ht⟩ := hkeep s hs
    ⟨t, Run.runSteps_one hstep, ht⟩
  rw [← Nat.mul_one n]
  exact runSteps_keeps hone n h

/-! ## HALT -/

/-- The halt-bug condition as R235 writes it (R48). -/
theorem haltBugCondition_iff (ic : IntCtrl) :
    IntCtrl.haltBugCondition ic = true ↔ ic.ime = false ∧ ic.ifl &&& ic.ie &&& 0x1F ≠ 0 := by
  rw [IntCtrl.haltBugCondition, Bool.and_eq_true, Bool.not_eq_true', Ops.requested_iff_masks]

/-- Settles O40: the intercept is the choice by the halt-bug condition. -/
theorem haltHaltsOrTakesTheHaltBug : Obligations.HaltHaltsOrTakesTheHaltBug := by
  intro operands s
  show Host.Outcome.next (haltIntercept s) = _
  simp only [haltIntercept, haltBugCondition_iff]

/-! ## A tick with nothing to wake the machine -/

/-- HALTED with no request, or STOPPED with `ime` off or no request (R232, R233, R238). -/
def Asleep (s : State) : Prop :=
  (s.state = .halted ∧ s.ic.ifl &&& s.ic.ie &&& 0x1F = 0) ∨
    (s.state = .stopped ∧ (s.ic.ime = false ∨ s.ic.ifl &&& s.ic.ie &&& 0x1F = 0))

/-- Every field is as it was but the counter and the record of the last machine cycle's bus access, which is kept or cleared. -/
def OnlyCounted (s t : State) : Prop :=
  ∃ (count : Nat) (used : Bool) (trace : List BusAccess),
    t = { s with subCycle := count, busUsed := used, busTrace := trace } ∧
    (used = s.busUsed ∧ trace = s.busTrace ∨ used = false ∧ trace = [])

theorem OnlyCounted.refl (s : State) : OnlyCounted s s := ⟨_, _, _, rfl, .inl ⟨rfl, rfl⟩⟩

theorem OnlyCounted.trans {s t u : State} (hst : OnlyCounted s t) (htu : OnlyCounted t u) : OnlyCounted s u := by
  obtain ⟨_, _, _, rfl, hbus⟩ := hst
  obtain ⟨count, used, trace, rfl, ⟨rfl, rfl⟩ | hclear⟩ := htu
  · exact ⟨count, _, _, rfl, hbus⟩
  · exact ⟨count, used, trace, rfl, .inr hclear⟩

/-- A machine that only counted is as much asleep as before. -/
theorem Asleep.of_onlyCounted {s t : State} (h : Asleep s) (hst : OnlyCounted s t) : Asleep t := by
  obtain ⟨_, _, _, rfl, -⟩ := hst
  exact h

/-- Nothing preempts a sleeping machine (R133). -/
theorem Asleep.masked {s : State} (h : Asleep s) : s.ic.ime = false ∨ s.ic.ifl &&& s.ic.ie &&& 0x1F = 0 :=
  h.elim (fun ⟨_, hnone⟩ => .inr hnone) And.right

/-- Its machine cycle is the quiescent return: no wake, no fetch (R135). -/
theorem Asleep.cycleBody_eq {s : State} (h : Asleep s) : cycleBody s = .done (endTick s) := by
  rcases h with ⟨hs, hnone⟩ | ⟨hs, -⟩
  · have hwake : haltWake s = s := if_neg fun ⟨_, hr⟩ => (Ops.requested_iff_masks s.ic).mp hr hnone
    rw [cycleBody, hwake, hs, if_neg (by decide), if_pos (.inl rfl)]
  · have hwake : haltWake s = s := if_neg fun ⟨hhalted, _⟩ => nomatch hs.symm.trans hhalted
    rw [cycleBody, hwake, hs, if_neg (by decide), if_pos (.inr rfl)]

/-- A tick of a sleeping machine, with a fault or without, only counts. -/
theorem Asleep.tickBody_onlyCounts {s : State} (h : Asleep s) : ∃ t, tickBody s = .done t ∧ OnlyCounted s t := by
  obtain ⟨-, ht⟩ | ⟨-, -, ht⟩ | ⟨-, -, ht⟩ := Tick.tickBody_cases s
  · exact ⟨_, ht, .refl s⟩
  · exact ⟨_, ht, _, _, _, rfl, .inl ⟨rfl, rfl⟩⟩
  · have hbegin : Asleep (beginCycle s) := h
    rw [Run.preempt_masked hbegin.masked, hbegin.cycleBody_eq] at ht
    exact ⟨_, ht, _, _, _, rfl, .inr ⟨rfl, rfl⟩⟩

/-- Settles O21: a sleeping machine is asleep after every tick. -/
theorem haltedOrStoppedWithoutWakeStays : Obligations.HaltedOrStoppedWithoutWakeStays := by
  intro n s hi _ hasleep
  have hkeep : ∀ u, OnlyCounted s u → ∃ v, step u = .next v ∧ OnlyCounted s v := by
    intro u hu
    obtain ⟨v, hv, huv⟩ := (Asleep.of_onlyCounted hasleep hu).tickBody_onlyCounts
    have hinputs : u.inputs = [] := by obtain ⟨_, _, _, rfl, -⟩ := hu; exact hi
    exact ⟨v, Tick.step_done ((Tick.advance_nil hinputs).trans hv), hu.trans huv⟩
  obtain ⟨_, hrun, count, used, trace, rfl, hbus⟩ := runSteps_keeps_of_step hkeep n (OnlyCounted.refl s)
  exact ⟨count, used, trace, hrun, hbus⟩

/-! ## STOPPED with interrupts masked -/

/-- `t` hangs in STOPPED with `ime` off and no reset to come, with what O22 keeps from `s`. -/
structure HangsFrom (s t : State) : Prop where
  stopped : t.state = .stopped
  masked  : t.ic.ime = false
  noReset : .reset ∉ t.inputs
  regs    : t.regs = s.regs
  double  : t.speed.double = s.speed.double
  trace   : t.busTrace = s.busTrace ∨ t.busTrace = []

section
variable {s t : State}

/-- With interrupts masked the tick only counts, whatever is requested (R233). -/
theorem HangsFrom.tick (h : HangsFrom s t) : ∃ u, tickBody t = .done u ∧ HangsFrom s u := by
  have hasleep : Asleep t := .inr ⟨h.stopped, .inl h.masked⟩
  obtain ⟨u, hu, _, _, _, rfl, hbus⟩ := hasleep.tickBody_onlyCounts
  refine ⟨_, hu, { h with trace := ?_ }⟩
  obtain ⟨-, htrace⟩ | ⟨-, htrace⟩ := hbus
  · exact htrace ▸ h.trace
  · exact .inr htrace

/-- No host input but reset reaches `ime` or the sequencer (R322). -/
theorem HangsFrom.input {e : HostInput} (he : e ≠ .reset) (h : HangsFrom s t) : HangsFrom s (hostInput e t) := by
  cases e with
  | reset => exact absurd rfl he
  | tick | pause | busWrite | deviceChange | raiseIrq | writeIF | writeIE | armSwitch | videoChange => exact { h with }

/-- An input taken from those waiting. -/
theorem HangsFrom.take {e : HostInput} {rest : List HostInput} (hi : t.inputs = e :: rest) (h : HangsFrom s t) :
    e ≠ .reset ∧ HangsFrom s { t with inputs := rest } := by
  have hno := h.noReset
  rw [hi, List.mem_cons, not_or] at hno
  exact ⟨Ne.symm hno.1, { h with noReset := hno.2 }⟩

/-- Every step, tick or input, leaves the machine hanging. -/
theorem HangsFrom.step (h : HangsFrom s t) : ∃ u, step t = .next u ∧ HangsFrom s u := by
  cases hi : t.inputs with
  | nil =>
    obtain ⟨u, hu, hangs⟩ := h.tick
    exact ⟨u, Tick.step_done ((Tick.advance_nil hi).trans hu), hangs⟩
  | cons e rest =>
    obtain ⟨hreset, hrest⟩ := h.take hi
    by_cases htick : e = .tick
    · subst htick
      obtain ⟨u, hu, hangs⟩ := hrest.tick
      exact ⟨u, Tick.step_done ((Run.advance_tick hi).trans hu), hangs⟩
    · exact ⟨_, Run.step_input htick hi, hrest.input hreset⟩

end

/-- Settles O22: the hang is an invariant of every step. -/
theorem stoppedWithMaskedInterruptsHangs : Obligations.StoppedWithMaskedInterruptsHangs := by
  intro n s hs hm hno
  obtain ⟨t, hrun, h⟩ :=
    runSteps_keeps_of_step (fun _ => HangsFrom.step) n (s := s) ⟨hs, hm, hno, rfl, rfl, .inl rfl⟩
  exact ⟨t, hrun, h.stopped, h.masked, h.regs, h.double, h.trace⟩

/-! ## The halt bug before a HALT -/

/-- `s` is about to fetch a HALT with no operand bytes from the reference bus, with the halt bug set and its condition holding
(R237 (d)). -/
structure BugBeforeHalt (d : Descriptor) (s : State) : Prop where
  ended     : s.cycleEnded
  opcode    : s.state = .opcode
  haltBug   : s.haltBug = true
  masked    : s.ic.ime = false
  requested : s.ic.ifl &&& s.ic.ie &&& 0x1F ≠ 0
  plain     : s.plainBus
  byte      : Memory.read s.regs.pc.toNat s.bus.mem = 0x76
  resolved  : s.params.registry.lookup 0x76 = some d
  single    : d.length = 0

/-- The state after the machine cycle that fetches that HALT and takes the halt bug again. -/
def refetched (s : State) (d : Descriptor) : State :=
  endTick { s.decoded (.halt []) d with state := .opcode, haltBug := true }

section
variable {s : State} {d : Descriptor}

/-- A byte 0x76 whose descriptor has no operand bytes is HALT (R104, R108). -/
theorem BugBeforeHalt.resolves (h : BugBeforeHalt d s) : Fetch.Resolves s.params.registry (.halt []) d where
  legal := rfl
  wf := by
    have hd : s.params.registry.lookup Config.haltByte = some d := h.resolved
    simp [Instr.wellFormed, operandsFit, hd, h.single]
  desc := h.resolved

/-- It stands at the program counter, on the reference bus (R81). -/
theorem BugBeforeHalt.stands (h : BugBeforeHalt d s) : DecodeRun.Stands s (encode (.halt [])) := by
  obtain ⟨hflag, henable, hspeed, hwindows⟩ := h.plain
  intro k b hk
  match k, hk with
  | 0, hk =>
    cases hk
    rw [Tick.fetchAddress_zero, Ops.busRead_plain hflag henable hspeed hwindows, h.byte]
    rfl

/-- Its machine cycle takes the halt bug again (R235). -/
theorem BugBeforeHalt.runSteps_cycle (h : BugBeforeHalt d s) :
    runSteps (ticksPerCycle s) s = .next (refetched s d) := by
  have hadv := DecodeRun.advance_first (s := DecodeRun.atThreshold s) h.stands (DecodeRun.atThreshold_cycleReady h.ended)
    h.opcode (.inl h.masked) rfl h.resolved
  have hrun := DecodeRun.runSteps_lastOpcode h.resolves h.stands h.ended h.ended rfl hadv
  rw [h.single, Nat.zero_add, Nat.one_mul, haltHaltsOrTakesTheHaltBug, if_pos ⟨h.masked, h.requested⟩] at hrun
  exact hrun

/-- The halt bug keeps the program counter where it is (R161). -/
theorem BugBeforeHalt.refetched_regs (h : BugBeforeHalt d s) : (refetched s d).regs = s.regs := by
  have hpc : s.fetchAddress 1 = s.regs.pc := by simp [State.fetchAddress, h.haltBug]
  show { s.regs with pc := s.fetchAddress 1 } = s.regs
  rw [hpc]

/-- So the next cycle fetches the same HALT under the same halt bug. -/
theorem BugBeforeHalt.persists (h : BugBeforeHalt d s) : BugBeforeHalt d (refetched s d) where
  ended := ⟨h.ended.1, h.ended.2.1, rfl⟩
  opcode := rfl
  haltBug := rfl
  masked := h.masked
  requested := h.requested
  plain := h.plain
  byte := by rw [h.refetched_regs]; exact h.byte
  resolved := h.resolved
  single := h.single

/-- What a machine cycle of the loop keeps: the speed with what O42 names. -/
def loopKept (s : State) := (s.speed, s.regs, s.bus, s.ic)

theorem BugBeforeHalt.refetched_kept (h : BugBeforeHalt d s) : loopKept (refetched s d) = loopKept s := by
  rw [loopKept, h.refetched_regs]; rfl

end

/-- Settles O42: every machine cycle leaves the same loop. -/
theorem haltBugOnHaltLoops : Obligations.HaltBugOnHaltLoops := by
  intro n s d hended hs hbug hm hr hplain hbyte hd hlen
  have hkeep : ∀ u, BugBeforeHalt d u ∧ loopKept u = loopKept s →
      ∃ v, runSteps (ticksPerCycle s) u = .next v ∧ BugBeforeHalt d v ∧ loopKept v = loopKept s := by
    rintro u ⟨hu, hkept⟩
    have hspeed : u.speed = s.speed := congrArg Prod.fst hkept
    rw [← Ops.ticksPerCycle_congr (congrArg SpeedMode.double hspeed)]
    exact ⟨_, hu.runSteps_cycle, hu.persists, hu.refetched_kept.trans hkept⟩
  obtain ⟨t, hrun, ht, hkept⟩ :=
    runSteps_keeps hkeep n (s := s) ⟨⟨hended, hs, hbug, hm, hr, hplain, hbyte, hd, hlen⟩, rfl⟩
  simp only [loopKept, Prod.mk.injEq] at hkept
  obtain ⟨-, hregs, hbus, hic⟩ := hkept
  exact ⟨t, hrun, ht.opcode, ht.haltBug, hregs, hbus, hic, ht.ended.2.1⟩

end Sys2Proof.Proofs.StopHalt
end

section
/-! PROOF. The machine cycles of dispatch, each as a step of its own (44_interrupt_dispatch.md): the preemption (O11), the spurious
wake (O14), the two pushes (O15) and the jump (O16). -/

namespace Sys2Proof.Proofs.DispatchStep

open Sys2Proof.Machine
open Sys2Proof.Laws

/-- A machine cycle that is over by itself is the whole step. -/
theorem step_cycleDone {s t : State} (h : s.cycleReady) (hc : cycleBody (preempt (beginCycle s)) = .done t) :
    step s = .next t :=
  Tick.step_done ((Run.advance_cycleReady h).trans hc)

/-- `IRQ_READ_IE` with no source in both masks (R263). -/
theorem cycle_spuriousWake {s : State} (hs : s.state = .irqReadIE)
    (hnone : lowestSource (bothMasks s.ifSnap s.ic.ie) = none) :
    cycleBody (preempt (beginCycle s)) = .done { s with
      state := .opcode, ieSnap := s.ic.ie, subCycle := 0, busUsed := false, busTrace := [] } := by
  rw [DispatchRun.cycle_dispatch (by rw [hs]; rfl), dispatchCycle, State.beginCycle_state, hs]
  simp only [readIE, State.beginCycle_ifSnap, State.beginCycle_ic, hnone]
  rfl

/-- Settles O11: the preempting cycle goes through `IRQ_READ_IF`. -/
theorem preemptionLatchesTheFlags : Obligations.PreemptionLatchesTheFlags := by
  intro s hready hs hime hreq
  have hq : SeqState.isPreemptible s.state = true := by rcases hs with e | e | e <;> rw [e] <;> rfl
  exact step_cycleDone hready (DispatchRun.cycle_preempted hq hime ((Ops.requested_iff_masks s.ic).mpr hreq))

/-- Settles O14: with no common source the selection finds nothing. -/
theorem spuriousWakeAborts : Obligations.SpuriousWakeAborts := by
  intro s hready hs hnone
  exact step_cycleDone hready (cycle_spuriousWake hs ((Ops.lowestSource_eq_none s.ifSnap s.ic.ie).mpr hnone))

/-- Settles O15: the first push takes the high byte, the second the low one. -/
theorem pushCyclesSaveTheProgramCounter : Obligations.PushCyclesSaveTheProgramCounter := fun _ hready =>
  ⟨fun hs => step_cycleDone hready (DispatchRun.cycle_push1 hs),
    fun hs => step_cycleDone hready (DispatchRun.cycle_push2 hs)⟩

/-- Settles O16: the source is selected again from the snapshots. -/
theorem jumpLoadsTheVector : Obligations.JumpLoadsTheVector := by
  intro s src hready hs hsrc hlow
  have hsel : lowestSource (bothMasks s.ifSnap s.ieSnap) = some src := Ops.lowestSource_eq_some _ src hsrc hlow
  exact step_cycleDone hready (DispatchRun.cycle_jump hs hsel)

end Sys2Proof.Proofs.DispatchStep
end

section
/-! PROOF. Exceptions (60_exceptions.md): the faults of the illegal rows (O32), what a host input leaves (O9), the selection of
`IRQ_READ_IE` (O13), where dispatch can begin (O12) and where the master enable can change (O19). -/

namespace Sys2Proof.Proofs.Exceptions

open Sys2Proof.Machine
open Sys2Proof.Laws

/-- Settles O32: each illegal row is `raiseFault` with the payload of its row. -/
theorem illegalRowsRecordTheirFault : Obligations.IllegalRowsRecordTheirFault := fun _ _ => ⟨rfl, rfl, rfl⟩

/-! ## Host inputs -/

/-- What no host input but reset changes, in the order R322 names it, with the latches of the sequencer and the registers. -/
def sequencer (s : State) :=
  (s.ic.ime, s.ic.enableDelay, s.state, s.haltBug, s.fault, s.subCycle, s.speed.double, s.op1, s.op2, s.operand,
    s.operandIdx, s.desc, s.ops, s.execIdx, s.ctx, s.ifSnap, s.ieSnap, s.regs)

theorem hostInput_sequencer {e : HostInput} (he : e ≠ .reset) (s : State) : sequencer (hostInput e s) = sequencer s := by
  cases e with
  | reset => exact absurd rfl he
  | tick | pause | busWrite | deviceChange | raiseIrq | writeIF | writeIE | armSwitch | videoChange => rfl

theorem hostInput_inputs (e : HostInput) (s : State) : (hostInput e s).inputs = s.inputs := by
  cases e <;> rfl

/-- Settles O9: the step is the input's own operation. -/
theorem hostInputsLeaveTheSequencer : Obligations.HostInputsLeaveTheSequencer := by
  intro s t e rest hi htick hreset h
  cases (Run.step_input htick hi).symm.trans h
  have hseq := hostInput_sequencer hreset { s with inputs := rest }
  have hrest := hostInput_inputs e { s with inputs := rest }
  simpa only [sequencer, Prod.mk.injEq, and_assoc, hrest, and_true] using hseq

/-! ## The shapes of a step -/

/-- A host input other than a tick is over by itself (R322). -/
theorem advance_input {s : State} {e : HostInput} {rest : List HostInput} (he : e ≠ .tick) (h : s.inputs = e :: rest) :
    advance s = .done (hostInput e { s with inputs := rest }) := by
  rw [advance, h]
  cases e with
  | tick => exact absurd rfl he
  | reset | pause | busWrite | deviceChange | raiseIrq | writeIF | writeIE | armSwitch | videoChange => rfl

/-- A step up to RUNNING leaves the control state and the master enable, resets the machine, or is a machine cycle (R131, R132,
R322, R340). -/
theorem advance_shapes (s : State) :
    (∃ t, advance s = .done t ∧ t.state = s.state ∧ t.ic.ime = s.ic.ime) ∨
    (∃ rest, s.inputs = .reset :: rest ∧ advance s = .done (resetFields { s with inputs := rest })) ∨
    (∃ rest, advance s = cycleBody (preempt (beginCycle { s with inputs := rest }))) := by
  have tick : ∀ rest, advance s = tickBody { s with inputs := rest } →
      (∃ t, advance s = .done t ∧ t.state = s.state ∧ t.ic.ime = s.ic.ime) ∨
      ∃ rest', advance s = cycleBody (preempt (beginCycle { s with inputs := rest' })) := by
    intro rest ha
    obtain ⟨-, e⟩ | ⟨-, -, e⟩ | ⟨-, -, e⟩ := Tick.tickBody_cases { s with inputs := rest }
    · exact .inl ⟨_, ha.trans e, rfl, rfl⟩
    · exact .inl ⟨_, ha.trans e, rfl, rfl⟩
    · exact .inr ⟨rest, ha.trans e⟩
  cases hi : s.inputs with
  | nil => exact (tick s.inputs (Tick.advance_nil hi)).imp_right .inr
  | cons e rest =>
    by_cases htick : e = .tick
    · subst htick
      exact (tick rest (Run.advance_tick hi)).imp_right .inr
    · have ha := advance_input htick hi
      by_cases hreset : e = .reset
      · subst hreset
        exact .inr (.inl ⟨rest, rfl, ha⟩)
      · have hseq := hostInput_sequencer hreset { s with inputs := rest }
        simp only [sequencer, Prod.mk.injEq] at hseq
        obtain ⟨hime, -, hstate, -⟩ := hseq
        exact .inl ⟨_, ha, hstate, hime⟩

/-! ## Where dispatch can begin -/

/-- Settles O13: the selection finds the lowest source, and the cycle takes it. -/
theorem readIESelectsTheLowestSource : Obligations.ReadIESelectsTheLowestSource := by
  intro s hready hs hboth
  obtain ⟨src, hsel, hset, hlow⟩ := Ops.lowestSource_spec (s.ifSnap &&& s.ic.ie) hboth
  exact ⟨src, hset, hlow, DispatchStep.step_cycleDone hready (DispatchRun.cycle_readIE hs hsel)⟩

/-- The condition of preemption as R133 writes it. -/
theorem preempts_iff (s : State) :
    preempts s = true ↔
      (s.state = .opcode ∨ s.state = .halted ∨ s.state = .stopped) ∧ s.ic.ime = true ∧
        s.ic.ifl &&& s.ic.ie &&& 0x1F ≠ 0 := by
  have hq : SeqState.isPreemptible s.state = true ↔ s.state = .opcode ∨ s.state = .halted ∨ s.state = .stopped := by
    cases s.state <;> decide
  rw [preempts, Bool.and_eq_true, Bool.and_eq_true, hq, Ops.requested_iff_masks, and_assoc]

/-- The way from `s` to `t` does not lead into dispatch from outside (R311). -/
def EntersNoDispatch (s t : State) : Prop := SeqState.isDispatch t.state = true → SeqState.isDispatch s.state = true

theorem EntersNoDispatch.of_state {s t : State} (h : SeqState.isDispatch t.state = false) : EntersNoDispatch s t :=
  fun ht => absurd ht (by simp [h])

theorem EntersNoDispatch.refl_of_state {s t : State} (h : t.state = s.state) : EntersNoDispatch s t :=
  fun ht => h ▸ ht

theorem EntersNoDispatch.trans {s t u : State} (hst : EntersNoDispatch s t) (htu : EntersNoDispatch t u) :
    EntersNoDispatch s u := fun h => hst (htu h)

/-- Decode moves to EXT_OPCODE, OPERAND or RUNNING alone (R160 to R167). -/
def DecodeEntersNone (s : State) (p : Progress) : Prop := EntersNoDispatch s (Params.reached p)

theorem collectOperands_entersNone (d : Descriptor) (s : State) : DecodeEntersNone s (collectOperands d s) := by
  obtain ⟨-, -, e⟩ | ⟨-, -, e⟩ | ⟨-, -, e⟩ | ⟨-, e⟩ := Tick.collectOperands_cases d s <;> rw [e]
  · exact .refl_of_state rfl
  · exact .refl_of_state rfl
  · exact .of_state rfl
  · exact .of_state rfl

theorem operandFetch_entersNone (s : State) : DecodeEntersNone s (operandFetch s) := by
  obtain ⟨-, e⟩ | ⟨d, -, -, e⟩ | ⟨d, -, -, e⟩ := Tick.operandFetch_cases s <;> rw [e]
  · exact .refl_of_state rfl
  · exact .refl_of_state rfl
  · exact collectOperands_entersNone d s

theorem unresolvedSecond_entersNone (s : State) : DecodeEntersNone s (unresolvedSecond s) := by
  unfold unresolvedSecond
  split
  · exact .refl_of_state rfl
  · split <;> exact .refl_of_state rfl

theorem extFetch_entersNone (s : State) : DecodeEntersNone s (extFetch s) := by
  unfold extFetch
  split
  · exact .refl_of_state rfl
  · split
    · exact .trans (.refl_of_state rfl) (unresolvedSecond_entersNone (latchOp2 s))
    · exact .trans (.of_state rfl) (operandFetch_entersNone _)

theorem advanceOpcodePC_state (s : State) : (advanceOpcodePC s).state = s.state := by
  rw [Tick.advanceOpcodePC_eq]

theorem opcodeFetch_entersNone (s : State) : DecodeEntersNone s (opcodeFetch s) := by
  unfold opcodeFetch
  split
  · exact .trans (.of_state (by rw [advanceOpcodePC_state]; rfl)) (extFetch_entersNone _)
  · exact .refl_of_state rfl
  · exact .trans (.of_state (by rw [advanceOpcodePC_state]; rfl)) (operandFetch_entersNone _)

theorem arbitrate_entersNone (s : State) : DecodeEntersNone s (arbitrate s) := by
  unfold arbitrate
  split
  · exact opcodeFetch_entersNone s
  · exact extFetch_entersNone s
  · exact operandFetch_entersNone s
  all_goals exact .refl_of_state rfl

/-- After preemption a machine cycle is in dispatch only from a dispatch state (R134 to R136). -/
theorem cycleBody_entersNone (s : State) : DecodeEntersNone s (cycleBody s) := by
  obtain ⟨hd, -⟩ | ⟨-, e⟩ | ⟨-, -, e⟩ | ⟨-, -, -, e⟩ := Tick.cycleBody_cases s
  · exact fun _ => hd
  · rw [e]; exact .refl_of_state rfl
  · rw [e]; exact .trans (t := { s with state := .opcode, busUsed := false }) (.of_state rfl) (arbitrate_entersNone _)
  · rw [e]; exact .trans (t := { s with busUsed := false }) (.refl_of_state rfl) (arbitrate_entersNone _)

/-- No instruction goes to dispatch: PLAIN and EXT stay or retire, STOP and HALT go to a state between instructions. -/
theorem exec_entersNone {i : Instr} {s t : State} (h : exec i s = .next t) : EntersNoDispatch s t := by
  have generic : ∀ buf, EntersNoDispatch s (runGeneric buf s) := by
    intro buf
    obtain ⟨hs, -⟩ | ⟨hs, -⟩ := (Cycle.runGeneric_frame buf s).phase
    · exact .refl_of_state hs
    · exact .of_state (by rw [hs]; rfl)
  cases i with
  | halt => cases h; unfold haltIntercept; split <;> exact .of_state rfl
  | stop => cases h; unfold stopIntercept; split <;> exact .of_state rfl
  | ext | plain => cases h; exact generic _
  | illegal | illegalExt | illegalStop => cases h; exact .refl_of_state rfl

/-- A step goes no further into dispatch than it got up to RUNNING. -/
theorem step_entersNone {s t : State} (h : step s = .next t) : EntersNoDispatch (Params.reached (advance s)) t := by
  obtain ⟨u, hu, hs⟩ | ⟨i, u, v, hu, hv, hs⟩ := Tick.step_cases s <;> cases hs.symm.trans h <;> rw [hu]
  · exact .refl_of_state rfl
  · exact (exec_entersNone hv).trans (.refl_of_state rfl)

/-- Settles O12: of a step's parts only preemption leads into dispatch from outside, and R133 says from where. -/
theorem dispatchBeginsOnlyBetweenInstructions : Obligations.DispatchBeginsOnlyBetweenInstructions := by
  intro s t h ht
  have hreached := step_entersNone h ht
  obtain ⟨u, hu, hstate, -⟩ | ⟨rest, -, hu⟩ | ⟨rest, hu⟩ := advance_shapes s <;> rw [hu] at hreached
  · exact .inl (hstate ▸ hreached)
  · cases hreached
  · have hcycle := cycleBody_entersNone _ hreached
    obtain ⟨-, e⟩ | ⟨hp, -⟩ := Ops.preempt_cases (beginCycle { s with inputs := rest })
    · rw [e] at hcycle
      exact .inl hcycle
    · exact .inr ((preempts_iff _).mp hp)

/-! ## Where the master enable can change -/

/-- Of the dispatch cycles only `IRQ_READ_IE` writes the interrupt controller, and masks interrupts (R262). -/
theorem dispatchCycle_ime (s : State) :
    (dispatchCycle s).ic.ime = s.ic.ime ∨ ((dispatchCycle s).ic.ime = false ∧ s.state = .irqReadIE) := by
  unfold dispatchCycle
  split
  case h_2 hs =>
    obtain ⟨-, e⟩ | ⟨src, -, -, e⟩ := Ops.readIE_cases s <;> rw [e]
    · exact .inl rfl
    · exact .inr ⟨rfl, hs⟩
  case h_5 => obtain ⟨-, e⟩ | ⟨src, -, e⟩ := Ops.jump_cases s <;> rw [e] <;> exact .inl rfl
  all_goals exact .inl rfl

theorem arbitrate_ic (s : State) : (Params.reached (arbitrate s)).ic = s.ic := by
  have h := Divider.arbitrate_kept s
  simp only [Divider.KeptBy, Divider.fetchKept, Prod.mk.injEq] at h
  simp only [h]

theorem cycleBody_ime (s : State) :
    (Params.reached (cycleBody s)).ic.ime = s.ic.ime ∨
      ((Params.reached (cycleBody s)).ic.ime = false ∧ s.state = .irqReadIE) := by
  obtain ⟨-, e⟩ | ⟨-, e⟩ | ⟨-, -, e⟩ | ⟨-, -, -, e⟩ := Tick.cycleBody_cases s <;> rw [e]
  · exact dispatchCycle_ime s
  · exact .inl rfl
  · exact .inl (by rw [arbitrate_ic])
  · exact .inl (by rw [arbitrate_ic])

/-- Up to RUNNING the master enable only falls, in `IRQ_READ_IE` or by a reset (R262, R340). -/
theorem advance_ime (s : State) :
    (Params.reached (advance s)).ic.ime = s.ic.ime ∨
      ((Params.reached (advance s)).ic.ime = false ∧ (s.state = .irqReadIE ∨ s.inputs.head? = some .reset)) := by
  obtain ⟨u, hu, -, hime⟩ | ⟨rest, hi, hu⟩ | ⟨rest, hu⟩ := advance_shapes s <;> rw [hu]
  · exact .inl hime
  · exact .inr ⟨rfl, .inr (by rw [hi]; rfl)⟩
  · have hcycle := cycleBody_ime (preempt (beginCycle { s with inputs := rest }))
    obtain ⟨-, e⟩ | ⟨-, -, -, e⟩ := Ops.preempt_cases (beginCycle { s with inputs := rest }) <;> rw [e] at hcycle ⊢
    · exact hcycle.imp_right fun ⟨hoff, hs⟩ => ⟨hoff, .inl hs⟩
    · exact .inl (hcycle.resolve_right nofun)

/-- Only the micro-operations of PLAIN and EXT reach the interrupt controller from within an instruction (R196, R239, R301). -/
theorem exec_ic {i : Instr} {s t : State} (hg : genericOperands i = none) (h : exec i s = .next t) : t.ic = s.ic := by
  cases i with
  | halt => cases h; unfold haltIntercept; split <;> rfl
  | stop => cases h; unfold stopIntercept; split <;> rfl
  | ext | plain => cases hg
  | illegal | illegalExt | illegalStop => cases h; rfl

/-- Settles O19: unless PLAIN or EXT runs, the master enable is as the step had it up to RUNNING. -/
theorem masterEnableChangesOnlyThere : Obligations.MasterEnableChangesOnlyThere := by
  intro s t h hne
  have hbefore := advance_ime s
  obtain ⟨u, hu, hs⟩ | ⟨i, u, v, hu, hv, hs⟩ := Tick.step_cases s <;> cases hs.symm.trans h <;> rw [hu] at hbefore
  · exact .inr (hbefore.resolve_left hne)
  · cases hg : genericOperands i with
    | some os => exact .inl ⟨i, u, os, hu, hg⟩
    | none =>
      have hic : v.ic = u.ic := exec_ic hg hv
      rw [Params.reached_run, ← hic] at hbefore
      exact .inr (hbefore.resolve_left hne)

end Sys2Proof.Proofs.Exceptions
end

section
/-! PROOF. Reset: the input (O1), the state a run starts in (O2), and the invariant there (O59). -/

namespace Sys2Proof.Proofs.Reset

open Sys2Proof.Machine
open Sys2Proof.Laws

/-- Settles O1: an input is a step of its own, and reset sets the fields of its table. -/
theorem resetInputSetsItsTable : Obligations.ResetInputSetsItsTable := fun _ _ =>
  Run.step_input (e := .reset) nofun

/-- Settles O2: field by field. -/
theorem resetStateHasTheTableValues : Obligations.ResetStateHasTheTableValues :=
  ⟨rfl, rfl, rfl, rfl, rfl, rfl, rfl, rfl, rfl, rfl, rfl, rfl, rfl, rfl, rfl, rfl, rfl, rfl⟩

/-- Settles O59: OPCODE stands between instructions, with memory empty, the counter at 0 and no descriptor resolved. -/
theorem resetMeetsTheInvariant : Obligations.ResetMeetsTheInvariant :=
  Invariant.inv_of_between (s := State.reset) rfl rfl Memory.wf_nil (Invariant.divider_of_zero rfl) rfl (Nat.zero_le 1)
    (Nat.le_refl 0) nofun nofun

end Sys2Proof.Proofs.Reset
end

section
/-! PROOF. A host input and a tick that only counts commute (O7): neither reads what the other sets. -/

namespace Sys2Proof.Proofs.Commute

open Sys2Proof.Machine
open Sys2Proof.Laws

/-- The state after a tick that only counts, with the inputs `rest` still to come (R132). -/
def counted (rest : List HostInput) (s : State) : State := { s with subCycle := s.subCycle + 1, inputs := rest }

/-- A tick the host asks for below the threshold only counts (R132). -/
theorem step_countingTick {s : State} {rest : List HostInput} (hi : s.inputs = .tick :: rest) (hf : s.fault = none)
    (hlt : s.subCycle + 1 < ticksPerCycle s) : step s = .next (counted rest s) :=
  Tick.step_done ((Run.advance_tick hi).trans (Run.tickBody_count (s := { s with inputs := rest }) hf hlt))

/-- A run of two steps. -/
theorem runSteps_two {s t u : State} (h : step s = .next t) (h' : step t = .next u) : runSteps 2 s = .next u :=
  (Run.runSteps_succ 1 h).trans (Run.runSteps_one h')

/-- An input other than reset neither reads nor sets the counter and the inputs behind it (R322). -/
theorem hostInput_counted {e : HostInput} (he : e ≠ .reset) (rest : List HostInput) (s : State) :
    hostInput e (counted rest s) = counted rest (hostInput e s) := by
  cases e with
  | reset => exact absurd rfl he
  | tick | pause | busWrite | deviceChange | raiseIrq | writeIF | writeIE | armSwitch | videoChange => rfl

/-- Settles O7: in both orders the two steps are the input's own operation and the count. -/
theorem hostInputCommutesWithACountingTick : Obligations.HostInputCommutesWithACountingTick := by
  intro s e htick hreset hf hlt
  have hseq := Exceptions.hostInput_sequencer hreset { s with inputs := [.tick] }
  simp only [Exceptions.sequencer, Prod.mk.injEq] at hseq
  obtain ⟨-, -, -, -, hfault, hsub, hdouble, -⟩ := hseq
  have hinputFirst : runSteps 2 { s with inputs := [e, .tick] } =
      .next (counted [] (hostInput e { s with inputs := [.tick] })) := by
    refine runSteps_two (Run.step_input htick rfl) (step_countingTick (Exceptions.hostInput_inputs e _) (hfault.trans hf) ?_)
    rwa [hsub, Ops.ticksPerCycle_congr hdouble]
  have htickFirst : runSteps 2 { s with inputs := [.tick, e] } = .next (hostInput e (counted [] s)) :=
    runSteps_two (step_countingTick (s := { s with inputs := [.tick, e] }) rfl hf hlt) (Run.step_input htick rfl)
  rw [hinputFirst, htickFirst, ← hostInput_counted hreset]
  rfl

end Sys2Proof.Proofs.Commute
end

section
/-! PROOF. The machine cycles of an instruction (O58). One machine cycle in RUNNING lowers the count of R352 over the
micro-operations still to run by one, or retires with the count at 0; the cycles are then counted by induction on it. -/

namespace Sys2Proof.Proofs.CycleCount

open Sys2Proof.Machine
open Sys2Proof.Laws

/-! ## The count -/

/-- What the count reads of a micro-operation (R352). -/
def flags (m : MicroOp) : Bool × Bool := (MicroOp.accesses m, MicroOp.forcesCycleEnd m)

section
variable {acc b force : Bool} {ms : List (Bool × Bool)}

/-- The cycles begun before are added to the count. -/
theorem cycleCount_add (c n : Nat) (b : Bool) (ms : List (Bool × Bool)) :
    cycleCount (c + n) b ms = c + cycleCount n b ms := by
  induction ms generalizing n b with
  | nil => rfl
  | cons p ms ih =>
    obtain ⟨acc, force⟩ := p
    have hconflict : (if acc && b then c + n + 1 else c + n) = c + (if acc && b then n + 1 else n) := by split <;> rfl
    rw [cycleCount, cycleCount, hconflict]
    split
    · rw [Nat.add_assoc, ih]
    · rw [ih]

/-- One cycle begun before is one more in the count. -/
theorem cycleCount_one (b : Bool) (ms : List (Bool × Bool)) : cycleCount 1 b ms = cycleCount 0 b ms + 1 := by
  rw [Nat.add_comm, ← cycleCount_add]

/-- An access with the bus used begins a cycle, in which the bus is free (R192). -/
theorem cycleCount_conflict (n : Nat) :
    cycleCount n true ((true, force) :: ms) = cycleCount (n + 1) false ((true, force) :: ms) := by
  cases force <;> rfl

/-- A forced end begins a cycle for what comes next (R200). -/
theorem cycleCount_forced (n : Nat) (hfree : b = false ∨ acc = false) :
    cycleCount n b ((acc, true) :: ms) = cycleCount (n + 1) false ms := by
  rcases hfree with rfl | rfl <;> cases ‹Bool› <;> rfl

/-- What runs with the bus free for it and ends no cycle leaves the bus flag (R199). -/
theorem cycleCount_free (n : Nat) (hfree : b = false ∨ acc = false) :
    cycleCount n b ((acc, false) :: ms) = cycleCount n (b || acc) ms := by
  rcases hfree with rfl | rfl <;> cases ‹Bool› <;> rfl

end

/-! ## A micro-operation that keeps its contract -/

/-- What running a micro-operation leaves, the frame of a machine cycle among it. -/
def fixed (s : State) := (Cycle.kept s, s.state, s.operandIdx, s.fault, s.busUsed)

/-- `m` has run from `s` to `u`: the index is advanced, or at the end of the sequence (R191, R197). -/
structure Ran (m : MicroOp) (s u : State) : Prop where
  fixed : fixed u = fixed s
  index : u.execIdx = if MicroOp.shouldProceed m u.regs then s.execIdx + 1 else s.ops.length

theorem ops_of_fixed {s t : State} (h : fixed t = fixed s) : t.ops = s.ops :=
  congrArg (fun p => p.1.2.2.2.2.1) h

section
variable {m : MicroOp} {s t u : State} {buf : OperandBuf}

theorem storeByte_fixed (s : State) (a : Word) (v : Byte) : fixed (storeByte s a v) = fixed s := by
  rw [fixed, (Cycle.storeByte_frame s a v).kept]; rfl

theorem injectDue_fixed (m : MicroOp) (s : State) :
    fixed (injectDue m s) = fixed s ∧ (injectDue m s).execIdx = s.execIdx := by
  unfold injectDue
  split
  · exact ⟨rfl, rfl⟩
  · split <;> exact ⟨rfl, rfl⟩

/-- What follows `execute`, after a bus call that left `t` (R191). -/
theorem afterOp_ran (m : MicroOp) (regs : RegFile) (ctx : Ctx) (hfixed : fixed t = fixed s)
    (hidx : t.execIdx = s.execIdx) : Ran m s (t.afterOp m regs ctx) where
  fixed := hfixed
  index := by rw [← hidx, ← ops_of_fixed hfixed]; rfl

/-- A micro-operation that keeps its contract runs to its end, and what the tick keeps to itself is not read by it (R195). -/
theorem performOp_of_keepsContract (hc : keepsContract m) (buf : OperandBuf) (s : State) :
    ∃ u v, performOp buf m s = .ran u ∧ Ran m s u ∧
      performOp buf m (Tick.cycleStart s) = .ran v ∧ Tick.cycleStart v = Tick.cycleStart u := by
  have hcall := hc s.regs buf s.ctx
  cases hstart : MicroOp.start m s.regs buf s.ctx with
  | finish regs ctx =>
    exact ⟨_, _, Tick.performOp_afterOp (MicroOps.executeOp_finish hstart), afterOp_ran m regs ctx rfl rfl,
      Tick.performOp_afterOp (MicroOps.executeOp_finish (s := Tick.cycleStart s) hstart), rfl⟩
  | read a =>
    rw [hstart] at hcall
    obtain ⟨hr, hres⟩ := hcall
    obtain ⟨regs, ctx, hres⟩ := hres (readByte s a)
    exact ⟨_, _, Tick.performOp_afterOp (MicroOps.executeOp_read hstart hr hres), afterOp_ran m regs ctx rfl rfl,
      Tick.performOp_afterOp (MicroOps.executeOp_read (s := Tick.cycleStart s) hstart hr hres), rfl⟩
  | write a v =>
    rw [hstart] at hcall
    obtain ⟨hw, regs, ctx, hres⟩ := hcall
    exact ⟨_, _, Tick.performOp_afterOp (MicroOps.executeOp_write hstart hw hres),
      afterOp_ran m regs ctx (storeByte_fixed s a v) rfl,
      Tick.performOp_afterOp (MicroOps.executeOp_write (s := Tick.cycleStart s) hstart hw hres), rfl⟩

/-- A micro-operation that keeps its contract runs to its end after the injection that is due (R193). -/
theorem performOp_injectDue (hc : keepsContract m) (buf : OperandBuf) (s : State) :
    ∃ u, performOp buf m (injectDue m s) = .ran u ∧ Ran m s u := by
  obtain ⟨u, -, hu, ⟨hfixed, hidx⟩, -⟩ := performOp_of_keepsContract hc buf (injectDue m s)
  obtain ⟨hinject, hexec⟩ := injectDue_fixed m s
  exact ⟨u, hu, hfixed.trans hinject, by rw [hidx, hexec, ops_of_fixed hinject]⟩

/-! ## The micro-operations that run -/

theorem injectDue_cycleStart (m : MicroOp) (s : State) :
    injectDue m (Tick.cycleStart s) = Tick.cycleStart (injectDue m s) := by
  have hwindow : inCorruptionWindow (Tick.cycleStart s) = inCorruptionWindow s := rfl
  unfold injectDue
  cases hk : MicroOp.corruption m s.regs s.ctx with
  | none => simp only [Tick.cycleStart, hk]
  | some k =>
    simp only [hwindow, show MicroOp.corruption m (Tick.cycleStart s).regs (Tick.cycleStart s).ctx = some k from hk]
    split <;> rfl

/-- Which micro-operations run does not depend on what a tick keeps to itself. -/
theorem opsRun_cycleStart {ms : List MicroOp} (hc : ∀ m ∈ ms, keepsContract m) (s : State) :
    opsRun buf ms (Tick.cycleStart s) = opsRun buf ms s := by
  induction ms generalizing s with
  | nil => rfl
  | cons m ms ih =>
    obtain ⟨hm, hms⟩ := List.forall_mem_cons.mp hc
    obtain ⟨u, v, hu, -, hv, hvu⟩ := performOp_of_keepsContract hm buf (injectDue m s)
    have hregs : v.regs = u.regs := (congrArg State.regs hvu :)
    have hrest : opsRun buf ms v = opsRun buf ms u := by rw [← ih hms v, hvu, ih hms u]
    simp only [opsRun, injectDue_cycleStart, hu, hv, hregs, hrest]

theorem opsRun_congr {ms : List MicroOp} (hc : ∀ m ∈ ms, keepsContract m) (h : Tick.cycleStart t = Tick.cycleStart s) :
    opsRun buf ms t = opsRun buf ms s := by
  rw [← opsRun_cycleStart hc t, h, opsRun_cycleStart hc s]

/-- The next micro-operation is the first of those that run, and the rest run from the state it leaves (R197). -/
theorem opsRun_next (hm : s.ops[s.execIdx]? = some m) (hp : performOp buf m (injectDue m s) = .ran u) (hu : Ran m s u) :
    opsRun buf (s.ops.drop s.execIdx) s = m :: opsRun buf (u.ops.drop u.execIdx) u := by
  obtain ⟨hlt, rfl⟩ := List.getElem?_eq_some_iff.mp hm
  rw [List.drop_eq_getElem_cons hlt, opsRun, hp, hu.index, ops_of_fixed hu.fixed]
  dsimp only
  split
  · rfl
  · rw [List.drop_length, opsRun]

/-- The cycles that follow the one under way, by the count of R352 over the micro-operations still to run. -/
def cyclesLeft (buf : OperandBuf) (s : State) : Nat :=
  cycleCount 0 s.busUsed ((opsRun buf (s.ops.drop s.execIdx) s).map flags)

/-- What a tick keeps to itself counts by the bus flag alone. -/
theorem cyclesLeft_congr (hc : ∀ m ∈ s.ops, keepsContract m) (h : Tick.cycleStart t = Tick.cycleStart s) :
    cyclesLeft buf t = cycleCount 0 t.busUsed ((opsRun buf (s.ops.drop s.execIdx) s).map flags) := by
  have hops : t.ops = s.ops := (congrArg State.ops h :)
  have hidx : t.execIdx = s.execIdx := (congrArg State.execIdx h :)
  rw [cyclesLeft, hops, hidx, opsRun_congr (fun m hm => hc m (List.mem_of_mem_drop hm)) h]

end

/-! ## One machine cycle in RUNNING -/

/-- In RUNNING, in a machine cycle of `T` ticks, with the sequence `ops` loaded, whose micro-operations see the operand buffer
`buf` and meet no corruption abort. -/
structure InRun (buf : OperandBuf) (ops : List MicroOp) (T : Nat) (s : State) : Prop where
  state : s.state = .running
  ended : s.cycleEnded
  threshold : ticksPerCycle s = T
  generic : ∃ operands, genericOperands (inFlight s) = some operands ∧ OperandBuf.load s.operand operands = buf
  loaded : s.ops = ops
  index : s.execIdx ≤ ops.length
  display : s.video.displayEnabled = true ∨ ∀ m ∈ ops, ∀ regs ctx, MicroOp.corruption m regs ctx = none

section
variable {buf : OperandBuf} {ops : List MicroOp} {T : Nat} {s u : State} {m : MicroOp}

theorem InRun.of_fixed (h : InRun buf ops T s) (hfixed : fixed u = fixed s) (hidx : u.execIdx ≤ ops.length) :
    InRun buf ops T u := by
  have hloaded := (ops_of_fixed hfixed).trans h.loaded
  simp only [fixed, Cycle.kept, Prod.mk.injEq] at hfixed
  obtain ⟨⟨hop1, hop2, hoperand, -, -, -, -, -, hsub, hdouble, hdisplay, -, -, -, hinputs⟩, hstate, hoidx, hfault, -⟩ :=
    hfixed
  have hflight : inFlight u = inFlight s := by simp only [inFlight, hop1, hop2, hoperand, hoidx]
  obtain ⟨hi, hf, hz⟩ := h.ended
  exact {
    state := hstate.trans h.state
    ended := ⟨hinputs.trans hi, hfault.trans hf, hsub.trans hz⟩
    threshold := (Ops.ticksPerCycle_congr hdouble).trans h.threshold
    generic := by rw [hflight, hoperand]; exact h.generic
    loaded := hloaded
    index := hidx
    display := by rw [hdisplay]; exact h.display }

/-- A machine cycle in RUNNING is the walk (R202, R203). -/
theorem InRun.exec_eq (h : InRun buf ops T s) : exec (inFlight s) s = .next (runGeneric buf s) := by
  obtain ⟨operands, hg, rfl⟩ := h.generic
  exact Tick.exec_generic hg s

theorem InRun.ran (h : InRun buf ops T s) (hm : s.ops[s.execIdx]? = some m) (hu : Ran m s u) : InRun buf ops T u := by
  obtain ⟨hlt, -⟩ := List.getElem?_eq_some_iff.mp hm
  have hlen : s.ops.length = ops.length := congrArg List.length h.loaded
  refine h.of_fixed hu.fixed ?_
  rw [hu.index]
  split <;> omega

/-- The walk runs the next micro-operation, when it need not wait for the bus, after the injection that is due (R193). -/
theorem InRun.runOp_eq (h : InRun buf ops T s) (hm : s.ops[s.execIdx]? = some m)
    (hfree : s.busUsed = false ∨ MicroOp.accesses m = false) :
    runOp buf m s = completeOp buf m (injectDue m s) :=
  Tick.runOp_injectDue hfree (h.display.imp_right fun hnone =>
    hnone m (h.loaded ▸ List.mem_of_getElem? hm) s.regs s.ctx)

section
variable (h : InRun buf ops T s) (hc : ∀ m ∈ ops, keepsContract m) (hm : s.ops[s.execIdx]? = some m)
include h hc hm

/-- An access that meets the bus used ends the cycle, and one cycle fewer is left (R192). -/
theorem InRun.waits (hbus : s.busUsed = true) (hacc : MicroOp.accesses m = true) :
    runGeneric buf s = s ∧ cyclesLeft buf s = cyclesLeft buf (Tick.cycleStart s) + 1 := by
  have hcs : ∀ m ∈ s.ops, keepsContract m := h.loaded ▸ hc
  obtain ⟨u, hp, hu⟩ := performOp_injectDue (hcs m (List.mem_of_getElem? hm)) buf s
  refine ⟨by rw [MicroOps.runGeneric_cons hm, Execute.runOp_waits hbus hacc], ?_⟩
  rw [cyclesLeft_congr hcs (t := Tick.cycleStart s) rfl, cyclesLeft, opsRun_next hm hp hu, List.map_cons, flags, hbus, hacc,
    cycleCount_conflict, cycleCount_one]
  rfl

/-- A micro-operation with the bus free for it runs: a forced end ends the cycle, and one cycle fewer is left; otherwise the walk
goes on with the bus flag, and as many are left (R199, R200). -/
theorem InRun.runs (hfree : s.busUsed = false ∨ MicroOp.accesses m = false) :
    ∃ u, InRun buf ops T u ∧ s.execIdx < u.execIdx ∧
      (MicroOp.forcesCycleEnd m = true →
        runGeneric buf s = u ∧ cyclesLeft buf s = cyclesLeft buf (Tick.cycleStart u) + 1) ∧
      (MicroOp.forcesCycleEnd m = false →
        runGeneric buf s = runGeneric buf { u with busUsed := u.busUsed || MicroOp.accesses m } ∧
        cyclesLeft buf s = cyclesLeft buf { u with busUsed := u.busUsed || MicroOp.accesses m }) := by
  have hcs : ∀ m ∈ s.ops, keepsContract m := h.loaded ▸ hc
  have hlt : s.execIdx < s.ops.length := (List.getElem?_eq_some_iff.mp hm).1
  obtain ⟨u, hp, hu⟩ := performOp_injectDue (hcs m (List.mem_of_getElem? hm)) buf s
  have hrun := h.ran hm hu
  have hcu : ∀ m ∈ u.ops, keepsContract m := hrun.loaded ▸ hc
  have hidx : u.execIdx = s.execIdx + 1 ∨ u.execIdx = s.ops.length := by
    rw [hu.index]; exact ite_eq_or_eq ..
  obtain ⟨hend, hgo⟩ := Corruption.runGeneric_completes_from hm (h.runOp_eq hm hfree) hp (ops_of_fixed hu.fixed) hidx
  refine ⟨u, hrun, by omega, fun hforce => ⟨hend hforce, ?_⟩, fun hforce => ⟨hgo hforce, ?_⟩⟩
  · rw [cyclesLeft_congr hcu (t := Tick.cycleStart u) rfl, cyclesLeft, opsRun_next hm hp hu, List.map_cons, flags, hforce,
      cycleCount_forced 0 hfree, cycleCount_one]
    rfl
  · have hbus : u.busUsed = s.busUsed := congrArg (fun p => p.2.2.2.2) hu.fixed
    rw [cyclesLeft_congr hcu (t := { u with busUsed := u.busUsed || MicroOp.accesses m }) rfl, cyclesLeft,
      opsRun_next hm hp hu, List.map_cons, flags, hforce, cycleCount_free 0 hfree, hbus]

/-- One micro-operation in RUNNING: the cycle ends there, with one cycle fewer left, or the walk goes on further along the
sequence, with as many. -/
theorem InRun.iteration :
    (∃ t, InRun buf ops T t ∧ runGeneric buf s = t ∧ cyclesLeft buf s = cyclesLeft buf (Tick.cycleStart t) + 1) ∨
    (∃ t, InRun buf ops T t ∧ s.execIdx < t.execIdx ∧ runGeneric buf s = runGeneric buf t ∧
      cyclesLeft buf s = cyclesLeft buf t) := by
  by_cases hfree : s.busUsed = false ∨ MicroOp.accesses m = false
  · obtain ⟨u, hrun, hidx, hend, hgo⟩ := h.runs hc hm hfree
    cases hforce : MicroOp.forcesCycleEnd m with
    | true => exact .inl ⟨u, hrun, hend hforce⟩
    | false =>
      exact .inr ⟨{ u with busUsed := u.busUsed || MicroOp.accesses m }, { hrun with }, hidx, hgo hforce⟩
  · obtain ⟨hbus, hacc⟩ : s.busUsed = true ∧ MicroOp.accesses m = true := by simpa using hfree
    exact .inl ⟨s, h, h.waits hc hm hbus hacc⟩

end

/-- A machine cycle in RUNNING: the instruction retires, with no cycle to come, or is in RUNNING still, with one fewer. -/
theorem InRun.cycle (h : InRun buf ops T s) (hc : ∀ m ∈ ops, keepsContract m) :
    (∃ t, InRun buf ops T t ∧ t.execIdx = ops.length ∧ runGeneric buf s = retire t ∧ cyclesLeft buf s = 0) ∨
    (∃ t, InRun buf ops T t ∧ runGeneric buf s = t ∧ cyclesLeft buf s = cyclesLeft buf (Tick.cycleStart t) + 1) := by
  induction hn : ops.length - s.execIdx using Nat.strongRecOn generalizing s with
  | ind left ih =>
    have hlen : s.ops.length = ops.length := congrArg List.length h.loaded
    rcases Nat.eq_or_lt_of_le h.index with hend | hlt
    · refine .inl ⟨s, h, hend, MicroOps.runGeneric_end (hend.trans hlen.symm), ?_⟩
      rw [cyclesLeft, hend, ← hlen, List.drop_length]
      rfl
    · obtain hstop | ⟨t, ht, hfurther, hgo, hleft⟩ :=
        h.iteration hc (List.getElem?_eq_getElem (hlen ▸ hlt))
      · exact .inr hstop
      · rw [hgo, hleft]
        exact ih _ (by omega) ht rfl

/-! ## The cycles of an instruction -/

/-- The next cycle begins with the bus free. -/
theorem InRun.cycleStart (h : InRun buf ops T s) : InRun buf ops T (Tick.cycleStart s) :=
  let ⟨hi, hf, _⟩ := h.ended
  { h with ended := ⟨hi, hf, rfl⟩ }

/-- The cycle after one that ended in RUNNING runs the instruction in flight (R191). -/
theorem InRun.runSteps_next (h : InRun buf ops T s) :
    runSteps T (endTick s) = finishTick (exec (inFlight (Tick.cycleStart s)) (Tick.cycleStart s)) := by
  obtain ⟨hi, hf, hz⟩ := h.ended
  have hended : (endTick s).cycleEnded := ⟨hi, hf, hz⟩
  have hready := DecodeRun.atThreshold_cycleReady hended
  rw [← show ticksPerCycle (endTick s) = T from h.threshold]
  refine DecodeRun.runSteps_run hended ?_
  rw [Run.advance_arbitrates hready (.inr (.inr (.inr h.state))) (fun e => nomatch h.state.symm.trans e)]
  exact Tick.arbitrate_running h.state

/-- From the machine cycle that runs the instruction in flight, it retires after the cycles left, and is in RUNNING before. -/
theorem InRun.runSteps_retires (hc : ∀ m ∈ ops, keepsContract m) (n : Nat) {v : State} {k : Nat} (h : InRun buf ops T s)
    (hleft : cyclesLeft buf s = n) (hrun : runSteps (k * T) v = finishTick (exec (inFlight s) s)) :
    (∃ t, runSteps ((k + n) * T) v = .next t ∧ t.state = .opcode ∧ t.fault = none ∧ t.execIdx = ops.length) ∧
    (∀ j, k ≤ j → j < k + n → ∃ t, runSteps (j * T) v = .next t ∧ t.state = .running) := by
  rw [h.exec_eq] at hrun
  induction n generalizing s k with
  | zero =>
    obtain ⟨t, ht, hend, hret, -⟩ | ⟨t, -, -, hmore⟩ := h.cycle hc
    · obtain ⟨-, hf, -⟩ := ht.ended
      rw [hret] at hrun
      exact ⟨⟨_, hrun, rfl, hf, hend⟩, fun j hle hlt => by omega⟩
    · omega
  | succ n ih =>
    obtain ⟨t, -, -, -, hzero⟩ | ⟨t, ht, hstop, hmore⟩ := h.cycle hc
    · omega
    · rw [hstop] at hrun
      have hnext : runSteps ((k + 1) * T) v = finishTick (exec (inFlight (Tick.cycleStart t)) (Tick.cycleStart t)) := by
        rw [Nat.succ_mul, Run.runSteps_add _ _ hrun, ht.runSteps_next]
      have hstart : InRun buf ops T (Tick.cycleStart t) := ht.cycleStart
      rw [hstart.exec_eq] at hnext
      obtain ⟨hretires, hrunning⟩ := ih hstart (by omega) hnext
      rw [Nat.add_right_comm] at hretires hrunning
      refine ⟨hretires, fun j hle hlt => ?_⟩
      rcases Nat.eq_or_lt_of_le hle with rfl | hlater
      · exact ⟨_, hrun, ht.state⟩
      · exact hrunning j hlater hlt

end

/-- A buffer loaded twice with the same bytes is loaded once. -/
theorem load_load (b : OperandBuf) (os : List Byte) :
    OperandBuf.load (OperandBuf.load b os) os = OperandBuf.load b os := by
  match os with
  | [] | [_] | _ :: _ :: _ => rfl

theorem generic_legal {i : Instr} {operands : List Byte} (hg : genericOperands i = some operands) :
    isLegal i = true ∧ operandBytes i = operands := by
  cases i with
  | plain | ext => cases hg; exact ⟨rfl, rfl⟩
  | halt | stop | illegal | illegalExt | illegalStop => cases hg

/-- Decode leaves the instruction in RUNNING, with its cycle begun (R167, R169). -/
theorem decoded_inRun {s : State} {i : Instr} {operands : List Byte} {d : Descriptor} (hended : s.cycleEnded)
    (hg : genericOperands i = some operands) (h : Fetch.Resolves s.params.registry i d)
    (hdisplay : s.video.displayEnabled = true ∨ ∀ m ∈ d.ops, ∀ regs ctx, MicroOp.corruption m regs ctx = none) :
    inFlight (s.decoded i d) = i ∧
      InRun (OperandBuf.load OperandBuf.clear operands) d.ops (ticksPerCycle s) (s.decoded i d) := by
  obtain ⟨hi, hf, -⟩ := hended
  obtain ⟨-, hbytes⟩ := generic_legal hg
  have hflight : inFlight (s.decoded i d) = i := h.inFlight_eq rfl rfl rfl h.operandBytes_length.1
  exact ⟨hflight, {
    state := rfl
    ended := ⟨hi, hf, rfl⟩
    threshold := rfl
    generic := ⟨operands, by rw [hflight, hg], by rw [← hbytes]; exact load_load _ _⟩
    loaded := rfl
    index := Nat.zero_le _
    display := hdisplay }⟩

/-- Settles O58: the cycles of the bytes fetched, and then those of the micro-operations, the first in the last of them. -/
theorem cycleCountOfAnInstruction : Obligations.CycleCountOfAnInstruction := by
  intro s i operands rest d hended hs hm hdec harray hg hd hc hdisplay ms c
  obtain ⟨hlegal, -⟩ := generic_legal hg
  obtain ⟨hwf, -⟩ := RoundTrip.encodeOfDecode _ _ _ _ hdec
  obtain ⟨hflight, hrun⟩ := decoded_inRun hended hg ⟨hlegal, hwf, hd⟩ hdisplay
  have hcount : c = (encode i).length + cyclesLeft (OperandBuf.load OperandBuf.clear operands) (s.decoded i d) :=
    cycleCount_add _ 0 true _
  have hfetch := DecodeRun.decodedInstructionRuns s i rest d hended hs hm hdec harray hlegal hd
  rw [hcount]
  refine hrun.runSteps_retires hc _ rfl ?_
  rw [Nat.mul_comm, hfetch, hflight]

end Sys2Proof.Proofs.CycleCount
end
